-- ==== Sys2Proof/Word.lean ====
section
/-! DEFINITION. The words the block moves: host words (R13), symbols (R8), codes (R9) and stream bytes (R50). -/

namespace Sys2Proof

/-- A host register, address or data word (R13). -/
abbrev Word := BitVec 32

/-- The atomic unit of the uncompressed stream (R8). -/
abbrev Symbol := BitVec 8

/-- A dictionary code (R9, R81). -/
abbrev Code := BitVec 12

/-- One element of the STREAM RAM (R50). -/
abbrev Byte := BitVec 8

end Sys2Proof
end

