-- ==== Sys2Proof/Syntax.lean ====
section
/-! DEFINITION. The block's instruction set: its six commands (R4, R78). -/

namespace Sys2Proof

/-- One constructor per row of spec/opcode_table.json. A command word has no operand field (R76): every operand
comes from the operand registers when the command is accepted. -/
inductive Instr where
  /-- ENCODE (R140). -/
  | encode
  /-- DECODE (R155). -/
  | decode
  /-- PACK (R180). -/
  | pack
  /-- UNPACK (R184). -/
  | unpack
  /-- CWRITE (R188). -/
  | cwrite
  /-- CREAD (R192). -/
  | cread
  deriving DecidableEq, Repr

end Sys2Proof
end

