-- ==== Sys2Proof/Decode.lean ====
section
/-! DEFINITION. The command decoder (R80), total on every 32-bit word, and the encoder (R78). -/

namespace Sys2Proof

/-- Why a command word is no command (R79). -/
inductive CmdReject where
  /-- RSVD = CMD[31:4] is not 0. -/
  | reservedBits (rsvd : BitVec 28)
  /-- OPCODE is 0x0 or in 0x7 to 0xF. -/
  | reservedOpcode (opcode : Nat)
  deriving DecidableEq, Repr

/-- OPCODE = CMD[3:0] (R75). -/
def opcodeField (v : Word) : BitVec 4 := v.extractLsb' 0 4

/-- RSVD = CMD[31:4] (R75). -/
def rsvdField (v : Word) : BitVec 28 := v.extractLsb' 4 28

/-- The opcode map (R78): the command of an OPCODE value. -/
def opcodeMap (opcode : Nat) : Except CmdReject Instr :=
  match opcode with
  | 1 => .ok .encode
  | 2 => .ok .decode
  | 3 => .ok .pack
  | 4 => .ok .unpack
  | 5 => .ok .cwrite
  | 6 => .ok .cread
  | n => .error (.reservedOpcode n)

/-- decode_cmd (R80). -/
def decodeCmd (v : Word) : Except CmdReject Instr :=
  if rsvdField v ≠ 0#28 then .error (.reservedBits (rsvdField v))
  else opcodeMap (opcodeField v).toNat

/-- The OPCODE value of a command (R78). -/
def opcodeOf (i : Instr) : BitVec 4 :=
  match i with
  | .encode => 0x1#4
  | .decode => 0x2#4
  | .pack   => 0x3#4
  | .unpack => 0x4#4
  | .cwrite => 0x5#4
  | .cread  => 0x6#4

/-- The command word: 28 zero bits, then OPCODE (R75). -/
def encode (i : Instr) : Word := 0#28 ++ opcodeOf i

/-- The instruction the decoder reads from an opcode-table row's bits: a row is one 32-bit word, bit 0 the least
significant, and every bit at or above `nbits` is 0 (R75). -/
def decodeTableWord (nbits w : Nat) : Option Instr :=
  match decodeCmd (BitVec.ofNat 32 (w % 2 ^ nbits)) with
  | .ok i => some i
  | .error _ => none

end Sys2Proof
end

