-- ==== Sys2Proof/Config.lean ====
section
/-! DEFINITION. What one part fixes (the dictionary cap and the RAM depths) and the free values of RAM reads. -/

namespace Sys2Proof

/-- The parameters of one part: the dictionary cap (R11) and the three open RAM depths (R12).
State carries them so that a statement about every state is about every part. -/
structure Config where
  maxEntries  : Nat
  symDepth    : Nat
  codeDepth   : Nat
  streamDepth : Nat
  deriving DecidableEq, Repr

/-- LITERALS: the seed entries of the dictionary, and the first learned code (R10). -/
def Config.literals : Nat := 256

/-- 2^CODE_BITS: the upper bound of MAX_ENTRIES (R11). -/
def Config.codeSpace : Nat := 4096

/-- The upper bound of a RAM depth (R12). -/
def Config.maxDepth : Nat := 4194304

/-- MAX_ENTRIES = 4096 is this hardware's (R11); the depths are OPEN (R12).
DESIGN CHOICE (log entry 1): 1024 each, the depth the spec's vectors use. -/
def Config.standard : Config :=
  { maxEntries := 4096, symDepth := 1024, codeDepth := 1024, streamDepth := 1024 }

/-- FREE VALUE (R54, R59, log entry 4): what a host read of SYM element `index` returns when the element is
unwritten or the block is busy, at the given draw. -/
opaque Config.drawSym (draw index : Nat) : BitVec 8

/-- FREE VALUE (R54, R59, log entry 4): as `drawSym`, for the CODE RAM. -/
opaque Config.drawCode (draw index : Nat) : BitVec 12

/-- FREE VALUE (R54, R59, log entry 4): as `drawSym`, for the STREAM RAM. -/
opaque Config.drawStream (draw index : Nat) : BitVec 8

end Sys2Proof
end

