-- ==== Sys2Proof/Machine/State.lean ====
section
/-! DEFINITION. The machine's state as plain data: registers, local RAMs, the engine's internal state, the host
agent and the schedule; the state after reset (R48). -/

namespace Sys2Proof.Machine

/-- The three local RAMs (R50). -/
inductive RamId where
  | sym
  | code
  | stream
  deriving DecidableEq, Repr

/-- The errors a command ends with (R200). Their 4-bit codes are in Flags.lean. -/
inductive ErrCode where
  | badCommand
  | emptyInput
  | truncatedFrame
  | codeCountMismatch
  | invalidCode
  | range
  | dstOverflow
  deriving DecidableEq, Repr

/-- The operand snapshot taken at acceptance (R46, R104). -/
structure Snapshot where
  sb : Word
  sl : Word
  db : Word
  dc : Word
  rw : Word
  deriving DecidableEq, Repr

/-- The dictionary of a running ENCODE or DECODE (R43, R120). The 256 seeds never change (R126), so only the learned
entries are held: entry `256 + j` is `learned[j]` (any representation is allowed, U18; log entry 12). -/
structure Dict where
  learned : List (List Symbol)
  deriving DecidableEq, Repr

/-- The engine's internal state while a command runs (R43 to R46). -/
structure Engine where
  /-- The accepted opcode (R46). -/
  op   : Instr
  /-- The operand snapshot (R46). -/
  snap : Snapshot
  /-- The next source element, relative to `sb` (R46). -/
  i    : Nat
  /-- The destination elements written so far (R46). -/
  o    : Nat
  /-- The dictionary; absent before dict_init (R43, R131). -/
  dict : Option Dict
  /-- ENCODE's current match; absent before the first symbol (R44). -/
  cur  : Option Code
  /-- DECODE's previous code; absent before the first code (R45). -/
  prev : Option Code
  deriving DecidableEq, Repr

/-- The datum of a host write: a number, or `d`, the datum of the most recent `rd` (R86, R87). -/
inductive HostVal where
  | imm (v : Word)
  | d
  deriving DecidableEq, Repr

/-- A host-script statement (R86). A label is the index of the statement it marks; `halt` ends a program as in the
programs of 95_test_vectors.md section 3. -/
inductive HostStmt where
  /-- HostWrite(a, v). -/
  | wr (a : Word) (v : HostVal)
  /-- d <- HostRead(a). -/
  | rd (a : Word)
  /-- If (d & mask) ≠ 0 go to the statement `target`. -/
  | bnz (mask : Word) (target : Nat)
  /-- The host makes no further transaction. -/
  | halt
  deriving DecidableEq, Repr

/-- Who moves at a step (log entry 6). -/
inductive Turn where
  /-- The host performs its next statement. -/
  | host
  /-- The engine takes its `Complete` step (R109). -/
  | engine
  /-- The engine works on without completing (the split R109 allows; log entry 10). -/
  | advance
  /-- The reset input is asserted (R225). -/
  | reset
  deriving DecidableEq, Repr

/-- The whole machine. INVENTORY.md lists each field with its rule. -/
structure State where
  cfg       : Config
  cmd       : Word
  done      : Bool
  error     : Bool
  errCode   : BitVec 4
  srcBase   : Word
  srcLen    : Word
  dstBase   : Word
  dstCap    : Word
  rowWidth  : Word
  resultLen : Word
  dictSize  : BitVec 13
  hdrCount  : Word
  errIndex  : Word
  /-- SYM: index and value of every written element, indices strictly rising. -/
  sym       : List (Nat × BitVec 8)
  /-- CODE: as `sym`. -/
  code      : List (Nat × BitVec 12)
  /-- STREAM: as `sym`. -/
  stream    : List (Nat × BitVec 8)
  /-- The running command, if any: STATUS.BUSY is 1 exactly when it is present (R46, R47; log entry 11). -/
  engine    : Option Engine
  /-- The host's program (R86; log entry 7). -/
  prog      : List HostStmt
  /-- The host's position in its program (R27, R86). -/
  pos       : Nat
  /-- `d`, the datum of the host's most recent read (R86). -/
  hostData  : Word
  /-- The schedule: who moves at the next steps (the model's own; log entry 6). -/
  turns     : List Turn
  /-- Counter behind the free values of RAM reads (the model's own; log entry 4). -/
  draws     : Nat
  deriving DecidableEq, Repr

/-- Why a run of the model stops. Neither is an error of the hardware, which reports nothing for them (R210). -/
inductive Fault where
  /-- Raised by every command's body: the engine reads a source element that nothing has written since reset
  (R54, R210). SAFE: the hardware reads some value and goes on, the model admits no run past it. -/
  | unwrittenRead (op : Instr) (ram : RamId) (index : Nat)
  /-- Raised by the bodies of ENCODE and DECODE at source index `index`: a table lookup outside the table, which no
  rule reaches and on which a model must fault (R123). SAFE: `Machine.Inv` of Safety.lean excludes it. -/
  | lookupMiss (op : Instr) (index : Nat)
  deriving DecidableEq, Repr

/-- Why the model gives an instruction no meaning. -/
inductive Refusal where
  /-- Raised by `exec` for an instruction that has no meaning yet; no arm does so. SAFE. -/
  | notModelled (mnemonic : String)
  deriving DecidableEq, Repr

/-- The state right after reset of a part with parameters `c` (R48): every register 0, every RAM element unwritten,
no command running; the host has no program and the schedule is empty (log entries 6, 7). -/
def State.resetWith (c : Config) : State :=
  { cfg := c
    cmd := 0#32, done := false, error := false, errCode := 0#4
    srcBase := 0#32, srcLen := 0#32, dstBase := 0#32, dstCap := 0#32, rowWidth := 0#32
    resultLen := 0#32, dictSize := 0#13, hdrCount := 0#32, errIndex := 0#32
    sym := [], code := [], stream := []
    engine := none
    prog := [], pos := 0, hostData := 0#32
    turns := [], draws := 0 }

/-- The state right after reset (R48) of the standard part (log entry 1). -/
def State.reset : State := State.resetWith Config.standard

end Sys2Proof.Machine
end

