-- ==== Sys2Proof/Machine/Flags.lean ====
section
/-! DEFINITION. STATUS and its fields (R33, R40), and the error codes (R200). -/

namespace Sys2Proof.Machine

/-- STATUS.ERRCODE of an error (R200). -/
def ErrCode.code (e : ErrCode) : BitVec 4 :=
  match e with
  | .badCommand        => 1#4
  | .emptyInput        => 2#4
  | .truncatedFrame    => 3#4
  | .codeCountMismatch => 4#4
  | .invalidCode       => 5#4
  | .range             => 6#4
  | .dstOverflow       => 7#4

/-- STATUS.BUSY: a command is running (R33, R46; log entry 11). -/
def State.busy (s : State) : Bool := s.engine.isSome

/-- STATUS.SATURATED: DICT_SIZE = MAX_ENTRIES, not stored (R33). -/
def State.saturated (s : State) : Bool := decide (s.dictSize.toNat = s.cfg.maxEntries)

/-- The STATUS register (R33): bits 31:12 zero, ERRCODE at 11:8, bits 7:4 zero, then SATURATED, ERROR, DONE, BUSY. -/
def State.statusWord (s : State) : Word :=
  0#20 ++ s.errCode ++ 0#4 ++ BitVec.ofBool s.saturated ++ BitVec.ofBool s.error ++
    BitVec.ofBool s.done ++ BitVec.ofBool s.busy

end Sys2Proof.Machine
end

