-- ==== Sys2Proof/Machine/Operands.lean ====
section
/-! DEFINITION. Operand assembly: the snapshot of the operand registers and its readings as natural numbers (R76, R104),
and the RAMs a command reads and writes (R51). -/

namespace Sys2Proof.Machine

/-- The operand registers as they stand, which acceptance copies (R104). -/
def State.operands (s : State) : Snapshot :=
  { sb := s.srcBase, sl := s.srcLen, db := s.dstBase, dc := s.dstCap, rw := s.rowWidth }

/-- `sb` as a natural number (R76). -/
def Engine.sb (e : Engine) : Nat := e.snap.sb.toNat

/-- `sl` as a natural number (R76). -/
def Engine.sl (e : Engine) : Nat := e.snap.sl.toNat

/-- `db` as a natural number (R76). -/
def Engine.db (e : Engine) : Nat := e.snap.db.toNat

/-- `dc` as a natural number (R76). -/
def Engine.dc (e : Engine) : Nat := e.snap.dc.toNat

/-- The engine as acceptance leaves it: `i = o = 0`, no dictionary, no match, no previous code (R103). -/
def Engine.fresh (op : Instr) (sn : Snapshot) : Engine :=
  { op := op, snap := sn, i := 0, o := 0, dict := none, cur := none, prev := none }

/-- The RAM a command reads (R51). -/
def sourceRam (i : Instr) : RamId :=
  match i with
  | .encode => .sym
  | .decode => .code
  | .pack   => .code
  | .unpack => .stream
  | .cwrite => .code
  | .cread  => .stream

/-- The RAM a command writes (R51). -/
def destRam (i : Instr) : RamId :=
  match i with
  | .encode => .code
  | .decode => .sym
  | .pack   => .stream
  | .unpack => .code
  | .cwrite => .stream
  | .cread  => .code

/-- The number of elements of a RAM (R50, R12). -/
def ramDepth (c : Config) (m : RamId) : Nat :=
  match m with
  | .sym    => c.symDepth
  | .code   => c.codeDepth
  | .stream => c.streamDepth

/-- The commands that own a dictionary and write DICT_SIZE (R35, R131). -/
def usesDictionary (i : Instr) : Bool :=
  match i with
  | .encode => true
  | .decode => true
  | .pack   => false
  | .unpack => false
  | .cwrite => false
  | .cread  => false

end Sys2Proof.Machine
end

