-- ==== Sys2Proof/Machine/Ops.lean ====
section
/-! DEFINITION. The shared operations: RAM elements, the body outcome, put and put_seq, acceptance, completion, and
ending a command in error. -/

namespace Sys2Proof.Machine

/-! ### Local RAMs (R42, R50): written elements as (index, value) pairs, indices strictly rising -/

/-- MemRead (R19): the value of element `a`, or none where nothing has been written since reset (R54). -/
def ramRead {w : Nat} (m : List (Nat × BitVec w)) (a : Nat) : Option (BitVec w) :=
  match m with
  | [] => none
  | (k, v) :: rest => if k = a then some v else ramRead rest a

/-- MemWrite (R19): element `a` becomes `v`. -/
def ramWrite {w : Nat} (m : List (Nat × BitVec w)) (a : Nat) (v : BitVec w) : List (Nat × BitVec w) :=
  match m with
  | [] => [(a, v)]
  | (k, u) :: rest =>
    if a < k then (a, v) :: (k, u) :: rest
    else if a = k then (a, v) :: rest
    else (k, u) :: ramWrite rest a v

/-- Elements `a, a + 1, …` become the values of the list, in increasing index order (R102). -/
def ramWriteSeq {w : Nat} (m : List (Nat × BitVec w)) (a : Nat) (vs : List (BitVec w)) : List (Nat × BitVec w) :=
  match vs with
  | [] => m
  | v :: rest => ramWriteSeq (ramWrite m a v) (a + 1) rest

/-- Elements `a … a + n - 1`, each written or unwritten. -/
def ramRange {w : Nat} (m : List (Nat × BitVec w)) (a n : Nat) : List (Option (BitVec w)) :=
  match n with
  | 0 => []
  | k + 1 => ramRead m a :: ramRange m (a + 1) k

/-- The canonical form of one RAM: indices strictly rising. An unlisted element is unwritten, so no entry can equal
what an unlisted index reads as. -/
abbrev ramWf {w : Nat} (m : List (Nat × BitVec w)) : Prop := m.Pairwise (fun p q => p.1 < q.1)

/-- The canonical form of the machine's three RAMs. -/
abbrev Memory.wf (s : State) : Prop := ramWf s.sym ∧ ramWf s.code ∧ ramWf s.stream

/-! ### The outcome of a body (R109) -/

/-- How a piece of a command body ends: it goes on, it has raised an error (R203) or the model faults. -/
inductive Res (α : Type) where
  | ok (a : α)
  | err (e : ErrCode) (idx : Nat) (a : α)
  | fault (f : Fault)
  deriving DecidableEq, Repr

/-- Run `k` next unless the body has ended: nothing after a `raise` is performed (R203). -/
def Res.andThen {α : Type} (r : Res α) (k : α → Res α) : Res α :=
  match r with
  | .ok a => k a
  | .err e idx a => .err e idx a
  | .fault f => .fault f

/-- What a body works on: the engine's internal state, the destination elements it has written in this step, and the
header words CREAD has read (codeCount, rowWidth), which wait for completion (R103, R192). -/
structure Work (w : Nat) where
  eng : Engine
  out : List (BitVec w)
  hdr : Option (Word × Word)
  deriving DecidableEq, Repr

/-- The work at the start of a step. -/
def Work.start (w : Nat) (e : Engine) : Work w := { eng := e, out := [], hdr := none }

/-- check_regions (R105): both sums are exact natural numbers. -/
def checkRegions {w : Nat} (srcDepth dstDepth : Nat) (x : Work w) : Res (Work w) :=
  if x.eng.sb + x.eng.sl > srcDepth then .err .range 0 x
  else if x.eng.db + x.eng.dc > dstDepth then .err .range 0 x
  else .ok x

/-- put (R106). -/
def put {w : Nat} (v : BitVec w) (idx : Nat) (x : Work w) : Res (Work w) :=
  if x.eng.o ≥ x.eng.dc then .err .dstOverflow idx x
  else .ok { x with eng := { x.eng with o := x.eng.o + 1 }, out := x.out ++ [v] }

/-- put of each value of a list in turn, all with the same error index. -/
def putAll {w : Nat} (vs : List (BitVec w)) (idx : Nat) (x : Work w) : Res (Work w) :=
  match vs with
  | [] => .ok x
  | v :: rest => (put v idx x).andThen fun y => putAll rest idx y

/-- put_seq (R107): the whole sequence or nothing of it. -/
def putSeq {w : Nat} (t : List (BitVec w)) (idx : Nat) (x : Work w) : Res (Work w) :=
  if x.eng.o + t.length > x.eng.dc then .err .dstOverflow idx x
  else .ok { x with eng := { x.eng with o := x.eng.o + t.length }, out := x.out ++ t }

/-- Move the progress index on by `n` source elements (R46). -/
def Work.advance {w : Nat} (n : Nat) (x : Work w) : Work w :=
  { x with eng := { x.eng with i := x.eng.i + n } }

/-! ### Acceptance (R100 to R104) -/

/-- A CMD write clears the record of the command before it (R100); this is all the 'return' from an error there is (R208). -/
def State.clearOutcome (s : State) : State :=
  { s with done := false, error := false, errCode := 0#4, resultLen := 0#32, errIndex := 0#32 }

/-- accept(op) (R103, R104): snapshot, `i = o = 0`, BUSY. -/
def State.accept (op : Instr) (s : State) : State :=
  { s with engine := some (Engine.fresh op s.operands) }

/-- A CMD write of `v` while idle (R100): it decodes to a command, which is accepted, or it ends at once with
BAD_COMMAND (R101). -/
def State.writeCmd (v : Word) (s : State) : State :=
  let s1 := { s.clearOutcome with cmd := v, draws := s.draws + 1 }
  match decodeCmd v with
  | .ok op => s1.accept op
  | .error _ => { s1 with error := true, errCode := ErrCode.badCommand.code }

/-! ### Completion (R108) and ending in error (R203) -/

/-- The number of dictionary entries (R120): LITERALS seeds and the learned entries. -/
def dictCount (d : Dict) : Nat := Config.literals + d.learned.length

/-- The value DICT_SIZE takes when ENCODE or DECODE ends: dsize if dict_init has run, else 0 (R35, R203). -/
def endDictSize (e : Engine) : BitVec 13 :=
  match e.dict with
  | some d => BitVec.ofNat 13 (dictCount d)
  | none => 0#13

/-- The register updates every end of a command makes: RESULT_LEN <- o, DICT_SIZE for ENCODE and DECODE (R35), the
header words CREAD has read (R192); the engine goes idle and its internal state ceases to exist (R47). -/
def State.settle {w : Nat} (op : Instr) (x : Work w) (s : State) : State :=
  { s with
    resultLen := BitVec.ofNat 32 x.eng.o
    dictSize := if usesDictionary op then endDictSize x.eng else s.dictSize
    hdrCount := match x.hdr with
      | some h => h.1
      | none => s.hdrCount
    rowWidth := match x.hdr with
      | some h => h.2
      | none => s.rowWidth
    engine := none
    draws := s.draws + 1 }

/-- complete() (R108). -/
def State.complete {w : Nat} (op : Instr) (x : Work w) (s : State) : State :=
  { s.settle op x with done := true }

/-- raise Err(E, idx) (R203): the one operation by which a running command ends in error. -/
def State.raiseErr {w : Nat} (op : Instr) (E : ErrCode) (idx : Nat) (x : Work w) (s : State) : State :=
  { s.settle op x with error := true, errCode := E.code, errIndex := BitVec.ofNat 32 idx }

/-! ### The Complete step (R109) -/

/-- Store destination elements into SYM from index `a`. -/
def storeSym (a : Nat) (vs : List (BitVec 8)) (s : State) : State := { s with sym := ramWriteSeq s.sym a vs }

/-- Store destination elements into CODE from index `a`. -/
def storeCode (a : Nat) (vs : List (BitVec 12)) (s : State) : State := { s with code := ramWriteSeq s.code a vs }

/-- Store destination elements into STREAM from index `a`. -/
def storeStream (a : Nat) (vs : List (BitVec 8)) (s : State) : State := { s with stream := ramWriteSeq s.stream a vs }

/-- The engine that will run command `op`: the running one, or in an idle state the one acceptance would leave
(log entry 9). -/
def State.engineFor (op : Instr) (s : State) : Engine :=
  match s.engine with
  | some e => e
  | none => Engine.fresh op s.operands

/-- The state in which command `op` runs: a busy state as it is, an idle one after the CMD write that issues `op`
(log entry 9). -/
def State.issued (op : Instr) (s : State) : State :=
  if s.busy then s else s.writeCmd (encode op)

/-- Apply a body's outcome to the state (R109): the elements it wrote go to `db + o` of the engine the step began with,
then the completion of R108 or the error of R203. -/
def State.finish {w : Nat} (op : Instr) (store : Nat → List (BitVec w) → State → State) (e : Engine)
    (r : Res (Work w)) (s : State) : Host.Outcome State Fault Refusal :=
  match r with
  | .ok x => .next ((store (e.db + e.o) x.out s).complete op x)
  | .err E idx x => .next ((store (e.db + e.o) x.out s).raiseErr op E idx x)
  | .fault f => .fault f

/-- Run command `op` to its end (R109): evaluate the body, then apply its outcome. -/
def runCommand {w : Nat} (op : Instr) (store : Nat → List (BitVec w) → State → State)
    (body : State → Engine → Res (Work w)) (s : State) : Host.Outcome State Fault Refusal :=
  (s.issued op).finish op store (s.engineFor op) (body (s.issued op) (s.engineFor op))

/-- Let a running command work on without ending (the split of R109, log entry 10): the elements written go to the
destination and the engine keeps its progress; where the piece would end the command or fault, nothing happens. -/
def State.workOn {w : Nat} (store : Nat → List (BitVec w) → State → State) (e : Engine) (r : Res (Work w))
    (s : State) : State :=
  match r with
  | .ok x => { store (e.db + e.o) x.out s with engine := some x.eng }
  | .err _ _ _ => s
  | .fault _ => s

end Sys2Proof.Machine
end

