-- ==== Sys2Proof/Machine/Dictionary.lean ====
section
/-! DEFINITION. The DictionaryTable and its operations (41_dictionary.md). -/

namespace Sys2Proof.Machine

/-- dict_init (R122): 256 singleton entries and nothing learned. -/
def dictInit : Dict := { learned := [] }

/-- lookup_code (R123): the sequence of code `k`; none where `k >= dsize`. -/
def lookupCode (d : Dict) (k : Nat) : Option (List Symbol) :=
  if k < Config.literals then some [BitVec.ofNat 8 k] else d.learned[k - Config.literals]?

/-- The first position of `s` in a list of sequences. -/
def seqIndex (l : List (List Symbol)) (s : List Symbol) : Option Nat :=
  match l with
  | [] => none
  | t :: rest => if t = s then some 0 else (seqIndex rest s).map (· + 1)

/-- lookup_seq (R124): the code of sequence `s`. A single symbol is always its own seed (R122, R126). -/
def lookupSeq (d : Dict) (s : List Symbol) : Option Nat :=
  match s with
  | [x] => some x.toNat
  | t => (seqIndex d.learned t).map (· + Config.literals)

/-- insert (R125): append an entry while the table holds fewer than MAX_ENTRIES, else nothing (R127). -/
def dictInsert (maxEntries : Nat) (d : Dict) (s : List Symbol) : Dict :=
  if dictCount d < maxEntries then { learned := d.learned ++ [s] } else d

end Sys2Proof.Machine
end

