-- ==== Sys2Proof/Machine/Decoder.lean ====
section
/-! DEFINITION. DECODE (43_decoder.md). -/

namespace Sys2Proof.Machine

/-- DECODE's start (R156): region checks, EMPTY_INPUT, dict_init. A command that has begun resumes where it is. -/
def decodeOpen (c : Config) (x : Work 8) : Res (Work 8) :=
  if x.eng.dict.isSome then .ok x
  else (checkRegions c.codeDepth c.symDepth x).andThen fun x =>
    if x.eng.sl = 0 then .err .emptyInput 0 x
    else .ok { x with eng := { x.eng with dict := some dictInit } }

/-- The first code (R157): a code of the seeded table, else INVALID_CODE. -/
def decodeFirst (d : Dict) (k : Code) (x : Work 8) : Res (Work 8) :=
  if k.toNat ≥ dictCount d then .err .invalidCode x.eng.i x
  else match lookupCode d k.toNat with
    | none => .fault (.lookupMiss .decode x.eng.i)
    | some t => (putSeq t x.eng.i x).andThen fun x =>
        .ok ({ x with eng := { x.eng with prev := some k } }.advance 1)

/-- translate (R158): a known code gives its entry (R159), the not-yet-known code the previous translation and that
translation's head (R160), every other code INVALID_CODE (none). `m` is the previous translation. -/
def translate (maxEntries : Nat) (d : Dict) (m : List Symbol) (k : Nat) : Option (List Symbol) :=
  if k < dictCount d then lookupCode d k
  else if k = dictCount d ∧ dictCount d < maxEntries then some (m ++ m.head?.toList)
  else none

/-- Output of a translation, then the insert, then prev <- k (R161). -/
def decodeEmit (c : Config) (d : Dict) (m t : List Symbol) (k : Code) (x : Work 8) : Res (Work 8) :=
  match t with
  | [] => .fault (.lookupMiss .decode x.eng.i)
  | h :: _ => (putSeq t x.eng.i x).andThen fun x =>
      .ok ({ x with eng := { x.eng with
        dict := some (dictInsert c.maxEntries d (m ++ [h]))
        prev := some k } }.advance 1)

/-- A later code (R158 to R161), after a code whose translation is `m`. -/
def decodeLater (c : Config) (d : Dict) (m : List Symbol) (k : Code) (x : Work 8) : Res (Work 8) :=
  match translate c.maxEntries d m k.toNat with
  | none => .err .invalidCode x.eng.i x
  | some t => decodeEmit c d m t k x

/-- One source code `k` (R156). -/
def decodeWalk (c : Config) (k : Code) (x : Work 8) : Res (Work 8) :=
  match x.eng.dict, x.eng.prev with
  | none, _ => .fault (.lookupMiss .decode x.eng.i)
  | some d, none => decodeFirst d k x
  | some d, some p =>
    match lookupCode d p.toNat with
    | none => .fault (.lookupMiss .decode x.eng.i)
    | some m => decodeLater c d m k x

/-- The walk over source codes, in increasing order (R156). -/
def decodeLoop (c : Config) (src : List (Option Code)) (x : Work 8) : Res (Work 8) :=
  match src with
  | [] => .ok x
  | none :: _ => .fault (.unwrittenRead .decode .code (x.eng.sb + x.eng.i))
  | some k :: rest => (decodeWalk c k x).andThen fun y => decodeLoop c rest y

/-- At most `n` further source codes. -/
def decodePart (n : Nat) (s : State) (e : Engine) : Res (Work 8) :=
  (decodeOpen s.cfg (Work.start 8 e)).andThen fun x =>
    decodeLoop s.cfg (ramRange s.code (x.eng.sb + x.eng.i) (min n (x.eng.sl - x.eng.i))) x

/-- DECODE: the whole body (R156), from wherever the engine is. -/
def decodeBody (s : State) (e : Engine) : Res (Work 8) := decodePart e.sl s e

/-- DECODE's meaning (R155 to R163). -/
def execDecode (s : State) : Host.Outcome State Fault Refusal :=
  runCommand .decode storeSym decodeBody s

end Sys2Proof.Machine
end

