-- ==== Sys2Proof/Machine/Encoder.lean ====
section
/-! DEFINITION. ENCODE (42_encoder.md). -/

namespace Sys2Proof.Machine

/-- ENCODE's start (R141): region checks, EMPTY_INPUT, dict_init. A command that has begun resumes where it is. -/
def encodeOpen (c : Config) (x : Work 12) : Res (Work 12) :=
  if x.eng.dict.isSome then .ok x
  else (checkRegions c.symDepth c.codeDepth x).andThen fun x =>
    if x.eng.sl = 0 then .err .emptyInput 0 x
    else .ok { x with eng := { x.eng with dict := some dictInit } }

/-- One source symbol `sy`: the first becomes the current match (R141), every later one is the walk step (R142). -/
def encodeWalk (c : Config) (sy : Symbol) (x : Work 12) : Res (Work 12) :=
  match x.eng.dict, x.eng.cur with
  | none, _ => .fault (.lookupMiss .encode x.eng.i)
  | some _, none => .ok ({ x with eng := { x.eng with cur := some (sy.setWidth 12) } }.advance 1)
  | some d, some k =>
    match lookupCode d k.toNat with
    | none => .fault (.lookupMiss .encode x.eng.i)
    | some m =>
      match lookupSeq d (m ++ [sy]) with
      | some k' => .ok ({ x with eng := { x.eng with cur := some (BitVec.ofNat 12 k') } }.advance 1)
      | none =>
        (put k x.eng.i x).andThen fun x =>
          .ok ({ x with eng := { x.eng with
            dict := some (dictInsert c.maxEntries d (m ++ [sy]))
            cur := some (sy.setWidth 12) } }.advance 1)

/-- The walk over source symbols, in increasing order (R141). -/
def encodeLoop (c : Config) (src : List (Option Symbol)) (x : Work 12) : Res (Work 12) :=
  match src with
  | [] => .ok x
  | none :: _ => .fault (.unwrittenRead .encode .sym (x.eng.sb + x.eng.i))
  | some sy :: rest => (encodeWalk c sy x).andThen fun y => encodeLoop c rest y

/-- The final emission (R143). -/
def encodeClose (x : Work 12) : Res (Work 12) :=
  match x.eng.cur with
  | none => .fault (.lookupMiss .encode x.eng.i)
  | some k => put k x.eng.sl x

/-- At most `n` further source symbols. -/
def encodePart (n : Nat) (s : State) (e : Engine) : Res (Work 12) :=
  (encodeOpen s.cfg (Work.start 12 e)).andThen fun x =>
    encodeLoop s.cfg (ramRange s.sym (x.eng.sb + x.eng.i) (min n (x.eng.sl - x.eng.i))) x

/-- ENCODE: the whole body (R141), from wherever the engine is. -/
def encodeBody (s : State) (e : Engine) : Res (Work 12) :=
  (encodePart e.sl s e).andThen encodeClose

/-- ENCODE's meaning (R140 to R145). -/
def execEncode (s : State) : Host.Outcome State Fault Refusal :=
  runCommand .encode storeCode encodeBody s

end Sys2Proof.Machine
end

