-- ==== Sys2Proof/Machine/Framer.lean ====
section
/-! DEFINITION. The BitFramer primitives and PACK, UNPACK, CWRITE and CREAD (44_framer.md). -/

namespace Sys2Proof.Machine

/-! ### Primitives (R175 to R178) -/

/-- The 24-bit value of a CodePack: c1 | (c2 << 12) (R82, R175). -/
def packValue (c1 c2 : Code) : BitVec 24 := c1.setWidth 24 ||| (c2.setWidth 24 <<< 12)

/-- pack(c1, c2) (R175): the low byte, the next byte, the high byte. -/
def pack (c1 c2 : Code) : List Byte :=
  [(packValue c1 c2).extractLsb' 0 8, (packValue c1 c2).extractLsb' 8 8, (packValue c1 c2).extractLsb' 16 8]

/-- The first code of unpack(b0, b1, b2) (R176): b0 | ((b1 & 0x0F) << 8). -/
def unpackFirst (b0 b1 : Byte) : Code := b0.setWidth 12 ||| ((b1 &&& 0x0F#8).setWidth 12 <<< 8)

/-- The second code of unpack(b0, b1, b2) (R176): (b1 >> 4) | (b2 << 4). -/
def unpackSecond (b1 b2 : Byte) : Code := (b1 >>> 4).setWidth 12 ||| (b2.setWidth 12 <<< 4)

/-- le32_bytes (R178): least significant byte first. -/
def le32Bytes (w : Word) : List Byte :=
  [w.extractLsb' 0 8, w.extractLsb' 8 8, w.extractLsb' 16 8, w.extractLsb' 24 8]

/-- The word of four bytes, the first the least significant (R178). -/
def le32Word (b0 b1 b2 b3 : Byte) : Word :=
  b0.setWidth 32 ||| (b1.setWidth 32 <<< 8) ||| (b2.setWidth 32 <<< 16) ||| (b3.setWidth 32 <<< 24)

/-- MemRead of STREAM element `a` by command `op`: an unwritten element faults (R54). -/
def streamByte (op : Instr) (m : List (Nat × BitVec 8)) (a : Nat) : Except Fault Byte :=
  match ramRead m a with
  | some b => .ok b
  | none => .error (.unwrittenRead op .stream a)

/-- le32_read (R178): four MemReads in increasing order. -/
def le32Read (op : Instr) (m : List (Nat × BitVec 8)) (a : Nat) : Except Fault Word :=
  match streamByte op m a, streamByte op m (a + 1), streamByte op m (a + 2), streamByte op m (a + 3) with
  | .error f, _, _, _ => .error f
  | _, .error f, _, _ => .error f
  | _, _, .error f, _ => .error f
  | _, _, _, .error f => .error f
  | .ok b0, .ok b1, .ok b2, .ok b3 => .ok (le32Word b0 b1 b2 b3)

/-- ceil(n/2) (R17): the number of CodePacks of n codes. -/
def packCount (n : Nat) : Nat := (n + 1) / 2

/-! ### PACK (R180) -/

/-- The packs of a code list, padding a trailing unpaired code with 0 (R83, R180). `op` is PACK or CWRITE, which
share it (R188). -/
def packLoop (op : Instr) (src : List (Option Code)) (x : Work 8) : Res (Work 8) :=
  match src with
  | [] => .ok x
  | none :: _ => .fault (.unwrittenRead op .code (x.eng.sb + x.eng.i))
  | [some c1] => (putAll (pack c1 0#12) x.eng.i x).andThen fun y => .ok (y.advance 1)
  | some _ :: none :: _ => .fault (.unwrittenRead op .code (x.eng.sb + x.eng.i + 1))
  | some c1 :: some c2 :: rest =>
    ((putAll (pack c1 c2) x.eng.i x).andThen fun y => .ok (y.advance 2)).andThen fun y => packLoop op rest y

/-- At most `n` further source codes. -/
def packCodes (op : Instr) (n : Nat) (s : State) (x : Work 8) : Res (Work 8) :=
  packLoop op (ramRange s.code (x.eng.sb + x.eng.i) (min n (x.eng.sl - x.eng.i))) x

/-- PACK's checks (R180): regions, then the whole output against the capacity. -/
def packOpen (c : Config) (x : Work 8) : Res (Work 8) :=
  (checkRegions c.codeDepth c.streamDepth x).andThen fun x =>
    if 3 * packCount x.eng.sl > x.eng.dc then .err .dstOverflow 0 x else .ok x

/-- PACK over at most `n` further source codes. -/
def packPart (n : Nat) (s : State) (e : Engine) : Res (Work 8) :=
  (packOpen s.cfg (Work.start 8 e)).andThen (packCodes .pack n s)

/-- PACK: the whole body (R180), from wherever the engine is. -/
def packBody (s : State) (e : Engine) : Res (Work 8) := packPart e.sl s e

/-- PACK's meaning (R180, R181). -/
def execPack (s : State) : Host.Outcome State Fault Refusal :=
  runCommand .pack storeStream packBody s

/-! ### UNPACK (R184) -/

/-- The three bytes of a CodePack, read in increasing order; `a` is the index of the first. -/
def readTriple (op : Instr) (a : Nat) (o0 o1 o2 : Option Byte) : Except Fault (Byte × Byte × Byte) :=
  match o0, o1, o2 with
  | none, _, _ => .error (.unwrittenRead op .stream a)
  | some _, none, _ => .error (.unwrittenRead op .stream (a + 1))
  | some _, some _, none => .error (.unwrittenRead op .stream (a + 2))
  | some b0, some b1, some b2 => .ok (b0, b1, b2)

/-- One group of UNPACK: both codes are written (R184). -/
def unpackGroup (o0 o1 o2 : Option Byte) (x : Work 12) : Res (Work 12) :=
  match readTriple .unpack (x.eng.sb + x.eng.i) o0 o1 o2 with
  | .error f => .fault f
  | .ok (b0, b1, b2) =>
    (putAll [unpackFirst b0 b1, unpackSecond b1 b2] x.eng.i x).andThen fun y => .ok (y.advance 3)

/-- The groups of UNPACK, in increasing order (R184). -/
def unpackLoop (src : List (Option Byte)) (x : Work 12) : Res (Work 12) :=
  match src with
  | o0 :: o1 :: o2 :: rest => (unpackGroup o0 o1 o2 x).andThen fun y => unpackLoop rest y
  | _ => .ok x

/-- UNPACK's checks (R184): regions, whole groups only, then the whole output against the capacity. -/
def unpackOpen (c : Config) (x : Work 12) : Res (Work 12) :=
  (checkRegions c.streamDepth c.codeDepth x).andThen fun x =>
    if x.eng.sl % 3 ≠ 0 then .err .truncatedFrame (x.eng.sl - x.eng.sl % 3) x
    else if 2 * (x.eng.sl / 3) > x.eng.dc then .err .dstOverflow 0 x
    else .ok x

/-- UNPACK over at most `n` further source bytes. -/
def unpackPart (n : Nat) (s : State) (e : Engine) : Res (Work 12) :=
  (unpackOpen s.cfg (Work.start 12 e)).andThen fun x =>
    unpackLoop (ramRange s.stream (x.eng.sb + x.eng.i) (min n (x.eng.sl - x.eng.i))) x

/-- UNPACK: the whole body (R184), from wherever the engine is. -/
def unpackBody (s : State) (e : Engine) : Res (Work 12) := unpackPart e.sl s e

/-- UNPACK's meaning (R184, R185). -/
def execUnpack (s : State) : Host.Outcome State Fault Refusal :=
  runCommand .unpack storeCode unpackBody s

/-! ### CWRITE (R188) -/

/-- CWRITE's checks (R188), then the 8 header bytes where none is written yet: codeCount = sl, then rowWidth. -/
def cwriteOpen (c : Config) (x : Work 8) : Res (Work 8) :=
  (checkRegions c.codeDepth c.streamDepth x).andThen fun x =>
    if 8 + 3 * packCount x.eng.sl > x.eng.dc then .err .dstOverflow 0 x
    else if x.eng.o = 0 then putAll (le32Bytes x.eng.snap.sl ++ le32Bytes x.eng.snap.rw) 0 x
    else .ok x

/-- CWRITE over at most `n` further source codes. -/
def cwritePart (n : Nat) (s : State) (e : Engine) : Res (Work 8) :=
  (cwriteOpen s.cfg (Work.start 8 e)).andThen (packCodes .cwrite n s)

/-- CWRITE: the whole body (R188), from wherever the engine is. -/
def cwriteBody (s : State) (e : Engine) : Res (Work 8) := cwritePart e.sl s e

/-- CWRITE's meaning (R188, R189). -/
def execCwrite (s : State) : Host.Outcome State Fault Refusal :=
  runCommand .cwrite storeStream cwriteBody s

/-! ### CREAD (R192) -/

/-- sint32 of the codeCount word (R17): two's complement. -/
def sint32 (w : Word) : Int := w.toInt

/-- cnt as a count of codes, once it is known not to be negative. -/
def declaredCount (x : Work 12) : Nat :=
  match x.hdr with
  | some h => (sint32 h.1).toNat
  | none => 0

/-- CREAD's checks on a header (R192): HDR_COUNT and ROW_WIDTH are to be written whatever comes after. -/
def creadCheck (cw rwd : Word) (x : Work 12) : Res (Work 12) :=
  let x := { x with hdr := some (cw, rwd), eng := { x.eng with i := max x.eng.i 8 } }
  if sint32 cw < 0 ∨ sint32 cw > 2 * (((x.eng.sl - 8) / 3 : Nat) : Int) then .err .codeCountMismatch 0 x
  else if sint32 cw > (x.eng.dc : Int) then .err .dstOverflow 0 x
  else .ok x

/-- CREAD's start (R192): regions, header present, the two header words. -/
def creadOpen (c : Config) (m : List (Nat × BitVec 8)) (x : Work 12) : Res (Work 12) :=
  (checkRegions c.streamDepth c.codeDepth x).andThen fun x =>
    if x.eng.sl < 8 then .err .truncatedFrame 0 x
    else match le32Read .cread m x.eng.sb with
      | .error f => .fault f
      | .ok cw => match le32Read .cread m (x.eng.sb + 4) with
        | .error f => .fault f
        | .ok rwd => creadCheck cw rwd x

/-- One group of CREAD at stream offset `i = 8 + 3j`: the second code only where `2j + 1 < cnt` (R192). -/
def creadGroup (cnt : Nat) (o0 o1 o2 : Option Byte) (x : Work 12) : Res (Work 12) :=
  match readTriple .cread (x.eng.sb + x.eng.i) o0 o1 o2 with
  | .error f => .fault f
  | .ok (b0, b1, b2) =>
    (putAll (if 2 * ((x.eng.i - 8) / 3) + 1 < cnt then [unpackFirst b0 b1, unpackSecond b1 b2] else [unpackFirst b0 b1])
      x.eng.i x).andThen fun y => .ok (y.advance 3)

/-- The groups of CREAD, in increasing order (R192). -/
def creadLoop (cnt : Nat) (src : List (Option Byte)) (x : Work 12) : Res (Work 12) :=
  match src with
  | o0 :: o1 :: o2 :: rest => (creadGroup cnt o0 o1 o2 x).andThen fun y => creadLoop cnt rest y
  | _ => .ok x

/-- CREAD over at most `n` further source bytes: only the groups that hold declared codes are read (R192). -/
def creadPart (n : Nat) (s : State) (e : Engine) : Res (Work 12) :=
  (creadOpen s.cfg s.stream (Work.start 12 e)).andThen fun x =>
    creadLoop (declaredCount x)
      (ramRange s.stream (x.eng.sb + x.eng.i) (min n (8 + 3 * packCount (declaredCount x) - x.eng.i))) x

/-- CREAD: the whole body (R192), from wherever the engine is. -/
def creadBody (s : State) (e : Engine) : Res (Work 12) := creadPart e.sl s e

/-- CREAD's meaning (R192 to R194). -/
def execCread (s : State) : Host.Outcome State Fault Refusal :=
  runCommand .cread storeCode creadBody s

end Sys2Proof.Machine
end

