-- ==== Sys2Proof/Machine/Engine.lean ====
section
/-! DEFINITION. The engine working on without completing: R109's split of `Complete` per source element. -/

namespace Sys2Proof.Machine

/-- One piece of the running command, as a state change that cannot end it (R109, log entry 10): one source element
of ENCODE and DECODE, one CodePack of the framing commands (with the header where it is still to do). -/
def advanceEngine (s : State) : State :=
  match s.engine with
  | none => s
  | some e =>
    match e.op with
    | .encode => s.workOn storeCode e (encodePart 1 s e)
    | .decode => s.workOn storeSym e (decodePart 1 s e)
    | .pack   => s.workOn storeStream e (packPart 2 s e)
    | .unpack => s.workOn storeCode e (unpackPart 3 s e)
    | .cwrite => s.workOn storeStream e (cwritePart 2 s e)
    | .cread  => s.workOn storeCode e (creadPart 3 s e)

/-- The engine's own step (R109): `Complete` of the running command; idle, it takes no step (R220). -/
def engineTurn (s : State) : Host.Outcome State Fault Refusal :=
  match s.engine with
  | some e => exec e.op s
  | none => .next s

/-- The reset input (R225): registers at their reset values, RAM unwritten, the running command abandoned. The part's
parameters, the host and the schedule are not the block's to reset (log entry 16). -/
def resetBlock (s : State) : State :=
  { State.resetWith s.cfg with
    prog := s.prog, pos := s.pos, hostData := s.hostData, turns := s.turns, draws := s.draws + 1 }

end Sys2Proof.Machine
end

