-- ==== Sys2Proof/Machine/HostPort.lean ====
section
/-! DEFINITION. The host port: register map (R30), address map (R58), HostRead and HostWrite (R57 to R61). -/

namespace Sys2Proof.Machine

/-- The host-visible registers (R30). -/
inductive Reg where
  | id
  | cmd
  | status
  | srcBase
  | srcLen
  | dstBase
  | dstCap
  | rowWidth
  | resultLen
  | dictSize
  | hdrCount
  | errIndex
  deriving DecidableEq, Repr

/-- What a word-aligned host address reaches (R58). -/
inductive Target where
  | reg (r : Reg)
  | ram (m : RamId) (index : Nat)
  | reserved
  deriving DecidableEq, Repr

/-- The byte offset of a register (R30). -/
def regOffset (r : Reg) : Nat :=
  match r with
  | .id        => 0x000
  | .cmd       => 0x004
  | .status    => 0x008
  | .srcBase   => 0x00C
  | .srcLen    => 0x010
  | .dstBase   => 0x014
  | .dstCap    => 0x018
  | .rowWidth  => 0x01C
  | .resultLen => 0x020
  | .dictSize  => 0x024
  | .hdrCount  => 0x028
  | .errIndex  => 0x02C

/-- The register at a byte offset; 0x030 to 0xFFC are reserved (R30, R38). -/
def regAt (offset : Nat) : Target :=
  match offset with
  | 0x000 => .reg .id
  | 0x004 => .reg .cmd
  | 0x008 => .reg .status
  | 0x00C => .reg .srcBase
  | 0x010 => .reg .srcLen
  | 0x014 => .reg .dstBase
  | 0x018 => .reg .dstCap
  | 0x01C => .reg .rowWidth
  | 0x020 => .reg .resultLen
  | 0x024 => .reg .dictSize
  | 0x028 => .reg .hdrCount
  | 0x02C => .reg .errIndex
  | _ => .reserved

/-- The first byte address of a RAM's window (R58). -/
def windowBase (m : RamId) : Nat :=
  match m with
  | .sym    => 0x01000000
  | .code   => 0x02000000
  | .stream => 0x03000000

/-- The address map of word-aligned offsets (R58). -/
def targetOf (n : Nat) : Target :=
  if n < 0x1000 then regAt n
  else if n < 0x01000000 then .reserved
  else if n < 0x02000000 then .ram .sym ((n - 0x01000000) / 4)
  else if n < 0x03000000 then .ram .code ((n - 0x02000000) / 4)
  else if n < 0x04000000 then .ram .stream ((n - 0x03000000) / 4)
  else .reserved

/-- Address bits 1:0 are ignored (R61). -/
def decodeAddr (a : Word) : Target := targetOf (a &&& 0xFFFFFFFC#32).toNat

/-- The value a register reads as (R31 to R37). -/
def State.readReg (r : Reg) (s : State) : Word :=
  match r with
  | .id        => 0x4C5A5701#32
  | .cmd       => s.cmd
  | .status    => s.statusWord
  | .srcBase   => s.srcBase
  | .srcLen    => s.srcLen
  | .dstBase   => s.dstBase
  | .dstCap    => s.dstCap
  | .rowWidth  => s.rowWidth
  | .resultLen => s.resultLen
  | .dictSize  => s.dictSize.setWidth 32
  | .hdrCount  => s.hdrCount
  | .errIndex  => s.errIndex

/-- What element `index` of a RAM holds, zero-extended; none where unwritten (R54, R59). -/
def State.element (m : RamId) (index : Nat) (s : State) : Option Word :=
  match m with
  | .sym    => (ramRead s.sym index).map (·.setWidth 32)
  | .code   => (ramRead s.code index).map (·.setWidth 32)
  | .stream => (ramRead s.stream index).map (·.setWidth 32)

/-- The free value of a RAM read at draw `n`: bits above the element width are 0 (R54, R59; log entry 4). -/
def drawElement (m : RamId) (n index : Nat) : Word :=
  match m with
  | .sym    => (Config.drawSym n index).setWidth 32
  | .code   => (Config.drawCode n index).setWidth 32
  | .stream => (Config.drawStream n index).setWidth 32

/-- A RAM window read in range (R59): while busy a fresh free value; while idle the element, or the free value of an
unwritten element, the same at every read with no write or completion between (R64). -/
def State.readElement (m : RamId) (index : Nat) (s : State) : Word × State :=
  if s.busy then (drawElement m s.draws index, { s with draws := s.draws + 1 })
  else match s.element m index with
    | some v => (v, s)
    | none => (drawElement m s.draws index, s)

/-- HostRead (R57): reserved space and window offsets at or beyond the depth read as 0 (R60). -/
def hostRead (a : Word) (s : State) : Word × State :=
  match decodeAddr a with
  | .reg r => (s.readReg r, s)
  | .ram m index => if index < ramDepth s.cfg m then s.readElement m index else (0#32, s)
  | .reserved => (0#32, s)

/-- A host write to an operand register or a RAM element happened: an unwritten element may read differently from now
on (R64; log entry 4). -/
def State.redraw (s : State) : State := { s with draws := s.draws + 1 }

/-- A register write while idle (R20 to R24, R32, R38): operand registers take the value, CMD starts a command, every
other register ignores it. -/
def State.writeReg (r : Reg) (v : Word) (s : State) : State :=
  match r with
  | .id        => s
  | .cmd       => s.writeCmd v
  | .status    => s
  | .srcBase   => { s.redraw with srcBase := v }
  | .srcLen    => { s.redraw with srcLen := v }
  | .dstBase   => { s.redraw with dstBase := v }
  | .dstCap    => { s.redraw with dstCap := v }
  | .rowWidth  => { s.redraw with rowWidth := v }
  | .resultLen => s
  | .dictSize  => s
  | .hdrCount  => s
  | .errIndex  => s

/-- A RAM element write while idle: bits above the element width are discarded (R53, R59). -/
def State.writeElement (m : RamId) (index : Nat) (v : Word) (s : State) : State :=
  match m with
  | .sym    => { s.redraw with sym := ramWrite s.sym index (v.setWidth 8) }
  | .code   => { s.redraw with code := ramWrite s.code index (v.setWidth 12) }
  | .stream => { s.redraw with stream := ramWrite s.stream index (v.setWidth 8) }

/-- HostWrite (R57): ignored while busy (R240), in reserved space and at or beyond a RAM's depth (R60). -/
def hostWrite (a d : Word) (s : State) : State :=
  if s.busy then s
  else match decodeAddr a with
    | .reg r => s.writeReg r d
    | .ram m index => if index < ramDepth s.cfg m then s.writeElement m index d else s
    | .reserved => s

end Sys2Proof.Machine
end

