-- ==== Sys2Proof/Machine/HostScript.lean ====
section
/-! DEFINITION. The host agent: what its statements do (R86) and the expansions of the pseudo-instructions (R87). -/

namespace Sys2Proof.Machine

/-- The address of a register, as a host word (R30, R58). -/
def regAddr (r : Reg) : Word := BitVec.ofNat 32 (regOffset r)

/-- The address of a RAM element, as a host word (R58, R86). -/
def elementAddr (m : RamId) (index : Nat) : Word := BitVec.ofNat 32 (windowBase m + 4 * index)

/-- The datum of a host write (R86). -/
def hostValue (v : HostVal) (s : State) : Word :=
  match v with
  | .imm w => w
  | .d => s.hostData

/-- One statement of the host (R86). `bnz` and `halt` make no bus transaction. -/
def hostStatement (st : HostStmt) (s : State) : State :=
  match st with
  | .wr a v => { hostWrite a (hostValue v s) s with pos := s.pos + 1 }
  | .rd a =>
    let r := hostRead a s
    { r.2 with hostData := r.1, pos := s.pos + 1 }
  | .bnz mask target => { s with pos := if s.hostData &&& mask ≠ 0#32 then target else s.pos + 1 }
  | .halt => s

/-- The host's turn: the statement at its position; past the end of its program it does nothing. -/
def hostTurn (s : State) : State :=
  match s.prog[s.pos]? with
  | some st => hostStatement st s
  | none => s

/-! ### Pseudo-instructions (R87): each expansion takes the index of its first statement where it holds a label -/

/-- `wr REG, v`. -/
def wrReg (r : Reg) (v : HostVal) : HostStmt := .wr (regAddr r) v

/-- `rd REG`. -/
def rdReg (r : Reg) : HostStmt := .rd (regAddr r)

/-- `wr SYM[i], v`, `wr CODE[i], v`, `wr STREAM[i], v`. -/
def wrElement (m : RamId) (index : Nat) (v : Word) : HostStmt := .wr (elementAddr m index) (.imm v)

/-- `poll` at statement `p`. -/
def poll (p : Nat) : List HostStmt := [rdReg .status, .bnz 0x1#32 p]

/-- The command macros: four operand writes, the CMD write, poll. -/
def runMacro (op : Instr) (p : Nat) (sb : Word) (sl : HostVal) (db dc : Word) : List HostStmt :=
  [wrReg .srcBase (.imm sb), wrReg .srcLen sl, wrReg .dstBase (.imm db), wrReg .dstCap (.imm dc),
    wrReg .cmd (.imm (encode op))] ++ poll (p + 5)

/-- `CWRITE sb, sl, db, dc, rw`. -/
def cwriteMacro (p : Nat) (sb : Word) (sl : HostVal) (db dc rw : Word) : List HostStmt :=
  wrReg .rowWidth (.imm rw) :: runMacro .cwrite (p + 1) sb sl db dc

/-- `COMPRESS sb, sl, cb, cc, tb, tc, rw`. -/
def compressMacro (p : Nat) (sb sl cb cc tb tc rw : Word) : List HostStmt :=
  runMacro .encode p sb (.imm sl) cb cc ++ [rdReg .resultLen] ++ cwriteMacro (p + 8) cb .d tb tc rw

/-- `DECOMPRESS tb, tl, cb, cc, db, dc`. -/
def decompressMacro (p : Nat) (tb tl cb cc db dc : Word) : List HostStmt :=
  runMacro .cread p tb (.imm tl) cb cc ++ [rdReg .resultLen] ++ runMacro .decode (p + 8) cb .d db dc

end Sys2Proof.Machine
end

