-- ==== Sys2Proof/Machine/Schedule.lean ====
section
/-! DEFINITION. The agents' moves, who moves next, and placing a command for the next step. -/

namespace Sys2Proof.Machine

/-- One agent's move. -/
def takeTurn (t : Turn) (s : State) : Host.Outcome State Fault Refusal :=
  match t with
  | .host    => .next (hostTurn s)
  | .engine  => engineTurn s
  | .advance => .next (advanceEngine s)
  | .reset   => .next (resetBlock s)

/-- Who moves when the schedule names nobody: the engine while a command runs, so that every command completes (R236),
else the host (log entry 6). -/
def defaultTurn (s : State) : Turn := if s.busy then .engine else .host

/-- The schedule with the engine next: nothing to change where nobody is named and the engine is busy. -/
def engineNext (ts : List Turn) : List Turn :=
  match ts with
  | [] => []
  | t :: rest => .engine :: t :: rest

/-- The idle machine (a running command is dropped) after a CMD write of `v` (R100), with the engine to move next. -/
def placeCommand (v : Word) (s : State) : State :=
  State.writeCmd v { s with engine := none, turns := engineNext s.turns }

end Sys2Proof.Machine
end

