-- ==== Sys2Proof/WellFormed.lean ====
section
/-! DEFINITION. When a part's parameters and a command word are well formed. -/

namespace Sys2Proof

/-- A RAM depth in the range the host window holds (R12). -/
def Config.depthOk (n : Nat) : Bool := decide (1 ≤ n) && decide (n ≤ Config.maxDepth)

/-- The dictionary cap is between the seeds and the code space (R11). -/
def Config.capOk (n : Nat) : Bool := decide (Config.literals ≤ n) && decide (n ≤ Config.codeSpace)

/-- The parameters of a part the spec allows (R11, R12). -/
def Config.wellFormed (c : Config) : Bool :=
  Config.capOk c.maxEntries && Config.depthOk c.symDepth && Config.depthOk c.codeDepth &&
    Config.depthOk c.streamDepth

/-- RSVD = CMD[31:4] must be 0 (R75). -/
def reservedFieldOk (v : Word) : Bool := decide (v.extractLsb' 4 28 = 0#28)

/-- OPCODE = CMD[3:0] is one of the six assigned values (R78). -/
def opcodeFieldOk (v : Word) : Bool :=
  decide (1 ≤ (v.extractLsb' 0 4).toNat) && decide ((v.extractLsb' 0 4).toNat ≤ 6)

/-- A legal command word (R79): RSVD is 0 and OPCODE is assigned. -/
def commandWordOk (v : Word) : Bool := reservedFieldOk v && opcodeFieldOk v

/-- Every instruction is well formed: the six commands have no operand field that could be wrong (R75, R76). -/
abbrev Instr.WellFormed (i : Instr) : Prop :=
  i = .encode ∨ i = .decode ∨ i = .pack ∨ i = .unpack ∨ i = .cwrite ∨ i = .cread

end Sys2Proof
end

