-- ==== Sys2Proof/Safety.lean ====
section
/-! DEFINITION. What a good state is: the invariant every step keeps, in the terms the statements use. -/

namespace Sys2Proof.Machine

/-- The STATUS invariants (R33), and U8: ERRCODE 8 to 15 never occur. -/
structure StatusOk (s : State) : Prop where
  busyNotDone  : s.busy = true → s.done = false
  busyNotError : s.busy = true → s.error = false
  doneNotError : s.done = true → s.error = false
  codeIffError : s.errCode ≠ 0#4 ↔ s.error = true
  codeAssigned : s.errCode.toNat ≤ 7

/-- The dictionary's growth invariant and prefix property (R126, R129): every learned entry is an earlier entry
followed by one symbol. -/
structure DictOk (maxEntries : Nat) (d : Dict) : Prop where
  bounded : dictCount d ≤ maxEntries
  prefixed : ∀ j t, d.learned[j]? = some t →
    ∃ p m x, p < Config.literals + j ∧ lookupCode d p = some m ∧ t = m ++ [x]

/-- The regions of a command lie inside its RAMs (R102, R105). -/
def regionsFit (c : Config) (e : Engine) : Prop :=
  e.sb + e.sl ≤ ramDepth c (sourceRam e.op) ∧ e.db + e.dc ≤ ramDepth c (destRam e.op)

/-- The engine's internal state while a command runs (R43 to R46, R126, R128, R133, R134). -/
structure EngineOk (c : Config) (e : Engine) : Prop where
  progress   : e.i ≤ e.sl
  output     : e.o ≤ e.dc
  owner      : e.dict.isSome = true → usesDictionary e.op = true
  table      : ∀ d, e.dict = some d → DictOk c.maxEntries d
  regions    : e.dict.isSome = true → regionsFit c e
  nonEmpty   : e.dict.isSome = true → 0 < e.sl
  distinct   : ∀ d, e.op = .encode → e.dict = some d → d.learned.Nodup
  matchOwner : e.cur.isSome = true → e.op = .encode ∧ e.dict.isSome = true
  matchKnown : ∀ d k, e.dict = some d → e.cur = some k → k.toNat < dictCount d
  prevOwner  : e.prev.isSome = true → e.op = .decode ∧ e.dict.isSome = true
  prevKnown  : ∀ d k, e.dict = some d → e.prev = some k → k.toNat < dictCount d
  encodeFrom : e.op = .encode → e.cur = none → e.i = 0

/-- What the registers hold while command `e` runs (R103, R104, R239, R240). -/
structure RunningOk (s : State) (e : Engine) : Prop where
  resultZero : s.resultLen = 0#32
  indexZero  : s.errIndex = 0#32
  command    : s.cmd = encode e.op
  operands   : e.snap = s.operands
  engine     : EngineOk s.cfg e

/-- The invariant of the machine. -/
structure Inv (s : State) : Prop where
  part     : s.cfg.wellFormed = true
  memory   : Memory.wf s
  symRange : ∀ p ∈ s.sym, p.1 < s.cfg.symDepth
  codeRange : ∀ p ∈ s.code, p.1 < s.cfg.codeDepth
  streamRange : ∀ p ∈ s.stream, p.1 < s.cfg.streamDepth
  status   : StatusOk s
  dictSize : s.dictSize.toNat = 0 ∨ (Config.literals ≤ s.dictSize.toNat ∧ s.dictSize.toNat ≤ s.cfg.maxEntries)
  running  : ∀ e, s.engine = some e → RunningOk s e

/-- A step stops only for the reason R54 gives: the running command reads an element of its source region that nothing
has written since reset. -/
def StopsOnlyUnwritten (s : State) (e : Engine) (f : Fault) : Prop :=
  ∃ a, f = .unwrittenRead e.op (sourceRam e.op) a ∧ e.sb ≤ a ∧ a < e.sb + e.sl ∧
    s.element (sourceRam e.op) a = none

end Sys2Proof.Machine
end

