-- ==== Sys2Proof/Certificates/Slice0/Obligations.lean ====
section
/-! DEFINITION. The statements for the provers, and the reference functions they are stated in: LZW by longest prefix,
LZW translation without a table, the framing formats by plain arithmetic. None of these is called by the model. -/

namespace Sys2Proof.Reference

open Sys2Proof.Machine

/-! ### How a command ended, and what it left alone -/

/-- The next state `t` is that of a command that ended without error after writing `n` elements (R108, R33, R34). -/
def EndsOk (t : State) (n : Nat) : Prop :=
  t.engine = none ∧ t.done = true ∧ t.error = false ∧ t.errCode = 0#4 ∧
    t.resultLen = BitVec.ofNat 32 n ∧ t.errIndex = 0#32

/-- The next state `t` is that of a command that ended with the error numbered `code`, at error index `idx`, after
writing `n` elements (R203, R204, R33). -/
def EndsErr (t : State) (code : BitVec 4) (idx n : Nat) : Prop :=
  t.engine = none ∧ t.done = false ∧ t.error = true ∧ t.errCode = code ∧
    t.resultLen = BitVec.ofNat 32 n ∧ t.errIndex = BitVec.ofNat 32 idx

/-- Command `op` starts from the beginning in `s` with snapshot `sn`: it has just been accepted, or `s` is idle and `sn`
are its operand registers (R103, R104; that an idle state counts is the model's choice, log entry 9). -/
def Starts (op : Instr) (s : State) (sn : Snapshot) : Prop := s.engineFor op = Engine.fresh op sn

/-- Both regions lie inside their RAMs (R105). -/
def Fits (c : Config) (op : Instr) (sn : Snapshot) : Prop := regionsFit c (Engine.fresh op sn)

/-- Every element outside `[lo, lo + n)` reads as before. -/
def OutsideKept {w : Nat} (m m' : List (Nat × BitVec w)) (lo n : Nat) : Prop :=
  ∀ a, a < lo ∨ lo + n ≤ a → ramRead m' a = ramRead m a

/-- What no command changes: the part, the operand registers a command only reads (R25), CMD (which holds the command
that ran, R32), the host agent and the schedule. -/
def CommonKept (op : Instr) (s t : State) : Prop :=
  t.cfg = s.cfg ∧ t.srcBase = s.srcBase ∧ t.srcLen = s.srcLen ∧ t.dstBase = s.dstBase ∧ t.dstCap = s.dstCap ∧
    t.cmd = (if s.busy then s.cmd else encode op) ∧
    t.prog = s.prog ∧ t.pos = s.pos ∧ t.hostData = s.hostData ∧ t.turns = s.turns

/-! ### LZW encoding by longest prefix (R2, R141 to R143; glossary: current match) -/

/-- The length of the longest prefix of `rest`, up to `n` symbols, that is one symbol or a learned sequence. -/
def longestPrefix (learned : List (List Symbol)) (rest : List Symbol) : Nat → Nat
  | 0 => 0
  | 1 => 1
  | n + 2 => if rest.take (n + 2) ∈ learned then n + 2 else longestPrefix learned rest (n + 1)

/-- The code of a sequence that is one symbol or a learned sequence. -/
def codeOf (learned : List (List Symbol)) (m : List Symbol) : Code :=
  match m with
  | [x] => BitVec.ofNat 12 x.toNat
  | t => BitVec.ofNat 12 (256 + learned.idxOf t)

/-- The matches and their codes: take the longest known prefix, learn it with the next symbol while the table has
room, go on behind it. `fuel` bounds the number of matches. -/
def greedyFrom (maxEntries : Nat) : Nat → List (List Symbol) → List Symbol → List (List Symbol × Code)
  | 0, _, _ => []
  | _ + 1, _, [] => []
  | fuel + 1, learned, x :: xs =>
    let n := longestPrefix learned (x :: xs) (x :: xs).length
    let m := (x :: xs).take n
    let learned' := match (x :: xs).drop n with
      | [] => learned
      | y :: _ => if 256 + learned.length < maxEntries then learned ++ [m ++ [y]] else learned
    (m, codeOf learned m) :: greedyFrom maxEntries fuel learned' ((x :: xs).drop n)

/-- The matches and codes of a whole input. -/
def greedy (maxEntries : Nat) (xs : List Symbol) : List (List Symbol × Code) := greedyFrom maxEntries xs.length [] xs

/-- The codes of a whole input. -/
def greedyCodes (maxEntries : Nat) (xs : List Symbol) : List Code := (greedy maxEntries xs).map (·.2)

/-- The number of symbols the first `n` matches cover. -/
def coveredBy (maxEntries : Nat) (xs : List Symbol) (n : Nat) : Nat :=
  (((greedy maxEntries xs).take n).map (fun p => p.1.length)).sum

/-- The number of dictionary entries after `n` codes on either side (R136). -/
def entriesAfter (maxEntries n : Nat) : Nat := min maxEntries (256 + n - 1)

/-! ### LZW translation without a table (R157 to R161) -/

/-- The first symbol of the translation of code `i` of the stream: code 256 + j stands for the translation of stream
code j and one more symbol. -/
def headAt (codes : List Code) : Nat → Nat → Symbol
  | 0, _ => 0#8
  | fuel + 1, i =>
    if (codes.getD i 0#12).toNat < 256 then BitVec.ofNat 8 (codes.getD i 0#12).toNat
    else headAt codes fuel ((codes.getD i 0#12).toNat - 256)

/-- The translation of code `i` of the stream. -/
def transFrom (codes : List Code) : Nat → Nat → List Symbol
  | 0, _ => []
  | fuel + 1, i =>
    if (codes.getD i 0#12).toNat < 256 then [BitVec.ofNat 8 (codes.getD i 0#12).toNat]
    else transFrom codes fuel ((codes.getD i 0#12).toNat - 256) ++
      [headAt codes (codes.length + 1) ((codes.getD i 0#12).toNat - 256 + 1)]

/-- The translation of code `i` of the stream. -/
def trans (codes : List Code) (i : Nat) : List Symbol := transFrom codes (codes.length + 1) i

/-- The symbols of the first `n` codes. -/
def transAll (codes : List Code) (n : Nat) : List Symbol := ((List.range n).map (trans codes)).flatten

/-- Code `i` of a stream is one DECODE accepts (R157, R158 with the cadence of R136). -/
def Accepted (maxEntries : Nat) (codes : List Code) (i : Nat) : Prop :=
  (codes.getD i 0#12).toNat < min maxEntries (256 + i)

/-- The number of dictionary entries when code `i` of the stream is looked at (R136). -/
def entriesAt (maxEntries i : Nat) : Nat := if i = 0 then 256 else min maxEntries (256 + i - 1)

/-! ### The framing formats (R82 to R84) by division -/

/-- The CodePack bytes of a code list, a trailing unpaired code padded with 0 (R82, R83). -/
def packedBytes : List Code → List Byte
  | [] => []
  | [a] => [BitVec.ofNat 8 (a.toNat % 256), BitVec.ofNat 8 (a.toNat / 256), 0#8]
  | a :: b :: rest =>
    BitVec.ofNat 8 (a.toNat % 256) :: BitVec.ofNat 8 (a.toNat / 256 + 16 * (b.toNat % 16)) ::
      BitVec.ofNat 8 (b.toNat / 16) :: packedBytes rest

/-- The codes of a byte list, whole groups only (R82). -/
def unpackedCodes : List Byte → List Code
  | b0 :: b1 :: b2 :: rest =>
    BitVec.ofNat 12 (b0.toNat + 256 * (b1.toNat % 16)) :: BitVec.ofNat 12 (b1.toNat / 16 + 16 * b2.toNat) ::
      unpackedCodes rest
  | _ => []

/-- The four bytes of a header word, least significant first (R84, R55). -/
def wordBytes (w : Word) : List Byte :=
  [BitVec.ofNat 8 (w.toNat % 256), BitVec.ofNat 8 (w.toNat / 256 % 256), BitVec.ofNat 8 (w.toNat / 65536 % 256),
    BitVec.ofNat 8 (w.toNat / 16777216)]

/-- The Container of a code list (R84). -/
def containerBytes (codes : List Code) (rw : Word) : List Byte :=
  wordBytes (BitVec.ofNat 32 codes.length) ++ wordBytes rw ++ packedBytes codes

/-! ### The host's program (R86, R87) -/

/-- `n` statements of the host, one after the other. -/
def hostTurns : Nat → State → State
  | 0, s => s
  | n + 1, s => hostTurns n (hostTurn s)

/-- The statements `l` stand in the program `prog` from position `p` on. -/
def StandsAt (prog : List HostStmt) (p : Nat) (l : List HostStmt) : Prop := l <+: prog.drop p

/-- Command `op` has just been accepted with the snapshot `sn`, and the operand registers hold it too. -/
def StartedBy (t : State) (op : Instr) (sn : Snapshot) : Prop :=
  t.engine = some (Engine.fresh op sn) ∧ t.cmd = encode op ∧
    t.srcBase = sn.sb ∧ t.srcLen = sn.sl ∧ t.dstBase = sn.db ∧ t.dstCap = sn.dc ∧ t.rowWidth = sn.rw

/-- The host's next two statements read STATUS and go back to that read exactly while the block is busy. -/
def Polls (s : State) : Prop :=
  (hostTurns 2 s).hostData = s.statusWord ∧ (hostTurns 2 s).pos = (if s.busy then s.pos else s.pos + 2)

end Sys2Proof.Reference

open Sys2Proof Sys2Proof.Machine Sys2Proof.Reference

/-! ### Encoding -/

/-- R78, R79: the six assigned words decode to their commands; some reserved words do not decode. -/
def Obligations.TableWordsDecode : Prop :=
  decodeCmd 0x00000001#32 = .ok .encode ∧ decodeCmd 0x00000002#32 = .ok .decode ∧
  decodeCmd 0x00000003#32 = .ok .pack ∧ decodeCmd 0x00000004#32 = .ok .unpack ∧
  decodeCmd 0x00000005#32 = .ok .cwrite ∧ decodeCmd 0x00000006#32 = .ok .cread ∧
  decodeCmd 0x00000000#32 = .error (.reservedOpcode 0) ∧ decodeCmd 0x00000007#32 = .error (.reservedOpcode 7) ∧
  decodeCmd 0x0000000F#32 = .error (.reservedOpcode 15) ∧
  decodeCmd 0x00000011#32 = .error (.reservedBits 0x0000001#28) ∧
  decodeCmd 0x80000001#32 = .error (.reservedBits 0x8000000#28)

/-- R80: a word decodes to a command exactly when it is that command's word, which is its opcode with every other bit 0;
no bit is dropped, no word has two meanings, and every other word is BadCommand. -/
def Obligations.DecodeExactlyEncodedWords : Prop :=
  (∀ (v : Word) (i : Instr), decodeCmd v = .ok i ↔ v = encode i) ∧
  (∀ v : Word, (∃ r, decodeCmd v = .error r) ↔ ∀ i, v ≠ encode i) ∧
  encode .encode = 0x1#32 ∧ encode .decode = 0x2#32 ∧ encode .pack = 0x3#32 ∧ encode .unpack = 0x4#32 ∧
  encode .cwrite = 0x5#32 ∧ encode .cread = 0x6#32

/-- R79, R80: a word is no command exactly when RSVD ≠ 0 or OPCODE is 0x0 or in 0x7 to 0xF. -/
def Obligations.IllegalWordsRejected : Prop :=
  ∀ v : Word, (∃ r, decodeCmd v = .error r) ↔
    (v.toNat / 16 ≠ 0 ∨ v.toNat % 16 = 0 ∨ 7 ≤ v.toNat % 16)

/-- R82, R175: where each nibble of two codes goes in the three bytes of a CodePack. -/
def Obligations.PackBitLayout : Prop :=
  ∀ c1 c2 : Code, pack c1 c2 =
    [c1.extractLsb' 4 4 ++ c1.extractLsb' 0 4, c2.extractLsb' 0 4 ++ c1.extractLsb' 8 4,
     c2.extractLsb' 8 4 ++ c2.extractLsb' 4 4]

/-- R177: pack and unpack are inverse in both directions, so every 3-byte group is a CodePack. -/
def Obligations.PackUnpackInverse : Prop :=
  (∀ c1 c2 : Code, ∃ b0 b1 b2, pack c1 c2 = [b0, b1, b2] ∧ unpackFirst b0 b1 = c1 ∧ unpackSecond b1 b2 = c2) ∧
  (∀ b0 b1 b2 : Byte, pack (unpackFirst b0 b1) (unpackSecond b1 b2) = [b0, b1, b2])

/-- R178: le32_bytes writes a word least significant byte first and le32_read gives it back (the reading of log entry 15). -/
def Obligations.HeaderWordBytes : Prop :=
  ∀ (w : Word) (op : Instr) (m : List (Nat × BitVec 8)) (a : Nat),
    le32Bytes w = wordBytes w ∧
    (ramRange m a 4 = (le32Bytes w).map some → le32Read op m a = .ok w)

/-! ### The host port -/

/-- R100: a CMD write, in one step. While idle it sets CMD and clears the record of the last command; a legal word then
makes the block busy with a snapshot of the operand registers (R103, R104), any other word ends at once with
BAD_COMMAND. While busy it is ignored. (Nothing is said of the model's own draw counter, log entry 4.) -/
def Obligations.CmdWriteProcessing : Prop :=
  ∀ (s : State) (v : Word),
    (s.busy = false → ∀ op, decodeCmd v = .ok op → ∃ n,
      hostWrite 0x00000004#32 v s =
        { s with
          cmd := v, done := false, error := false, errCode := 0#4, resultLen := 0#32, errIndex := 0#32
          engine := some { op := op
                           snap := { sb := s.srcBase, sl := s.srcLen, db := s.dstBase, dc := s.dstCap, rw := s.rowWidth }
                           i := 0, o := 0, dict := none, cur := none, prev := none }
          draws := n }) ∧
    (s.busy = false → ∀ r, decodeCmd v = .error r → ∃ n,
      hostWrite 0x00000004#32 v s =
        { s with
          cmd := v, done := false, error := true, errCode := 1#4, resultLen := 0#32, errIndex := 0#32
          draws := n }) ∧
    (s.busy = true → hostWrite 0x00000004#32 v s = s)

/-- R79, R101: a CMD write while idle of a word with RSVD ≠ 0 or with OPCODE 0x0 or 0x7 to 0xF ends at once with
BAD_COMMAND, which the next read of STATUS shows, with ERR_INDEX and RESULT_LEN 0: the block stays idle, no RAM element
is written, and no register changes but CMD, STATUS and the two cleared ones. -/
def Obligations.BadCommandEndsAtOnce : Prop :=
  ∀ (s : State) (v : Word), s.busy = false → (v.toNat / 16 ≠ 0 ∨ v.toNat % 16 = 0 ∨ 7 ≤ v.toNat % 16) →
    (∃ n, hostWrite 0x00000004#32 v s =
      { s with
        cmd := v, done := false, error := true, errCode := 1#4, resultLen := 0#32, errIndex := 0#32
        draws := n }) ∧
    (hostWrite 0x00000004#32 v s).busy = false ∧
    (hostRead 0x00000008#32 (hostWrite 0x00000004#32 v s)).1.extractLsb' 0 3 = 0b100#3 ∧
    (hostRead 0x00000008#32 (hostWrite 0x00000004#32 v s)).1.extractLsb' 8 4 = 1#4

/-- R240: while busy a host write, to any address, has no effect. -/
def Obligations.BusyWritesIgnored : Prop :=
  ∀ (s : State) (a d : Word), s.busy = true → hostWrite a d s = s

/-- R25, R20 to R24: an idle write to an operand register is read back whole, and no other register or RAM element
changes. -/
def Obligations.OperandRegistersReadBack : Prop :=
  ∀ (s : State) (r r' : Reg) (v : Word), s.busy = false →
    (r = .srcBase ∨ r = .srcLen ∨ r = .dstBase ∨ r = .dstCap ∨ r = .rowWidth) → r' ≠ r →
    (hostRead (regAddr r) (hostWrite (regAddr r) v s)).1 = v ∧
    (hostRead (regAddr r') (hostWrite (regAddr r) v s)).1 = (hostRead (regAddr r') s).1 ∧
    (hostWrite (regAddr r) v s).sym = s.sym ∧ (hostWrite (regAddr r) v s).code = s.code ∧
    (hostWrite (regAddr r) v s).stream = s.stream ∧ (hostWrite (regAddr r) v s).engine = s.engine

/-- R30, R31 to R37: the register map: each offset reads its register, ID reads its constant, DICT_SIZE reads its 13
bits zero-extended; a read changes nothing (R64). -/
def Obligations.RegisterMapReads : Prop :=
  ∀ s : State,
    hostRead 0x000#32 s = (0x4C5A5701#32, s) ∧ hostRead 0x004#32 s = (s.cmd, s) ∧
    hostRead 0x008#32 s = (s.statusWord, s) ∧ hostRead 0x00C#32 s = (s.srcBase, s) ∧
    hostRead 0x010#32 s = (s.srcLen, s) ∧ hostRead 0x014#32 s = (s.dstBase, s) ∧
    hostRead 0x018#32 s = (s.dstCap, s) ∧ hostRead 0x01C#32 s = (s.rowWidth, s) ∧
    hostRead 0x020#32 s = (s.resultLen, s) ∧
    hostRead 0x024#32 s = (BitVec.ofNat 32 s.dictSize.toNat, s) ∧
    hostRead 0x028#32 s = (s.hdrCount, s) ∧ hostRead 0x02C#32 s = (s.errIndex, s)

/-- R33: every field of STATUS stands where its table puts it, SATURATED is the view of DICT_SIZE, and the reserved bits
are 0. -/
def Obligations.StatusFields : Prop :=
  ∀ s : State,
    (s.statusWord.getLsbD 0 = true ↔ s.engine ≠ none) ∧ s.statusWord.getLsbD 1 = s.done ∧
    s.statusWord.getLsbD 2 = s.error ∧ (s.statusWord.getLsbD 3 = true ↔ s.dictSize.toNat = s.cfg.maxEntries) ∧
    s.statusWord.extractLsb' 8 4 = s.errCode ∧ s.statusWord.extractLsb' 4 4 = 0#4 ∧
    s.statusWord.extractLsb' 12 20 = 0#20

/-- R38, R60: reserved space and window offsets at or beyond the depth read as 0 and ignore writes, and writes to the
read-only registers ID, STATUS, RESULT_LEN, DICT_SIZE, HDR_COUNT and ERR_INDEX have no effect. -/
def Obligations.ReservedSpaceIsInert : Prop :=
  ∀ (s : State) (a d : Word),
    ((0x030 ≤ a.toNat ∧ a.toNat < 0x01000000) ∨ 0x04000000 ≤ a.toNat ∨
      (0x01000000 ≤ a.toNat ∧ a.toNat < 0x02000000 ∧ s.cfg.symDepth ≤ (a.toNat - 0x01000000) / 4) ∨
      (0x02000000 ≤ a.toNat ∧ a.toNat < 0x03000000 ∧ s.cfg.codeDepth ≤ (a.toNat - 0x02000000) / 4) ∨
      (0x03000000 ≤ a.toNat ∧ a.toNat < 0x04000000 ∧ s.cfg.streamDepth ≤ (a.toNat - 0x03000000) / 4) →
      hostRead a s = (0#32, s) ∧ hostWrite a d s = s) ∧
    (a ∈ [0x000#32, 0x008#32, 0x020#32, 0x024#32, 0x028#32, 0x02C#32] → hostWrite a d s = s)

/-- R61: address bits 1:0 are ignored by reads and writes. -/
def Obligations.AddressLowBitsIgnored : Prop :=
  ∀ (s : State) (a b d : Word), a.toNat / 4 = b.toNat / 4 →
    hostRead a s = hostRead b s ∧ hostWrite a d s = hostWrite b d s

/-- R59, R53: an idle write to an element in range of a RAM window stores the low 8 or 12 bits and an idle read gives
them zero-extended. Every other element of that RAM keeps what it held, and so does the whole rest of the state: the other
RAMs, every register, the engine, the part, the host agent and the schedule. (Nothing is said of the model's own draw
counter, log entry 4.) -/
def Obligations.WindowWriteThenRead : Prop :=
  ∀ (s : State) (i : Nat) (d : Word), s.busy = false → i < 4194304 →
    (i < s.cfg.symDepth → ∃ m n,
      hostWrite (BitVec.ofNat 32 (0x01000000 + 4 * i)) d s = { s with sym := m, draws := n } ∧
      ramRead m i = some (BitVec.ofNat 8 d.toNat) ∧ (∀ j, j ≠ i → ramRead m j = ramRead s.sym j) ∧
      (hostRead (BitVec.ofNat 32 (0x01000000 + 4 * i)) (hostWrite (BitVec.ofNat 32 (0x01000000 + 4 * i)) d s)).1 =
        BitVec.ofNat 32 (d.toNat % 256)) ∧
    (i < s.cfg.codeDepth → ∃ m n,
      hostWrite (BitVec.ofNat 32 (0x02000000 + 4 * i)) d s = { s with code := m, draws := n } ∧
      ramRead m i = some (BitVec.ofNat 12 d.toNat) ∧ (∀ j, j ≠ i → ramRead m j = ramRead s.code j) ∧
      (hostRead (BitVec.ofNat 32 (0x02000000 + 4 * i)) (hostWrite (BitVec.ofNat 32 (0x02000000 + 4 * i)) d s)).1 =
        BitVec.ofNat 32 (d.toNat % 4096)) ∧
    (i < s.cfg.streamDepth → ∃ m n,
      hostWrite (BitVec.ofNat 32 (0x03000000 + 4 * i)) d s = { s with stream := m, draws := n } ∧
      ramRead m i = some (BitVec.ofNat 8 d.toNat) ∧ (∀ j, j ≠ i → ramRead m j = ramRead s.stream j) ∧
      (hostRead (BitVec.ofNat 32 (0x03000000 + 4 * i)) (hostWrite (BitVec.ofNat 32 (0x03000000 + 4 * i)) d s)).1 =
        BitVec.ofNat 32 (d.toNat % 256))

/-- R64, R59: while idle no read changes the state, so every read is idempotent; while busy a read changes at most the
model's draw counter, and a RAM read gives a value whose bits above the element width are 0. -/
def Obligations.ReadsHaveNoSideEffect : Prop :=
  ∀ (s : State) (a : Word),
    (s.busy = false → (hostRead a s).2 = s) ∧
    (∃ n, (hostRead a s).2 = { s with draws := n }) ∧
    (0x01000000 ≤ a.toNat → a.toNat < 0x04000000 → (hostRead a s).1.toNat < 4096 ∧
      (a.toNat < 0x02000000 ∨ 0x03000000 ≤ a.toNat → (hostRead a s).1.toNat < 256))

/-! ### Reset, the step and the schedule -/

/-- R48: the registers and RAMs right after reset, as the host reads them: ID its constant, every other register 0, no
RAM element written, no command running. -/
def Obligations.ResetRegistersRead : Prop :=
  (hostRead 0x000#32 State.reset).1 = 0x4C5A5701#32 ∧
  (∀ r : Reg, r ≠ .id → (hostRead (regAddr r) State.reset).1 = 0#32) ∧
  (∀ (m : RamId) (a : Nat), State.reset.element m a = none) ∧ State.reset.engine = none

/-- R225, R48: the reset step, at any time, abandons a running command, puts every register at its reset value and makes
every RAM element unwritten. The part's parameters, the host agent and the schedule stay (the model's choice, log
entry 16). -/
def Obligations.ResetStepClearsBlock : Prop :=
  ∀ (s : State) (ts : List Turn), s.turns = .reset :: ts →
    step s = .next
      { cfg := s.cfg
        cmd := 0#32, done := false, error := false, errCode := 0#4
        srcBase := 0#32, srcLen := 0#32, dstBase := 0#32, dstCap := 0#32, rowWidth := 0#32
        resultLen := 0#32, dictSize := 0#13, hdrCount := 0#32, errIndex := 0#32
        sym := [], code := [], stream := []
        engine := none
        prog := s.prog, pos := s.pos, hostData := s.hostData, turns := ts, draws := s.draws + 1 }

/-- R229: what each command does straight after reset with no operand written, as STATUS, RESULT_LEN and DICT_SIZE. -/
def Obligations.CommandsRightAfterReset : Prop :=
  ∀ p ∈ [(1, 0x204#32), (2, 0x204#32), (3, 0x2#32), (4, 0x2#32), (5, 0x704#32), (6, 0x304#32)],
    ∃ t, step (State.reset.withFetchWord 32 p.1) = .next t ∧ t.statusWord = p.2 ∧ t.resultLen = 0#32 ∧
      t.dictSize = 0#13 ∧ t.hdrCount = 0#32 ∧ t.rowWidth = 0#32

/-- The invariant holds after reset of every part the spec allows (R48). -/
def Obligations.InvariantAfterReset : Prop :=
  Inv State.reset ∧ ∀ c : Config, c.wellFormed = true → Inv (State.resetWith c)

/-- The invariant is kept by every step, whoever moves (R33, R35, R126, R128, R129, R133, R134, R239). -/
def Obligations.StepKeepsInvariant : Prop :=
  ∀ s t : State, Inv s → step s = .next t → Inv t

/-- R109: a step in which the engine moves, because the schedule names it or names nobody while a command runs, is exec
of the accepted command at that state less the turn it used; a command word that decodes and is placed for the next
step is run by that step. The schedule is the model's (log entries 6, 8). -/
def Obligations.StepRunsAcceptedCommand : Prop :=
  (∀ (s : State) (e : Engine) (ts : List Turn), s.engine = some e → s.turns = .engine :: ts →
    step s = exec e.op { s with turns := ts }) ∧
  (∀ (s : State) (e : Engine), s.engine = some e → s.turns = [] → step s = exec e.op s) ∧
  (∀ (s : State) (w : Nat) (i : Instr), decodeTableWord 32 w = some i →
    (s.withFetchWord 32 w).engine = some (Engine.fresh i s.operands) ∧ (s.withFetchWord 32 w).cmd = BitVec.ofNat 32 w ∧
    step (s.withFetchWord 32 w) = exec i { s.withFetchWord 32 w with turns := s.turns })

/-- R15, R220: the other moves of a step: the host's statement, nothing where the engine is named and idle, and the
host where nobody is named and no command runs. The schedule is the model's (log entries 6, 10). -/
def Obligations.StepOfOtherAgents : Prop :=
  (∀ (s : State) (ts : List Turn), s.turns = .host :: ts → step s = .next (hostTurn { s with turns := ts })) ∧
  (∀ (s : State) (ts : List Turn), s.turns = .advance :: ts → step s = .next (advanceEngine { s with turns := ts })) ∧
  (∀ (s : State) (ts : List Turn), s.turns = .engine :: ts → s.engine = none → step s = .next { s with turns := ts }) ∧
  (∀ s : State, s.turns = [] → s.engine = none → step s = .next (hostTurn s))

/-- R54, R210, R123: from a state of the invariant a step stops only because the running command reads an unwritten
element of its source region; no table lookup misses, and no instruction is refused in any state. -/
def Obligations.StopsOnlyOnUnwrittenSource : Prop :=
  (∀ (s : State) (f : Fault), Inv s → step s = .fault f → ∃ e, s.engine = some e ∧ StopsOnlyUnwritten s e f) ∧
  (∀ (s : State) (r : Refusal), step s ≠ .refused r)

/-- R236, R247: a running command whose source region is all written ends at its Complete step, idle, with exactly one of
DONE and ERROR; when the schedule names nobody that step is the next one (the model's choice, log entry 6). -/
def Obligations.RunningCommandEnds : Prop :=
  ∀ (s : State) (e : Engine), Inv s → s.engine = some e →
    (∀ a, e.sb ≤ a → a < e.sb + e.sl → s.element (sourceRam e.op) a ≠ none) →
    ∃ t, exec e.op s = .next t ∧ t.engine = none ∧ (t.done = true ↔ t.error = false) ∧
      (s.turns = [] → step s = .next t)

/-- R109: letting the engine work on one piece first changes nothing in what Complete then does. The pieces are the
model's choice (log entry 10). -/
def Obligations.WorkingOnIsUnobservableInResult : Prop :=
  ∀ (s : State) (e : Engine), s.engine = some e → exec e.op (advanceEngine s) = exec e.op s

/-- R238, R239, R240: while a command runs, a piece of its work changes no value a host read gives, leaves the block busy,
and after it a host write of any datum to any address still has no effect. The pieces are the model's choice (log entry
10). That a RAM read gives the same value before and after a piece is the model's choice too: R59 allows any value there,
and the model's free value is keyed by a draw counter that a piece does not move (log entry 4). The spec marks R238 and
R239 derived. -/
def Obligations.ProgressIsInvisible : Prop :=
  ∀ (s : State) (a d : Word), s.busy = true →
    (hostRead a (advanceEngine s)).1 = (hostRead a s).1 ∧ (advanceEngine s).busy = true ∧
    hostWrite a d (advanceEngine s) = advanceEngine s

/-- R240, R70: a host statement made while a command runs changes only the host's own position and datum (and the draw
counter), so the command then ends as it would have without it. -/
def Obligations.HostCannotDisturbCommand : Prop :=
  ∀ (s : State) (e : Engine), s.engine = some e →
    ∃ p d n, hostTurn s = { s with pos := p, hostData := d, draws := n } ∧
      ∀ t, exec e.op s = .next t →
        ∃ n', exec e.op (hostTurn s) = .next { t with pos := p, hostData := d, draws := n' }

/-- R110: the outcome of a running command depends only on the opcode, the snapshot and the contents of the source region (and on
the part): two states that agree on these give the same stop, or the same flags, RESULT_LEN, ERR_INDEX, written
elements and command-specific registers. -/
def Obligations.OutcomeDependsOnlyOnOperandsAndSource : Prop :=
  ∀ (s u : State) (op : Instr) (sn : Snapshot), Inv s → Inv u → s.cfg = u.cfg →
    s.engine = some (Engine.fresh op sn) → u.engine = some (Engine.fresh op sn) →
    (∀ a, sn.sb.toNat ≤ a → a < sn.sb.toNat + sn.sl.toNat →
      s.element (sourceRam op) a = u.element (sourceRam op) a) →
    (∀ f, exec op s = .fault f ↔ exec op u = .fault f) ∧
    (∀ t v, exec op s = .next t → exec op u = .next v →
      t.done = v.done ∧ t.error = v.error ∧ t.errCode = v.errCode ∧ t.resultLen = v.resultLen ∧
      t.errIndex = v.errIndex ∧
      (usesDictionary op = true → t.dictSize = v.dictSize) ∧
      (op = .cread → Fits s.cfg op sn → 8 ≤ sn.sl.toNat → t.hdrCount = v.hdrCount ∧ t.rowWidth = v.rowWidth) ∧
      (∀ j, j < t.resultLen.toNat →
        t.element (destRam op) (sn.db.toNat + j) = v.element (destRam op) (sn.db.toNat + j)))

/-! ### Errors every command shares -/

/-- R200: the numbers of the error codes, and R101's BAD_COMMAND as STATUS reads it after reset. -/
def Obligations.ErrorCodeNumbers : Prop :=
  ErrCode.badCommand.code = 1#4 ∧ ErrCode.emptyInput.code = 2#4 ∧ ErrCode.truncatedFrame.code = 3#4 ∧
  ErrCode.codeCountMismatch.code = 4#4 ∧ ErrCode.invalidCode.code = 5#4 ∧ ErrCode.range.code = 6#4 ∧
  ErrCode.dstOverflow.code = 7#4 ∧
  (hostRead 0x008#32 (hostWrite 0x004#32 0x00000007#32 State.reset)).1 = 0x104#32

/-- R105: a region beyond its RAM ends every running command with RANGE before any other check, with nothing written;
ENCODE and DECODE leave DICT_SIZE 0, the others leave it, and CREAD leaves HDR_COUNT and ROW_WIDTH. -/
def Obligations.RangeEndsEveryCommand : Prop :=
  ∀ (s : State) (op : Instr) (sn : Snapshot), Inv s → s.engine = some (Engine.fresh op sn) → ¬ Fits s.cfg op sn →
    ∃ t, exec op s = .next t ∧ EndsErr t 6#4 0 0 ∧
      t.dictSize = (if op = .encode ∨ op = .decode then 0#13 else s.dictSize) ∧
      t.hdrCount = s.hdrCount ∧ t.rowWidth = s.rowWidth ∧ t.sym = s.sym ∧ t.code = s.code ∧ t.stream = s.stream

/-- R145, R163: ENCODE and DECODE of nothing, regions in range, end with EMPTY_INPUT before seeding. -/
def Obligations.EmptyInputEndsCodecCommands : Prop :=
  ∀ (s : State) (op : Instr) (sn : Snapshot), Inv s → op = .encode ∨ op = .decode → Starts op s sn → Fits s.cfg op sn →
    sn.sl = 0#32 →
    ∃ t, exec op s = .next t ∧ EndsErr t 2#4 0 0 ∧ t.dictSize = 0#13 ∧
      t.sym = s.sym ∧ t.code = s.code ∧ t.stream = s.stream

/-- R203, R208, R209, R247: however a command ends, the block is idle, exactly one of DONE and ERROR is set, and the
next CMD write of a legal word starts that command. -/
def Obligations.EveryEndLeavesBlockReady : Prop :=
  ∀ (s t : State) (op next : Instr), Inv s → exec op s = .next t →
    t.engine = none ∧ (t.done = true ↔ t.error = false) ∧ (t.errCode = 0#4 ↔ t.error = false) ∧
    (hostWrite 0x004#32 (encode next) t).engine = some (Engine.fresh next t.operands)

/-! ### ENCODE -/

/-- R141 to R144, R136: ENCODE writes exactly the codes of the longest-prefix algorithm, in order from DST_BASE, and
leaves RESULT_LEN their number and DICT_SIZE min(MAX_ENTRIES, 255 + their number). -/
def Obligations.EncodeWritesGreedyCodes : Prop :=
  ∀ (s : State) (sn : Snapshot) (xs : List Symbol), Inv s → Starts .encode s sn → Fits s.cfg .encode sn →
    xs ≠ [] → xs.length = sn.sl.toNat → ramRange s.sym sn.sb.toNat xs.length = xs.map some →
    (greedyCodes s.cfg.maxEntries xs).length ≤ sn.dc.toNat →
    ∃ t, exec .encode s = .next t ∧ EndsOk t (greedyCodes s.cfg.maxEntries xs).length ∧
      ramRange t.code sn.db.toNat (greedyCodes s.cfg.maxEntries xs).length =
        (greedyCodes s.cfg.maxEntries xs).map some ∧
      t.dictSize.toNat = entriesAfter s.cfg.maxEntries (greedyCodes s.cfg.maxEntries xs).length

/-- R145: where the codes do not fit, ENCODE ends with DST_OVERFLOW at the source index of the emission that does not
fit, with the first DST_CAP codes written. -/
def Obligations.EncodeOverflowsAtEmission : Prop :=
  ∀ (s : State) (sn : Snapshot) (xs : List Symbol), Inv s → Starts .encode s sn → Fits s.cfg .encode sn →
    xs ≠ [] → xs.length = sn.sl.toNat → ramRange s.sym sn.sb.toNat xs.length = xs.map some →
    sn.dc.toNat < (greedyCodes s.cfg.maxEntries xs).length →
    ∃ t, exec .encode s = .next t ∧
      EndsErr t 7#4 (coveredBy s.cfg.maxEntries xs (sn.dc.toNat + 1)) sn.dc.toNat ∧
      ramRange t.code sn.db.toNat sn.dc.toNat = ((greedyCodes s.cfg.maxEntries xs).take sn.dc.toNat).map some ∧
      t.dictSize.toNat = min s.cfg.maxEntries (256 + sn.dc.toNat)

/-- R146: with a capacity of at least the symbol count ENCODE succeeds, emits at least one and at most `sl` codes, and
every code is below DICT_SIZE, which is at most MAX_ENTRIES. -/
def Obligations.EncodeOutputBounds : Prop :=
  ∀ (s : State) (sn : Snapshot) (xs : List Symbol), Inv s → Starts .encode s sn → Fits s.cfg .encode sn →
    xs ≠ [] → xs.length = sn.sl.toNat → ramRange s.sym sn.sb.toNat xs.length = xs.map some →
    sn.sl.toNat ≤ sn.dc.toNat →
    ∃ t, exec .encode s = .next t ∧ t.done = true ∧ 1 ≤ t.resultLen.toNat ∧ t.resultLen.toNat ≤ sn.sl.toNat ∧
      t.dictSize.toNat ≤ s.cfg.maxEntries ∧
      ∀ j, j < t.resultLen.toNat → ∃ k, ramRead t.code (sn.db.toNat + j) = some k ∧ k.toNat < t.dictSize.toNat

/-- R146, third point, R133: the sequences the emitted codes stand for in ENCODE's final table, concatenated, are the
input: no symbol is dropped. -/
def Obligations.EncodeCoversInput : Prop :=
  ∀ (s : State) (sn : Snapshot) (xs : List Symbol) (x : Work 12), Inv s →
    xs.length = sn.sl.toNat → ramRange s.sym sn.sb.toNat xs.length = xs.map some →
    encodeBody s (Engine.fresh .encode sn) = .ok x →
    ∃ d, x.eng.dict = some d ∧
      (x.out.map (fun k => (lookupCode d k.toNat).getD [])).flatten = xs ∧
      ∀ k ∈ x.out, k.toNat < dictCount d

/-- R147, third point: an input in which no adjacent pair of symbols occurs twice is encoded as one code per symbol, each
the symbol's value. -/
def Obligations.NoRepeatedPairEncodesLiterally : Prop :=
  ∀ (s : State) (sn : Snapshot) (xs : List Symbol), Inv s → Starts .encode s sn → Fits s.cfg .encode sn →
    xs ≠ [] → xs.length = sn.sl.toNat → ramRange s.sym sn.sb.toNat xs.length = xs.map some →
    sn.sl.toNat ≤ sn.dc.toNat → (xs.zip xs.tail).Nodup →
    ∃ t, exec .encode s = .next t ∧ EndsOk t xs.length ∧
      ramRange t.code sn.db.toNat xs.length = xs.map (fun x => some (BitVec.ofNat 12 x.toNat))

/-- R25, R51, R102, R144, R205: what an ENCODE leaves unchanged, however it ends: every operand register, ROW_WIDTH,
HDR_COUNT, SYM, STREAM, and CODE outside the RESULT_LEN elements from DST_BASE. -/
def Obligations.EncodeFrame : Prop :=
  ∀ s t : State, exec .encode s = .next t →
    CommonKept .encode s t ∧ t.rowWidth = s.rowWidth ∧ t.hdrCount = s.hdrCount ∧ t.sym = s.sym ∧ t.stream = s.stream ∧
    OutsideKept s.code t.code (s.engineFor .encode).db t.resultLen.toNat

/-! ### DECODE -/

/-- R156 to R162, R136: DECODE of acceptable codes writes the translations in order from DST_BASE and leaves RESULT_LEN
their total length and DICT_SIZE min(MAX_ENTRIES, 255 + the code count). -/
def Obligations.DecodeWritesTranslations : Prop :=
  ∀ (s : State) (sn : Snapshot) (cs : List Code), Inv s → Starts .decode s sn → Fits s.cfg .decode sn →
    cs ≠ [] → cs.length = sn.sl.toNat → ramRange s.code sn.sb.toNat cs.length = cs.map some →
    (∀ i, i < cs.length → Accepted s.cfg.maxEntries cs i) → (transAll cs cs.length).length ≤ sn.dc.toNat →
    ∃ t, exec .decode s = .next t ∧ EndsOk t (transAll cs cs.length).length ∧
      ramRange t.sym sn.db.toNat (transAll cs cs.length).length = (transAll cs cs.length).map some ∧
      t.dictSize.toNat = entriesAfter s.cfg.maxEntries cs.length

/-- R157, R158, R163: the first code DECODE does not accept ends it with INVALID_CODE at that code's index, with the
translations before it written. -/
def Obligations.DecodeStopsAtInvalidCode : Prop :=
  ∀ (s : State) (sn : Snapshot) (cs : List Code) (i : Nat), Inv s → Starts .decode s sn → Fits s.cfg .decode sn →
    cs.length = i + 1 → i < sn.sl.toNat → ramRange s.code sn.sb.toNat cs.length = cs.map some →
    (∀ j, j < i → Accepted s.cfg.maxEntries cs j) → ¬ Accepted s.cfg.maxEntries cs i →
    (transAll cs i).length ≤ sn.dc.toNat →
    ∃ t, exec .decode s = .next t ∧ EndsErr t 5#4 i (transAll cs i).length ∧
      ramRange t.sym sn.db.toNat (transAll cs i).length = (transAll cs i).map some ∧
      t.dictSize.toNat = entriesAt s.cfg.maxEntries i

/-- R107, R161, R163: a translation that does not fit ends DECODE with DST_OVERFLOW at its code's index, with nothing of
that translation written and without that code's insert. -/
def Obligations.DecodeOverflowsWholeTranslation : Prop :=
  ∀ (s : State) (sn : Snapshot) (cs : List Code) (i : Nat), Inv s → Starts .decode s sn → Fits s.cfg .decode sn →
    cs.length = i + 1 → i < sn.sl.toNat → ramRange s.code sn.sb.toNat cs.length = cs.map some →
    (∀ j, j ≤ i → Accepted s.cfg.maxEntries cs j) →
    (transAll cs i).length ≤ sn.dc.toNat → sn.dc.toNat < (transAll cs (i + 1)).length →
    ∃ t, exec .decode s = .next t ∧ EndsErr t 7#4 i (transAll cs i).length ∧
      ramRange t.sym sn.db.toNat (transAll cs i).length = (transAll cs i).map some ∧
      t.dictSize.toNat = entriesAt s.cfg.maxEntries i

/-- R25, R51, R102, R162, R205: what a DECODE leaves unchanged, however it ends: every operand register, ROW_WIDTH,
HDR_COUNT, CODE, STREAM, and SYM outside the RESULT_LEN elements from DST_BASE. -/
def Obligations.DecodeFrame : Prop :=
  ∀ s t : State, exec .decode s = .next t →
    CommonKept .decode s t ∧ t.rowWidth = s.rowWidth ∧ t.hdrCount = s.hdrCount ∧ t.code = s.code ∧ t.stream = s.stream ∧
    OutsideKept s.sym t.sym (s.engineFor .decode).db t.resultLen.toNat

/-- R166: DECODE of what ENCODE wrote, with the code count ENCODE reported and room for the symbols, writes the input
back; both leave the same DICT_SIZE (R136). -/
def Obligations.LzwRoundTrip : Prop :=
  ∀ (s t : State) (sn : Snapshot) (xs : List Symbol) (db2 dc2 : Word), Inv s → Starts .encode s sn →
    xs.length = sn.sl.toNat → ramRange s.sym sn.sb.toNat xs.length = xs.map some →
    exec .encode s = .next t → t.done = true →
    db2.toNat + dc2.toNat ≤ s.cfg.symDepth → xs.length ≤ dc2.toNat →
    ∃ v, exec .decode { t with srcBase := sn.db, srcLen := t.resultLen, dstBase := db2, dstCap := dc2 } = .next v ∧
      EndsOk v xs.length ∧ ramRange v.sym db2.toNat xs.length = xs.map some ∧ v.dictSize = t.dictSize

/-- R135 at its last code: the table DECODE has built from ENCODE's codes is the table ENCODE had built. -/
def Obligations.MirroredTables : Prop :=
  ∀ (s u : State) (sn sn' : Snapshot) (x : Work 12) (y : Work 8), Inv s → Inv u → s.cfg.maxEntries = u.cfg.maxEntries →
    encodeBody s (Engine.fresh .encode sn) = .ok x →
    x.out.length = sn'.sl.toNat → ramRange u.code sn'.sb.toNat x.out.length = x.out.map some →
    decodeBody u (Engine.fresh .decode sn') = .ok y →
    x.eng.dict = y.eng.dict

/-! ### The dictionary -/

/-- R122, R123, R124, R125, R127: the operations of the table, by what they return: seeds, lookups both ways, and an
insert that appends under the next code or, at MAX_ENTRIES, does nothing. -/
def Obligations.DictionaryOperations : Prop :=
  dictCount dictInit = 256 ∧ (∀ k, k < 256 → lookupCode dictInit k = some [BitVec.ofNat 8 k]) ∧
  (∀ (d : Dict) (k : Nat), lookupCode d k ≠ none ↔ k < dictCount d) ∧
  (∀ (d : Dict) (x : Symbol), lookupSeq d [x] = some x.toNat) ∧
  (∀ (d : Dict) (q : List Symbol) (k : Nat), lookupSeq d q = some k → lookupCode d k = some q) ∧
  (∀ (d : Dict) (q : List Symbol), lookupSeq d q = none → ∀ k, lookupCode d k ≠ some q) ∧
  (∀ (n : Nat) (d : Dict) (q : List Symbol), dictCount d < n →
    dictCount (dictInsert n d q) = dictCount d + 1 ∧ lookupCode (dictInsert n d q) (dictCount d) = some q ∧
    ∀ k, k < dictCount d → lookupCode (dictInsert n d q) k = lookupCode d k) ∧
  (∀ (n : Nat) (d : Dict) (q : List Symbol), n ≤ dictCount d → dictInsert n d q = d)

/-- R128, R130: while ENCODE runs no two codes hold the same sequence; in every running command's table entry `k ≥ 256`
has at least two and at most `k - 254` symbols. -/
def Obligations.TableEntriesDistinctAndBounded : Prop :=
  ∀ (s : State) (e : Engine) (d : Dict), Inv s → s.engine = some e → e.dict = some d →
    (e.op = .encode → ∀ k l q, lookupCode d k = some q → lookupCode d l = some q → k = l) ∧
    (∀ k q, 256 ≤ k → lookupCode d k = some q → 2 ≤ q.length ∧ q.length ≤ k - 256 + 2)

/-- R126: while a command works on, its table only grows at the end: no entry is changed or removed. The pieces are the
model's choice (log entry 10). -/
def Obligations.TableOnlyAppends : Prop :=
  ∀ (s : State) (e : Engine) (d : Dict), s.engine = some e → e.dict = some d →
    ∃ e' d', (advanceEngine s).engine = some e' ∧ e'.dict = some d' ∧ d.learned <+: d'.learned ∧
      e'.op = e.op ∧ e'.snap = e.snap

/-! ### The framing commands -/

/-- R180: PACK, running. Regions beyond their RAMs are RANGE and an output above the capacity is DST_OVERFLOW, both with
nothing written. Else it writes the CodePacks of its codes, a trailing code padded with 0 (R83), and DONE and RESULT_LEN,
three times the number of packs, and no other register; no code at all succeeds with RESULT_LEN 0. -/
def Obligations.PackWritesCodePacks : Prop :=
  ∀ (s : State) (sn : Snapshot), Inv s → s.engine = some (Engine.fresh .pack sn) →
    (¬ Fits s.cfg .pack sn → ∃ t, exec .pack s = .next t ∧ EndsErr t 6#4 0 0 ∧ t.stream = s.stream) ∧
    (Fits s.cfg .pack sn → sn.dc.toNat < 3 * ((sn.sl.toNat + 1) / 2) →
      ∃ t, exec .pack s = .next t ∧ EndsErr t 7#4 0 0 ∧ t.stream = s.stream) ∧
    (Fits s.cfg .pack sn → 3 * ((sn.sl.toNat + 1) / 2) ≤ sn.dc.toNat →
      ∀ cs : List Code, cs.length = sn.sl.toNat → ramRange s.code sn.sb.toNat cs.length = cs.map some →
      ∃ m n, exec .pack s = .next
          { s with
            engine := none, done := true, error := false, errCode := 0#4, errIndex := 0#32
            resultLen := BitVec.ofNat 32 (3 * ((sn.sl.toNat + 1) / 2)), stream := m, draws := n } ∧
        ramRange m sn.db.toNat (3 * ((sn.sl.toNat + 1) / 2)) = (packedBytes cs).map some ∧
        OutsideKept s.stream m sn.db.toNat (3 * ((sn.sl.toNat + 1) / 2)))

/-- R184: UNPACK, running. Regions beyond their RAMs are RANGE, a partial group is TRUNCATED_FRAME at its first byte, and
an output above the capacity is DST_OVERFLOW, all with nothing written and in this order. Else it writes two codes a
group, a padding code like any other, and DONE and RESULT_LEN, twice the number of groups, and no other register. -/
def Obligations.UnpackWritesCodes : Prop :=
  ∀ (s : State) (sn : Snapshot), Inv s → s.engine = some (Engine.fresh .unpack sn) →
    (¬ Fits s.cfg .unpack sn → ∃ t, exec .unpack s = .next t ∧ EndsErr t 6#4 0 0 ∧ t.code = s.code) ∧
    (Fits s.cfg .unpack sn → sn.sl.toNat % 3 ≠ 0 →
      ∃ t, exec .unpack s = .next t ∧ EndsErr t 3#4 (sn.sl.toNat - sn.sl.toNat % 3) 0 ∧ t.code = s.code) ∧
    (Fits s.cfg .unpack sn → sn.sl.toNat % 3 = 0 → sn.dc.toNat < 2 * (sn.sl.toNat / 3) →
      ∃ t, exec .unpack s = .next t ∧ EndsErr t 7#4 0 0 ∧ t.code = s.code) ∧
    (Fits s.cfg .unpack sn → sn.sl.toNat % 3 = 0 → 2 * (sn.sl.toNat / 3) ≤ sn.dc.toNat →
      ∀ bs : List Byte, bs.length = sn.sl.toNat → ramRange s.stream sn.sb.toNat bs.length = bs.map some →
      ∃ m n, exec .unpack s = .next
          { s with
            engine := none, done := true, error := false, errCode := 0#4, errIndex := 0#32
            resultLen := BitVec.ofNat 32 (2 * (sn.sl.toNat / 3)), code := m, draws := n } ∧
        ramRange m sn.db.toNat (2 * (sn.sl.toNat / 3)) = (unpackedCodes bs).map some ∧
        OutsideKept s.code m sn.db.toNat (2 * (sn.sl.toNat / 3)))

/-- R188: CWRITE, running. Regions beyond their RAMs are RANGE and a Container above the capacity is DST_OVERFLOW, both
with nothing written. Else it writes the Container (R84) of its codes with the row width of the snapshot, and DONE and
RESULT_LEN, the Container's length, and no other register. The byte order of the header words is the reading of log
entry 15. -/
def Obligations.CwriteWritesContainer : Prop :=
  ∀ (s : State) (sn : Snapshot), Inv s → s.engine = some (Engine.fresh .cwrite sn) →
    (¬ Fits s.cfg .cwrite sn → ∃ t, exec .cwrite s = .next t ∧ EndsErr t 6#4 0 0 ∧ t.stream = s.stream) ∧
    (Fits s.cfg .cwrite sn → sn.dc.toNat < 8 + 3 * ((sn.sl.toNat + 1) / 2) →
      ∃ t, exec .cwrite s = .next t ∧ EndsErr t 7#4 0 0 ∧ t.stream = s.stream) ∧
    (Fits s.cfg .cwrite sn → 8 + 3 * ((sn.sl.toNat + 1) / 2) ≤ sn.dc.toNat →
      ∀ cs : List Code, cs.length = sn.sl.toNat → ramRange s.code sn.sb.toNat cs.length = cs.map some →
      ∃ m n, exec .cwrite s = .next
          { s with
            engine := none, done := true, error := false, errCode := 0#4, errIndex := 0#32
            resultLen := BitVec.ofNat 32 (8 + 3 * ((sn.sl.toNat + 1) / 2)), stream := m, draws := n } ∧
        ramRange m sn.db.toNat (8 + 3 * ((sn.sl.toNat + 1) / 2)) = (containerBytes cs sn.rw).map some ∧
        OutsideKept s.stream m sn.db.toNat (8 + 3 * ((sn.sl.toNat + 1) / 2)))

/-- R193: CREAD, running, checks nothing but that its regions fit, that the header is there, that the declared count fits
the whole groups and that the declared codes fit the capacity: it writes the declared codes and no padding code, sets
HDR_COUNT and ROW_WIDTH to the header words, whatever the row width, the padding field, further groups and the tail
hold (they need not even be written), and no other register. The byte order of the header words is the reading of log
entry 15. -/
def Obligations.CreadWritesDeclaredCodes : Prop :=
  ∀ (s : State) (sn : Snapshot) (cw rwd : Word) (bs : List Byte), Inv s →
    s.engine = some (Engine.fresh .cread sn) → Fits s.cfg .cread sn →
    8 ≤ sn.sl.toNat → cw.toNat < 2 ^ 31 → cw.toNat ≤ 2 * ((sn.sl.toNat - 8) / 3) → cw.toNat ≤ sn.dc.toNat →
    bs.length = 3 * ((cw.toNat + 1) / 2) →
    ramRange s.stream sn.sb.toNat (8 + bs.length) = (wordBytes cw ++ wordBytes rwd ++ bs).map some →
    ∃ m n, exec .cread s = .next
        { s with
          engine := none, done := true, error := false, errCode := 0#4, errIndex := 0#32
          resultLen := cw, hdrCount := cw, rowWidth := rwd, code := m, draws := n } ∧
      ramRange m sn.db.toNat cw.toNat = ((unpackedCodes bs).take cw.toNat).map some ∧
      OutsideKept s.code m sn.db.toNat cw.toNat

/-- R194: a running CREAD's errors in the order they are checked. A region beyond its RAM is RANGE, a header cut short
TRUNCATED_FRAME, and both leave HDR_COUNT and ROW_WIDTH; a count that is negative or above twice the whole groups is
CODE_COUNT_MISMATCH (90_conflicts.md C2), a count above the capacity DST_OVERFLOW, and both write the header words to
HDR_COUNT and ROW_WIDTH. ERR_INDEX and RESULT_LEN are 0 and no code is written. The byte order and sign of the header
words are the readings of log entry 15. -/
def Obligations.CreadErrors : Prop :=
  ∀ (s : State) (sn : Snapshot) (cw rwd : Word), Inv s → s.engine = some (Engine.fresh .cread sn) →
    (¬ Fits s.cfg .cread sn →
      ∃ t, exec .cread s = .next t ∧ EndsErr t 6#4 0 0 ∧ t.hdrCount = s.hdrCount ∧ t.rowWidth = s.rowWidth ∧
        t.code = s.code) ∧
    (Fits s.cfg .cread sn → sn.sl.toNat < 8 →
      ∃ t, exec .cread s = .next t ∧ EndsErr t 3#4 0 0 ∧ t.hdrCount = s.hdrCount ∧ t.rowWidth = s.rowWidth ∧
        t.code = s.code) ∧
    (Fits s.cfg .cread sn → 8 ≤ sn.sl.toNat →
      ramRange s.stream sn.sb.toNat 8 = (wordBytes cw ++ wordBytes rwd).map some →
      (2 ^ 31 ≤ cw.toNat ∨ 2 * ((sn.sl.toNat - 8) / 3) < cw.toNat →
        ∃ t, exec .cread s = .next t ∧ EndsErr t 4#4 0 0 ∧ t.hdrCount = cw ∧ t.rowWidth = rwd ∧ t.code = s.code) ∧
      (cw.toNat < 2 ^ 31 → cw.toNat ≤ 2 * ((sn.sl.toNat - 8) / 3) → sn.dc.toNat < cw.toNat →
        ∃ t, exec .cread s = .next t ∧ EndsErr t 7#4 0 0 ∧ t.hdrCount = cw ∧ t.rowWidth = rwd ∧ t.code = s.code))

/-- R25, R51, R102, R180, R188, R205: what PACK and CWRITE leave unchanged, however they end: every operand register,
ROW_WIDTH, HDR_COUNT, DICT_SIZE, SYM, CODE, and STREAM outside the RESULT_LEN elements from DST_BASE. -/
def Obligations.PackAndCwriteFrame : Prop :=
  ∀ (s t : State) (op : Instr), op = .pack ∨ op = .cwrite → exec op s = .next t →
    CommonKept op s t ∧ t.rowWidth = s.rowWidth ∧ t.hdrCount = s.hdrCount ∧ t.dictSize = s.dictSize ∧
    t.sym = s.sym ∧ t.code = s.code ∧ OutsideKept s.stream t.stream (s.engineFor op).db t.resultLen.toNat

/-- R25, R51, R102, R184, R192, R205, R36: what UNPACK and CREAD leave unchanged, however they end: every operand
register, DICT_SIZE, SYM, STREAM, and CODE outside the RESULT_LEN elements from DST_BASE; UNPACK also ROW_WIDTH and
HDR_COUNT. -/
def Obligations.UnpackAndCreadFrame : Prop :=
  ∀ (s t : State) (op : Instr), op = .unpack ∨ op = .cread → exec op s = .next t →
    CommonKept op s t ∧ t.dictSize = s.dictSize ∧ t.sym = s.sym ∧ t.stream = s.stream ∧
    (op = .unpack → t.rowWidth = s.rowWidth ∧ t.hdrCount = s.hdrCount) ∧
    OutsideKept s.code t.code (s.engineFor op).db t.resultLen.toNat

/-- R195: CREAD of what CWRITE wrote, with the byte count CWRITE reported and room for the codes, writes the codes back,
for odd and even counts and for none, and sets ROW_WIDTH to the width CWRITE was given. -/
def Obligations.ContainerRoundTrip : Prop :=
  ∀ (s t : State) (sn : Snapshot) (cs : List Code) (db2 dc2 rw2 : Word), Inv s → Starts .cwrite s sn →
    cs.length = sn.sl.toNat → ramRange s.code sn.sb.toNat cs.length = cs.map some →
    exec .cwrite s = .next t → t.done = true →
    db2.toNat + dc2.toNat ≤ s.cfg.codeDepth → cs.length ≤ dc2.toNat →
    ∃ v, exec .cread { t with srcBase := sn.db, srcLen := t.resultLen, dstBase := db2, dstCap := dc2, rowWidth := rw2 } =
        .next v ∧
      EndsOk v cs.length ∧ ramRange v.code db2.toNat cs.length = cs.map some ∧ v.rowWidth = sn.rw ∧
      v.hdrCount = BitVec.ofNat 32 cs.length

/-! ### The host script -/

/-- R86, R87: the command macros and `poll`, wherever they stand in the host's program. The five writes of ENCODE,
DECODE, PACK, UNPACK and CREAD, run while idle, leave the operand registers as written and the command accepted with
that snapshot; the six of CWRITE do so with ROW_WIDTH as well. The length may be the datum `d` of the host's last read.
The two statements of `poll` read STATUS and go back to that read while the block is busy and past the loop once it is
idle. The host's program as part of the state is the model's choice (log entry 7). -/
def Obligations.CommandMacroStartsAndPolls : Prop :=
  ∀ (s : State) (sb : Word) (sl : HostVal) (db dc rw : Word),
    (∀ op, op ≠ .cwrite → s.engine = none → StandsAt s.prog s.pos (runMacro op s.pos sb sl db dc) →
      StartedBy (hostTurns 5 s) op { sb := sb, sl := hostValue sl s, db := db, dc := dc, rw := s.rowWidth } ∧
      (hostTurns 5 s).pos = s.pos + 5) ∧
    (s.engine = none → StandsAt s.prog s.pos (cwriteMacro s.pos sb sl db dc rw) →
      StartedBy (hostTurns 6 s) .cwrite { sb := sb, sl := hostValue sl s, db := db, dc := dc, rw := rw } ∧
      (hostTurns 6 s).pos = s.pos + 6) ∧
    (StandsAt s.prog s.pos (poll s.pos) → Polls s)

/-- R86, R87: COMPRESS and DECOMPRESS, wherever they stand in the host's program. Each starts its first command and polls.
Once that command has ended, each reads RESULT_LEN and starts its second command with the value read as its length,
CWRITE with the given row width, and polls again. The host's program as part of the state is the model's choice (log
entry 7). -/
def Obligations.CompressAndDecompressMacros : Prop :=
  ∀ (s : State) (p : Nat) (a1 a2 a3 a4 a5 a6 rw : Word),
    (StandsAt s.prog p (compressMacro p a1 a2 a3 a4 a5 a6 rw) →
      (s.engine = none → s.pos = p →
        StartedBy (hostTurns 5 s) .encode { sb := a1, sl := a2, db := a3, dc := a4, rw := s.rowWidth } ∧
        (hostTurns 5 s).pos = p + 5) ∧
      (s.engine = none → s.pos = p + 7 →
        StartedBy (hostTurns 7 s) .cwrite { sb := a3, sl := s.resultLen, db := a5, dc := a6, rw := rw } ∧
        (hostTurns 7 s).hostData = s.resultLen ∧ (hostTurns 7 s).pos = p + 14) ∧
      (s.pos = p + 5 ∨ s.pos = p + 14 → Polls s)) ∧
    (StandsAt s.prog p (decompressMacro p a1 a2 a3 a4 a5 a6) →
      (s.engine = none → s.pos = p →
        StartedBy (hostTurns 5 s) .cread { sb := a1, sl := a2, db := a3, dc := a4, rw := s.rowWidth } ∧
        (hostTurns 5 s).pos = p + 5) ∧
      (s.engine = none → s.pos = p + 7 →
        StartedBy (hostTurns 6 s) .decode { sb := a3, sl := s.resultLen, db := a5, dc := a6, rw := s.rowWidth } ∧
        (hostTurns 6 s).hostData = s.resultLen ∧ (hostTurns 6 s).pos = p + 13) ∧
      (s.pos = p + 5 ∨ s.pos = p + 13 → Polls s))
end

