-- ==== Sys2Proof/Laws/Ram.lean ====
section
/-! SUPPORT. The laws of the local RAMs: read after write, the canonical form, ranges. -/

namespace Sys2Proof.Machine

variable {w : Nat}

@[simp] theorem ramRead_nil (a : Nat) : ramRead ([] : List (Nat × BitVec w)) a = none := rfl

/-- A write is read back. -/
@[simp] theorem ramRead_ramWrite_self (m : List (Nat × BitVec w)) (a : Nat) (v : BitVec w) :
    ramRead (ramWrite m a v) a = some v := by
  induction m with
  | nil => simp [ramWrite, ramRead]
  | cons p rest ih =>
    simp only [ramWrite]
    split
    · simp [ramRead]
    · split
      · simp [ramRead]
      · rename_i h
        simp [ramRead, Ne.symm h, ih]

/-- A write leaves every other element alone. -/
theorem ramRead_ramWrite_ne (m : List (Nat × BitVec w)) {a b : Nat} (v : BitVec w) (h : b ≠ a) :
    ramRead (ramWrite m a v) b = ramRead m b := by
  induction m with
  | nil => simp [ramWrite, ramRead, Ne.symm h]
  | cons p rest ih =>
    simp only [ramWrite]
    split
    · simp [ramRead, Ne.symm h]
    · split
      · rename_i hk
        subst hk
        simp [ramRead, Ne.symm h]
      · simp [ramRead, ih]

/-- The indices a write leaves listed are the old ones and the written one. -/
theorem mem_ramWrite {m : List (Nat × BitVec w)} {a : Nat} {v : BitVec w} {p : Nat × BitVec w}
    (h : p ∈ ramWrite m a v) : p = (a, v) ∨ p ∈ m := by
  induction m with
  | nil => simpa [ramWrite] using h
  | cons q rest ih =>
    simp only [ramWrite] at h
    split at h
    · simpa using h
    · split at h
      · rcases List.mem_cons.1 h with h | h
        · exact .inl h
        · exact .inr (List.mem_cons_of_mem _ h)
      · rcases List.mem_cons.1 h with h | h
        · exact .inr (h ▸ List.mem_cons_self)
        · exact (ih h).imp_right (List.mem_cons_of_mem _)

/-- A write keeps the canonical form. -/
theorem ramWf_ramWrite {m : List (Nat × BitVec w)} (hm : ramWf m) (a : Nat) (v : BitVec w) :
    ramWf (ramWrite m a v) := by
  induction m with
  | nil => simp [ramWrite, ramWf]
  | cons q rest ih =>
    obtain ⟨hq, hrest⟩ := List.pairwise_cons.1 hm
    simp only [ramWrite]
    split
    · rename_i hlt
      refine List.pairwise_cons.2 ⟨fun p hp => ?_, hm⟩
      rcases List.mem_cons.1 hp with rfl | hp
      · exact hlt
      · exact Nat.lt_trans hlt (hq p hp)
    · split
      · rename_i heq
        subst heq
        exact List.pairwise_cons.2 ⟨hq, hrest⟩
      · refine List.pairwise_cons.2 ⟨fun p hp => ?_, ih hrest⟩
        rcases mem_ramWrite hp with rfl | hp
        · show q.1 < a
          omega
        · exact hq p hp

/-- Writing a sequence keeps the canonical form. -/
theorem ramWf_ramWriteSeq {m : List (Nat × BitVec w)} (hm : ramWf m) (a : Nat) (vs : List (BitVec w)) :
    ramWf (ramWriteSeq m a vs) := by
  induction vs generalizing m a with
  | nil => exact hm
  | cons v rest ih => exact ih (ramWf_ramWrite hm a v) (a + 1)

/-- Every index listed after writing a sequence is an old one or one of the sequence's. -/
theorem mem_ramWriteSeq {m : List (Nat × BitVec w)} {a : Nat} {vs : List (BitVec w)} {p : Nat × BitVec w}
    (h : p ∈ ramWriteSeq m a vs) : p ∈ m ∨ (a ≤ p.1 ∧ p.1 < a + vs.length) := by
  induction vs generalizing m a with
  | nil => exact .inl h
  | cons v rest ih =>
    rcases ih (show p ∈ ramWriteSeq (ramWrite m a v) (a + 1) rest from h) with h | ⟨h1, h2⟩
    · rcases mem_ramWrite h with rfl | h
      · right; simp
      · exact .inl h
    · right; simp only [List.length_cons]; omega

/-- Elements outside a written sequence read as before. -/
theorem ramRead_ramWriteSeq_out (m : List (Nat × BitVec w)) (a : Nat) (vs : List (BitVec w)) {b : Nat}
    (h : b < a ∨ a + vs.length ≤ b) : ramRead (ramWriteSeq m a vs) b = ramRead m b := by
  induction vs generalizing m a with
  | nil => rfl
  | cons v rest ih =>
    simp only [List.length_cons] at h
    rw [ramWriteSeq, ih _ _ (by omega), ramRead_ramWrite_ne _ _ (by omega)]

/-- Element `j` of a written sequence is read back. -/
theorem ramRead_ramWriteSeq_in (m : List (Nat × BitVec w)) (a : Nat) (vs : List (BitVec w)) (j : Nat)
    (h : j < vs.length) : ramRead (ramWriteSeq m a vs) (a + j) = some vs[j] := by
  induction vs generalizing m a j with
  | nil => simp at h
  | cons v rest ih =>
    cases j with
    | zero =>
      rw [ramWriteSeq, Nat.add_zero, ramRead_ramWriteSeq_out _ _ _ (by omega)]
      simp
    | succ k =>
      have := ih (ramWrite m a v) (a + 1) k (by simpa using h)
      rw [ramWriteSeq, show a + (k + 1) = a + 1 + k by omega, this]
      simp

/-- Writing two sequences one behind the other is writing their concatenation. -/
theorem ramWriteSeq_append (m : List (Nat × BitVec w)) (a : Nat) (us vs : List (BitVec w)) :
    ramWriteSeq m a (us ++ vs) = ramWriteSeq (ramWriteSeq m a us) (a + us.length) vs := by
  induction us generalizing m a with
  | nil => rfl
  | cons u rest ih =>
    simp only [List.cons_append, ramWriteSeq, ih, List.length_cons]
    congr 1
    omega

@[simp] theorem ramRange_length (m : List (Nat × BitVec w)) (a n : Nat) : (ramRange m a n).length = n := by
  induction n generalizing a with
  | zero => rfl
  | succ k ih => simp [ramRange, ih]

/-- A range is the reads of its elements. -/
theorem ramRange_getElem (m : List (Nat × BitVec w)) (a n j : Nat) (h : j < n) :
    (ramRange m a n)[j]'(by simpa using h) = ramRead m (a + j) := by
  induction n generalizing a j with
  | zero => omega
  | succ k ih =>
    cases j with
    | zero => rfl
    | succ j =>
      have := ih (a + 1) j (by omega)
      simp only [ramRange, List.getElem_cons_succ, this]
      congr 1
      omega

/-- A range in two parts. -/
theorem ramRange_append (m : List (Nat × BitVec w)) (a n k : Nat) :
    ramRange m a (n + k) = ramRange m a n ++ ramRange m (a + n) k := by
  induction n generalizing a with
  | zero => simp [ramRange]
  | succ n ih =>
    rw [Nat.add_right_comm, ramRange, ih, ramRange, List.cons_append, Nat.add_right_comm a 1 n]
    rfl

/-- Two RAMs that agree on a range give the same range. -/
theorem ramRange_congr {m m' : List (Nat × BitVec w)} {a n : Nat}
    (h : ∀ b, a ≤ b → b < a + n → ramRead m b = ramRead m' b) : ramRange m a n = ramRange m' a n := by
  induction n generalizing a with
  | zero => rfl
  | succ n ih =>
    rw [ramRange, ramRange, h a (by omega) (by omega), ih fun b h1 h2 => h b (by omega) (by omega)]

/-- A written sequence is read back as a range. -/
theorem ramRange_ramWriteSeq (m : List (Nat × BitVec w)) (a : Nat) (vs : List (BitVec w)) :
    ramRange (ramWriteSeq m a vs) a vs.length = vs.map some := by
  apply List.ext_getElem (by simp)
  intro j h1 h2
  rw [ramRange_getElem _ _ _ _ (by simpa using h1), ramRead_ramWriteSeq_in _ _ _ _ (by simpa using h1)]
  simp

end Sys2Proof.Machine
end

