-- ==== Sys2Proof/Laws/State.lean ====
section
/-! SUPPORT. One lemma per field per named state update, each true by rfl. -/

namespace Sys2Proof.Machine

/-! ### clearOutcome -/

@[simp] theorem State.clearOutcome_cfg (s : State) : s.clearOutcome.cfg = s.cfg := rfl
@[simp] theorem State.clearOutcome_cmd (s : State) : s.clearOutcome.cmd = s.cmd := rfl
@[simp] theorem State.clearOutcome_done (s : State) : s.clearOutcome.done = false := rfl
@[simp] theorem State.clearOutcome_error (s : State) : s.clearOutcome.error = false := rfl
@[simp] theorem State.clearOutcome_errCode (s : State) : s.clearOutcome.errCode = 0#4 := rfl
@[simp] theorem State.clearOutcome_srcBase (s : State) : s.clearOutcome.srcBase = s.srcBase := rfl
@[simp] theorem State.clearOutcome_srcLen (s : State) : s.clearOutcome.srcLen = s.srcLen := rfl
@[simp] theorem State.clearOutcome_dstBase (s : State) : s.clearOutcome.dstBase = s.dstBase := rfl
@[simp] theorem State.clearOutcome_dstCap (s : State) : s.clearOutcome.dstCap = s.dstCap := rfl
@[simp] theorem State.clearOutcome_rowWidth (s : State) : s.clearOutcome.rowWidth = s.rowWidth := rfl
@[simp] theorem State.clearOutcome_resultLen (s : State) : s.clearOutcome.resultLen = 0#32 := rfl
@[simp] theorem State.clearOutcome_dictSize (s : State) : s.clearOutcome.dictSize = s.dictSize := rfl
@[simp] theorem State.clearOutcome_hdrCount (s : State) : s.clearOutcome.hdrCount = s.hdrCount := rfl
@[simp] theorem State.clearOutcome_errIndex (s : State) : s.clearOutcome.errIndex = 0#32 := rfl
@[simp] theorem State.clearOutcome_sym (s : State) : s.clearOutcome.sym = s.sym := rfl
@[simp] theorem State.clearOutcome_code (s : State) : s.clearOutcome.code = s.code := rfl
@[simp] theorem State.clearOutcome_stream (s : State) : s.clearOutcome.stream = s.stream := rfl
@[simp] theorem State.clearOutcome_engine (s : State) : s.clearOutcome.engine = s.engine := rfl
@[simp] theorem State.clearOutcome_prog (s : State) : s.clearOutcome.prog = s.prog := rfl
@[simp] theorem State.clearOutcome_pos (s : State) : s.clearOutcome.pos = s.pos := rfl
@[simp] theorem State.clearOutcome_hostData (s : State) : s.clearOutcome.hostData = s.hostData := rfl
@[simp] theorem State.clearOutcome_turns (s : State) : s.clearOutcome.turns = s.turns := rfl
@[simp] theorem State.clearOutcome_draws (s : State) : s.clearOutcome.draws = s.draws := rfl

/-! ### accept -/

@[simp] theorem State.accept_cfg (op : Instr) (s : State) : (s.accept op).cfg = s.cfg := rfl
@[simp] theorem State.accept_cmd (op : Instr) (s : State) : (s.accept op).cmd = s.cmd := rfl
@[simp] theorem State.accept_done (op : Instr) (s : State) : (s.accept op).done = s.done := rfl
@[simp] theorem State.accept_error (op : Instr) (s : State) : (s.accept op).error = s.error := rfl
@[simp] theorem State.accept_errCode (op : Instr) (s : State) : (s.accept op).errCode = s.errCode := rfl
@[simp] theorem State.accept_srcBase (op : Instr) (s : State) : (s.accept op).srcBase = s.srcBase := rfl
@[simp] theorem State.accept_srcLen (op : Instr) (s : State) : (s.accept op).srcLen = s.srcLen := rfl
@[simp] theorem State.accept_dstBase (op : Instr) (s : State) : (s.accept op).dstBase = s.dstBase := rfl
@[simp] theorem State.accept_dstCap (op : Instr) (s : State) : (s.accept op).dstCap = s.dstCap := rfl
@[simp] theorem State.accept_rowWidth (op : Instr) (s : State) : (s.accept op).rowWidth = s.rowWidth := rfl
@[simp] theorem State.accept_resultLen (op : Instr) (s : State) : (s.accept op).resultLen = s.resultLen := rfl
@[simp] theorem State.accept_dictSize (op : Instr) (s : State) : (s.accept op).dictSize = s.dictSize := rfl
@[simp] theorem State.accept_hdrCount (op : Instr) (s : State) : (s.accept op).hdrCount = s.hdrCount := rfl
@[simp] theorem State.accept_errIndex (op : Instr) (s : State) : (s.accept op).errIndex = s.errIndex := rfl
@[simp] theorem State.accept_sym (op : Instr) (s : State) : (s.accept op).sym = s.sym := rfl
@[simp] theorem State.accept_code (op : Instr) (s : State) : (s.accept op).code = s.code := rfl
@[simp] theorem State.accept_stream (op : Instr) (s : State) : (s.accept op).stream = s.stream := rfl
@[simp] theorem State.accept_engine (op : Instr) (s : State) :
    (s.accept op).engine = some (Engine.fresh op s.operands) := rfl
@[simp] theorem State.accept_prog (op : Instr) (s : State) : (s.accept op).prog = s.prog := rfl
@[simp] theorem State.accept_pos (op : Instr) (s : State) : (s.accept op).pos = s.pos := rfl
@[simp] theorem State.accept_hostData (op : Instr) (s : State) : (s.accept op).hostData = s.hostData := rfl
@[simp] theorem State.accept_turns (op : Instr) (s : State) : (s.accept op).turns = s.turns := rfl
@[simp] theorem State.accept_draws (op : Instr) (s : State) : (s.accept op).draws = s.draws := rfl

/-! ### settle -/

@[simp] theorem State.settle_cfg {w : Nat} (op : Instr) (x : Work w) (s : State) : (s.settle op x).cfg = s.cfg := rfl
@[simp] theorem State.settle_cmd {w : Nat} (op : Instr) (x : Work w) (s : State) : (s.settle op x).cmd = s.cmd := rfl
@[simp] theorem State.settle_done {w : Nat} (op : Instr) (x : Work w) (s : State) :
    (s.settle op x).done = s.done := rfl
@[simp] theorem State.settle_error {w : Nat} (op : Instr) (x : Work w) (s : State) :
    (s.settle op x).error = s.error := rfl
@[simp] theorem State.settle_errCode {w : Nat} (op : Instr) (x : Work w) (s : State) :
    (s.settle op x).errCode = s.errCode := rfl
@[simp] theorem State.settle_srcBase {w : Nat} (op : Instr) (x : Work w) (s : State) :
    (s.settle op x).srcBase = s.srcBase := rfl
@[simp] theorem State.settle_srcLen {w : Nat} (op : Instr) (x : Work w) (s : State) :
    (s.settle op x).srcLen = s.srcLen := rfl
@[simp] theorem State.settle_dstBase {w : Nat} (op : Instr) (x : Work w) (s : State) :
    (s.settle op x).dstBase = s.dstBase := rfl
@[simp] theorem State.settle_dstCap {w : Nat} (op : Instr) (x : Work w) (s : State) :
    (s.settle op x).dstCap = s.dstCap := rfl
@[simp] theorem State.settle_rowWidth {w : Nat} (op : Instr) (x : Work w) (s : State) :
    (s.settle op x).rowWidth = (match x.hdr with | some h => h.2 | none => s.rowWidth) := rfl
@[simp] theorem State.settle_resultLen {w : Nat} (op : Instr) (x : Work w) (s : State) :
    (s.settle op x).resultLen = BitVec.ofNat 32 x.eng.o := rfl
@[simp] theorem State.settle_dictSize {w : Nat} (op : Instr) (x : Work w) (s : State) :
    (s.settle op x).dictSize = (if usesDictionary op then endDictSize x.eng else s.dictSize) := rfl
@[simp] theorem State.settle_hdrCount {w : Nat} (op : Instr) (x : Work w) (s : State) :
    (s.settle op x).hdrCount = (match x.hdr with | some h => h.1 | none => s.hdrCount) := rfl
@[simp] theorem State.settle_errIndex {w : Nat} (op : Instr) (x : Work w) (s : State) :
    (s.settle op x).errIndex = s.errIndex := rfl
@[simp] theorem State.settle_sym {w : Nat} (op : Instr) (x : Work w) (s : State) : (s.settle op x).sym = s.sym := rfl
@[simp] theorem State.settle_code {w : Nat} (op : Instr) (x : Work w) (s : State) :
    (s.settle op x).code = s.code := rfl
@[simp] theorem State.settle_stream {w : Nat} (op : Instr) (x : Work w) (s : State) :
    (s.settle op x).stream = s.stream := rfl
@[simp] theorem State.settle_engine {w : Nat} (op : Instr) (x : Work w) (s : State) :
    (s.settle op x).engine = none := rfl
@[simp] theorem State.settle_prog {w : Nat} (op : Instr) (x : Work w) (s : State) :
    (s.settle op x).prog = s.prog := rfl
@[simp] theorem State.settle_pos {w : Nat} (op : Instr) (x : Work w) (s : State) : (s.settle op x).pos = s.pos := rfl
@[simp] theorem State.settle_hostData {w : Nat} (op : Instr) (x : Work w) (s : State) :
    (s.settle op x).hostData = s.hostData := rfl
@[simp] theorem State.settle_turns {w : Nat} (op : Instr) (x : Work w) (s : State) :
    (s.settle op x).turns = s.turns := rfl
@[simp] theorem State.settle_draws {w : Nat} (op : Instr) (x : Work w) (s : State) :
    (s.settle op x).draws = s.draws + 1 := rfl

/-! ### complete -/

@[simp] theorem State.complete_cfg {w : Nat} (op : Instr) (x : Work w) (s : State) :
    (s.complete op x).cfg = (s.settle op x).cfg := rfl
@[simp] theorem State.complete_cmd {w : Nat} (op : Instr) (x : Work w) (s : State) :
    (s.complete op x).cmd = (s.settle op x).cmd := rfl
@[simp] theorem State.complete_done {w : Nat} (op : Instr) (x : Work w) (s : State) :
    (s.complete op x).done = true := rfl
@[simp] theorem State.complete_error {w : Nat} (op : Instr) (x : Work w) (s : State) :
    (s.complete op x).error = (s.settle op x).error := rfl
@[simp] theorem State.complete_errCode {w : Nat} (op : Instr) (x : Work w) (s : State) :
    (s.complete op x).errCode = (s.settle op x).errCode := rfl
@[simp] theorem State.complete_srcBase {w : Nat} (op : Instr) (x : Work w) (s : State) :
    (s.complete op x).srcBase = (s.settle op x).srcBase := rfl
@[simp] theorem State.complete_srcLen {w : Nat} (op : Instr) (x : Work w) (s : State) :
    (s.complete op x).srcLen = (s.settle op x).srcLen := rfl
@[simp] theorem State.complete_dstBase {w : Nat} (op : Instr) (x : Work w) (s : State) :
    (s.complete op x).dstBase = (s.settle op x).dstBase := rfl
@[simp] theorem State.complete_dstCap {w : Nat} (op : Instr) (x : Work w) (s : State) :
    (s.complete op x).dstCap = (s.settle op x).dstCap := rfl
@[simp] theorem State.complete_rowWidth {w : Nat} (op : Instr) (x : Work w) (s : State) :
    (s.complete op x).rowWidth = (s.settle op x).rowWidth := rfl
@[simp] theorem State.complete_resultLen {w : Nat} (op : Instr) (x : Work w) (s : State) :
    (s.complete op x).resultLen = (s.settle op x).resultLen := rfl
@[simp] theorem State.complete_dictSize {w : Nat} (op : Instr) (x : Work w) (s : State) :
    (s.complete op x).dictSize = (s.settle op x).dictSize := rfl
@[simp] theorem State.complete_hdrCount {w : Nat} (op : Instr) (x : Work w) (s : State) :
    (s.complete op x).hdrCount = (s.settle op x).hdrCount := rfl
@[simp] theorem State.complete_errIndex {w : Nat} (op : Instr) (x : Work w) (s : State) :
    (s.complete op x).errIndex = (s.settle op x).errIndex := rfl
@[simp] theorem State.complete_sym {w : Nat} (op : Instr) (x : Work w) (s : State) :
    (s.complete op x).sym = (s.settle op x).sym := rfl
@[simp] theorem State.complete_code {w : Nat} (op : Instr) (x : Work w) (s : State) :
    (s.complete op x).code = (s.settle op x).code := rfl
@[simp] theorem State.complete_stream {w : Nat} (op : Instr) (x : Work w) (s : State) :
    (s.complete op x).stream = (s.settle op x).stream := rfl
@[simp] theorem State.complete_engine {w : Nat} (op : Instr) (x : Work w) (s : State) :
    (s.complete op x).engine = (s.settle op x).engine := rfl
@[simp] theorem State.complete_prog {w : Nat} (op : Instr) (x : Work w) (s : State) :
    (s.complete op x).prog = (s.settle op x).prog := rfl
@[simp] theorem State.complete_pos {w : Nat} (op : Instr) (x : Work w) (s : State) :
    (s.complete op x).pos = (s.settle op x).pos := rfl
@[simp] theorem State.complete_hostData {w : Nat} (op : Instr) (x : Work w) (s : State) :
    (s.complete op x).hostData = (s.settle op x).hostData := rfl
@[simp] theorem State.complete_turns {w : Nat} (op : Instr) (x : Work w) (s : State) :
    (s.complete op x).turns = (s.settle op x).turns := rfl
@[simp] theorem State.complete_draws {w : Nat} (op : Instr) (x : Work w) (s : State) :
    (s.complete op x).draws = (s.settle op x).draws := rfl

/-! ### raiseErr -/

@[simp] theorem State.raiseErr_cfg {w : Nat} (op : Instr) (E : ErrCode) (idx : Nat) (x : Work w) (s : State) :
    (s.raiseErr op E idx x).cfg = (s.settle op x).cfg := rfl
@[simp] theorem State.raiseErr_cmd {w : Nat} (op : Instr) (E : ErrCode) (idx : Nat) (x : Work w) (s : State) :
    (s.raiseErr op E idx x).cmd = (s.settle op x).cmd := rfl
@[simp] theorem State.raiseErr_done {w : Nat} (op : Instr) (E : ErrCode) (idx : Nat) (x : Work w) (s : State) :
    (s.raiseErr op E idx x).done = (s.settle op x).done := rfl
@[simp] theorem State.raiseErr_error {w : Nat} (op : Instr) (E : ErrCode) (idx : Nat) (x : Work w) (s : State) :
    (s.raiseErr op E idx x).error = true := rfl
@[simp] theorem State.raiseErr_errCode {w : Nat} (op : Instr) (E : ErrCode) (idx : Nat) (x : Work w) (s : State) :
    (s.raiseErr op E idx x).errCode = E.code := rfl
@[simp] theorem State.raiseErr_srcBase {w : Nat} (op : Instr) (E : ErrCode) (idx : Nat) (x : Work w) (s : State) :
    (s.raiseErr op E idx x).srcBase = (s.settle op x).srcBase := rfl
@[simp] theorem State.raiseErr_srcLen {w : Nat} (op : Instr) (E : ErrCode) (idx : Nat) (x : Work w) (s : State) :
    (s.raiseErr op E idx x).srcLen = (s.settle op x).srcLen := rfl
@[simp] theorem State.raiseErr_dstBase {w : Nat} (op : Instr) (E : ErrCode) (idx : Nat) (x : Work w) (s : State) :
    (s.raiseErr op E idx x).dstBase = (s.settle op x).dstBase := rfl
@[simp] theorem State.raiseErr_dstCap {w : Nat} (op : Instr) (E : ErrCode) (idx : Nat) (x : Work w) (s : State) :
    (s.raiseErr op E idx x).dstCap = (s.settle op x).dstCap := rfl
@[simp] theorem State.raiseErr_rowWidth {w : Nat} (op : Instr) (E : ErrCode) (idx : Nat) (x : Work w) (s : State) :
    (s.raiseErr op E idx x).rowWidth = (s.settle op x).rowWidth := rfl
@[simp] theorem State.raiseErr_resultLen {w : Nat} (op : Instr) (E : ErrCode) (idx : Nat) (x : Work w) (s : State) :
    (s.raiseErr op E idx x).resultLen = (s.settle op x).resultLen := rfl
@[simp] theorem State.raiseErr_dictSize {w : Nat} (op : Instr) (E : ErrCode) (idx : Nat) (x : Work w) (s : State) :
    (s.raiseErr op E idx x).dictSize = (s.settle op x).dictSize := rfl
@[simp] theorem State.raiseErr_hdrCount {w : Nat} (op : Instr) (E : ErrCode) (idx : Nat) (x : Work w) (s : State) :
    (s.raiseErr op E idx x).hdrCount = (s.settle op x).hdrCount := rfl
@[simp] theorem State.raiseErr_errIndex {w : Nat} (op : Instr) (E : ErrCode) (idx : Nat) (x : Work w) (s : State) :
    (s.raiseErr op E idx x).errIndex = BitVec.ofNat 32 idx := rfl
@[simp] theorem State.raiseErr_sym {w : Nat} (op : Instr) (E : ErrCode) (idx : Nat) (x : Work w) (s : State) :
    (s.raiseErr op E idx x).sym = (s.settle op x).sym := rfl
@[simp] theorem State.raiseErr_code {w : Nat} (op : Instr) (E : ErrCode) (idx : Nat) (x : Work w) (s : State) :
    (s.raiseErr op E idx x).code = (s.settle op x).code := rfl
@[simp] theorem State.raiseErr_stream {w : Nat} (op : Instr) (E : ErrCode) (idx : Nat) (x : Work w) (s : State) :
    (s.raiseErr op E idx x).stream = (s.settle op x).stream := rfl
@[simp] theorem State.raiseErr_engine {w : Nat} (op : Instr) (E : ErrCode) (idx : Nat) (x : Work w) (s : State) :
    (s.raiseErr op E idx x).engine = (s.settle op x).engine := rfl
@[simp] theorem State.raiseErr_prog {w : Nat} (op : Instr) (E : ErrCode) (idx : Nat) (x : Work w) (s : State) :
    (s.raiseErr op E idx x).prog = (s.settle op x).prog := rfl
@[simp] theorem State.raiseErr_pos {w : Nat} (op : Instr) (E : ErrCode) (idx : Nat) (x : Work w) (s : State) :
    (s.raiseErr op E idx x).pos = (s.settle op x).pos := rfl
@[simp] theorem State.raiseErr_hostData {w : Nat} (op : Instr) (E : ErrCode) (idx : Nat) (x : Work w) (s : State) :
    (s.raiseErr op E idx x).hostData = (s.settle op x).hostData := rfl
@[simp] theorem State.raiseErr_turns {w : Nat} (op : Instr) (E : ErrCode) (idx : Nat) (x : Work w) (s : State) :
    (s.raiseErr op E idx x).turns = (s.settle op x).turns := rfl
@[simp] theorem State.raiseErr_draws {w : Nat} (op : Instr) (E : ErrCode) (idx : Nat) (x : Work w) (s : State) :
    (s.raiseErr op E idx x).draws = (s.settle op x).draws := rfl

/-! ### storeSym -/

@[simp] theorem storeSym_cfg (a : Nat) (vs : List (BitVec 8)) (s : State) : (storeSym a vs s).cfg = s.cfg := rfl
@[simp] theorem storeSym_cmd (a : Nat) (vs : List (BitVec 8)) (s : State) : (storeSym a vs s).cmd = s.cmd := rfl
@[simp] theorem storeSym_done (a : Nat) (vs : List (BitVec 8)) (s : State) : (storeSym a vs s).done = s.done := rfl
@[simp] theorem storeSym_error (a : Nat) (vs : List (BitVec 8)) (s : State) : (storeSym a vs s).error = s.error := rfl
@[simp] theorem storeSym_errCode (a : Nat) (vs : List (BitVec 8)) (s : State) :
    (storeSym a vs s).errCode = s.errCode := rfl
@[simp] theorem storeSym_srcBase (a : Nat) (vs : List (BitVec 8)) (s : State) :
    (storeSym a vs s).srcBase = s.srcBase := rfl
@[simp] theorem storeSym_srcLen (a : Nat) (vs : List (BitVec 8)) (s : State) :
    (storeSym a vs s).srcLen = s.srcLen := rfl
@[simp] theorem storeSym_dstBase (a : Nat) (vs : List (BitVec 8)) (s : State) :
    (storeSym a vs s).dstBase = s.dstBase := rfl
@[simp] theorem storeSym_dstCap (a : Nat) (vs : List (BitVec 8)) (s : State) :
    (storeSym a vs s).dstCap = s.dstCap := rfl
@[simp] theorem storeSym_rowWidth (a : Nat) (vs : List (BitVec 8)) (s : State) :
    (storeSym a vs s).rowWidth = s.rowWidth := rfl
@[simp] theorem storeSym_resultLen (a : Nat) (vs : List (BitVec 8)) (s : State) :
    (storeSym a vs s).resultLen = s.resultLen := rfl
@[simp] theorem storeSym_dictSize (a : Nat) (vs : List (BitVec 8)) (s : State) :
    (storeSym a vs s).dictSize = s.dictSize := rfl
@[simp] theorem storeSym_hdrCount (a : Nat) (vs : List (BitVec 8)) (s : State) :
    (storeSym a vs s).hdrCount = s.hdrCount := rfl
@[simp] theorem storeSym_errIndex (a : Nat) (vs : List (BitVec 8)) (s : State) :
    (storeSym a vs s).errIndex = s.errIndex := rfl
@[simp] theorem storeSym_sym (a : Nat) (vs : List (BitVec 8)) (s : State) :
    (storeSym a vs s).sym = ramWriteSeq s.sym a vs := rfl
@[simp] theorem storeSym_code (a : Nat) (vs : List (BitVec 8)) (s : State) : (storeSym a vs s).code = s.code := rfl
@[simp] theorem storeSym_stream (a : Nat) (vs : List (BitVec 8)) (s : State) :
    (storeSym a vs s).stream = s.stream := rfl
@[simp] theorem storeSym_engine (a : Nat) (vs : List (BitVec 8)) (s : State) :
    (storeSym a vs s).engine = s.engine := rfl
@[simp] theorem storeSym_prog (a : Nat) (vs : List (BitVec 8)) (s : State) : (storeSym a vs s).prog = s.prog := rfl
@[simp] theorem storeSym_pos (a : Nat) (vs : List (BitVec 8)) (s : State) : (storeSym a vs s).pos = s.pos := rfl
@[simp] theorem storeSym_hostData (a : Nat) (vs : List (BitVec 8)) (s : State) :
    (storeSym a vs s).hostData = s.hostData := rfl
@[simp] theorem storeSym_turns (a : Nat) (vs : List (BitVec 8)) (s : State) : (storeSym a vs s).turns = s.turns := rfl
@[simp] theorem storeSym_draws (a : Nat) (vs : List (BitVec 8)) (s : State) : (storeSym a vs s).draws = s.draws := rfl

/-! ### storeCode -/

@[simp] theorem storeCode_cfg (a : Nat) (vs : List (BitVec 12)) (s : State) : (storeCode a vs s).cfg = s.cfg := rfl
@[simp] theorem storeCode_cmd (a : Nat) (vs : List (BitVec 12)) (s : State) : (storeCode a vs s).cmd = s.cmd := rfl
@[simp] theorem storeCode_done (a : Nat) (vs : List (BitVec 12)) (s : State) : (storeCode a vs s).done = s.done := rfl
@[simp] theorem storeCode_error (a : Nat) (vs : List (BitVec 12)) (s : State) :
    (storeCode a vs s).error = s.error := rfl
@[simp] theorem storeCode_errCode (a : Nat) (vs : List (BitVec 12)) (s : State) :
    (storeCode a vs s).errCode = s.errCode := rfl
@[simp] theorem storeCode_srcBase (a : Nat) (vs : List (BitVec 12)) (s : State) :
    (storeCode a vs s).srcBase = s.srcBase := rfl
@[simp] theorem storeCode_srcLen (a : Nat) (vs : List (BitVec 12)) (s : State) :
    (storeCode a vs s).srcLen = s.srcLen := rfl
@[simp] theorem storeCode_dstBase (a : Nat) (vs : List (BitVec 12)) (s : State) :
    (storeCode a vs s).dstBase = s.dstBase := rfl
@[simp] theorem storeCode_dstCap (a : Nat) (vs : List (BitVec 12)) (s : State) :
    (storeCode a vs s).dstCap = s.dstCap := rfl
@[simp] theorem storeCode_rowWidth (a : Nat) (vs : List (BitVec 12)) (s : State) :
    (storeCode a vs s).rowWidth = s.rowWidth := rfl
@[simp] theorem storeCode_resultLen (a : Nat) (vs : List (BitVec 12)) (s : State) :
    (storeCode a vs s).resultLen = s.resultLen := rfl
@[simp] theorem storeCode_dictSize (a : Nat) (vs : List (BitVec 12)) (s : State) :
    (storeCode a vs s).dictSize = s.dictSize := rfl
@[simp] theorem storeCode_hdrCount (a : Nat) (vs : List (BitVec 12)) (s : State) :
    (storeCode a vs s).hdrCount = s.hdrCount := rfl
@[simp] theorem storeCode_errIndex (a : Nat) (vs : List (BitVec 12)) (s : State) :
    (storeCode a vs s).errIndex = s.errIndex := rfl
@[simp] theorem storeCode_sym (a : Nat) (vs : List (BitVec 12)) (s : State) : (storeCode a vs s).sym = s.sym := rfl
@[simp] theorem storeCode_code (a : Nat) (vs : List (BitVec 12)) (s : State) :
    (storeCode a vs s).code = ramWriteSeq s.code a vs := rfl
@[simp] theorem storeCode_stream (a : Nat) (vs : List (BitVec 12)) (s : State) :
    (storeCode a vs s).stream = s.stream := rfl
@[simp] theorem storeCode_engine (a : Nat) (vs : List (BitVec 12)) (s : State) :
    (storeCode a vs s).engine = s.engine := rfl
@[simp] theorem storeCode_prog (a : Nat) (vs : List (BitVec 12)) (s : State) : (storeCode a vs s).prog = s.prog := rfl
@[simp] theorem storeCode_pos (a : Nat) (vs : List (BitVec 12)) (s : State) : (storeCode a vs s).pos = s.pos := rfl
@[simp] theorem storeCode_hostData (a : Nat) (vs : List (BitVec 12)) (s : State) :
    (storeCode a vs s).hostData = s.hostData := rfl
@[simp] theorem storeCode_turns (a : Nat) (vs : List (BitVec 12)) (s : State) :
    (storeCode a vs s).turns = s.turns := rfl
@[simp] theorem storeCode_draws (a : Nat) (vs : List (BitVec 12)) (s : State) :
    (storeCode a vs s).draws = s.draws := rfl

/-! ### storeStream -/

@[simp] theorem storeStream_cfg (a : Nat) (vs : List (BitVec 8)) (s : State) : (storeStream a vs s).cfg = s.cfg := rfl
@[simp] theorem storeStream_cmd (a : Nat) (vs : List (BitVec 8)) (s : State) : (storeStream a vs s).cmd = s.cmd := rfl
@[simp] theorem storeStream_done (a : Nat) (vs : List (BitVec 8)) (s : State) :
    (storeStream a vs s).done = s.done := rfl
@[simp] theorem storeStream_error (a : Nat) (vs : List (BitVec 8)) (s : State) :
    (storeStream a vs s).error = s.error := rfl
@[simp] theorem storeStream_errCode (a : Nat) (vs : List (BitVec 8)) (s : State) :
    (storeStream a vs s).errCode = s.errCode := rfl
@[simp] theorem storeStream_srcBase (a : Nat) (vs : List (BitVec 8)) (s : State) :
    (storeStream a vs s).srcBase = s.srcBase := rfl
@[simp] theorem storeStream_srcLen (a : Nat) (vs : List (BitVec 8)) (s : State) :
    (storeStream a vs s).srcLen = s.srcLen := rfl
@[simp] theorem storeStream_dstBase (a : Nat) (vs : List (BitVec 8)) (s : State) :
    (storeStream a vs s).dstBase = s.dstBase := rfl
@[simp] theorem storeStream_dstCap (a : Nat) (vs : List (BitVec 8)) (s : State) :
    (storeStream a vs s).dstCap = s.dstCap := rfl
@[simp] theorem storeStream_rowWidth (a : Nat) (vs : List (BitVec 8)) (s : State) :
    (storeStream a vs s).rowWidth = s.rowWidth := rfl
@[simp] theorem storeStream_resultLen (a : Nat) (vs : List (BitVec 8)) (s : State) :
    (storeStream a vs s).resultLen = s.resultLen := rfl
@[simp] theorem storeStream_dictSize (a : Nat) (vs : List (BitVec 8)) (s : State) :
    (storeStream a vs s).dictSize = s.dictSize := rfl
@[simp] theorem storeStream_hdrCount (a : Nat) (vs : List (BitVec 8)) (s : State) :
    (storeStream a vs s).hdrCount = s.hdrCount := rfl
@[simp] theorem storeStream_errIndex (a : Nat) (vs : List (BitVec 8)) (s : State) :
    (storeStream a vs s).errIndex = s.errIndex := rfl
@[simp] theorem storeStream_sym (a : Nat) (vs : List (BitVec 8)) (s : State) : (storeStream a vs s).sym = s.sym := rfl
@[simp] theorem storeStream_code (a : Nat) (vs : List (BitVec 8)) (s : State) :
    (storeStream a vs s).code = s.code := rfl
@[simp] theorem storeStream_stream (a : Nat) (vs : List (BitVec 8)) (s : State) :
    (storeStream a vs s).stream = ramWriteSeq s.stream a vs := rfl
@[simp] theorem storeStream_engine (a : Nat) (vs : List (BitVec 8)) (s : State) :
    (storeStream a vs s).engine = s.engine := rfl
@[simp] theorem storeStream_prog (a : Nat) (vs : List (BitVec 8)) (s : State) :
    (storeStream a vs s).prog = s.prog := rfl
@[simp] theorem storeStream_pos (a : Nat) (vs : List (BitVec 8)) (s : State) : (storeStream a vs s).pos = s.pos := rfl
@[simp] theorem storeStream_hostData (a : Nat) (vs : List (BitVec 8)) (s : State) :
    (storeStream a vs s).hostData = s.hostData := rfl
@[simp] theorem storeStream_turns (a : Nat) (vs : List (BitVec 8)) (s : State) :
    (storeStream a vs s).turns = s.turns := rfl
@[simp] theorem storeStream_draws (a : Nat) (vs : List (BitVec 8)) (s : State) :
    (storeStream a vs s).draws = s.draws := rfl

/-! ### Work -/

@[simp] theorem Work.start_eng (w : Nat) (e : Engine) : (Work.start w e).eng = e := rfl
@[simp] theorem Work.start_out (w : Nat) (e : Engine) : (Work.start w e).out = [] := rfl
@[simp] theorem Work.start_hdr (w : Nat) (e : Engine) : (Work.start w e).hdr = none := rfl
@[simp] theorem Work.advance_eng {w : Nat} (n : Nat) (x : Work w) :
    (x.advance n).eng = { x.eng with i := x.eng.i + n } := rfl
@[simp] theorem Work.advance_out {w : Nat} (n : Nat) (x : Work w) : (x.advance n).out = x.out := rfl
@[simp] theorem Work.advance_hdr {w : Nat} (n : Nat) (x : Work w) : (x.advance n).hdr = x.hdr := rfl

end Sys2Proof.Machine
end

