-- ==== Sys2Proof/Laws/Ops.lean ====
section
/-! SUPPORT. What the shared operations can do: sequencing of bodies, put, put_seq, the ends of a command, decoding. -/

namespace Sys2Proof.Machine

/-! ### Sequencing -/

@[simp] theorem Res.andThen_ok {α : Type} (a : α) (k : α → Res α) : (Res.ok a).andThen k = k a := rfl
@[simp] theorem Res.andThen_err {α : Type} (e : ErrCode) (i : Nat) (a : α) (k : α → Res α) :
    (Res.err e i a).andThen k = .err e i a := rfl
@[simp] theorem Res.andThen_fault {α : Type} (f : Fault) (k : α → Res α) : (Res.fault f).andThen k = .fault f := rfl

/-- Sequencing is associative. -/
theorem Res.andThen_assoc {α : Type} (r : Res α) (k l : α → Res α) :
    (r.andThen k).andThen l = r.andThen fun a => (k a).andThen l := by
  cases r <;> rfl

/-- A sequence goes on exactly when both parts do. -/
theorem Res.andThen_eq_ok {α : Type} {r : Res α} {k : α → Res α} {b : α} :
    r.andThen k = .ok b ↔ ∃ a, r = .ok a ∧ k a = .ok b := by
  cases r <;> simp [Res.andThen]

/-- A sequence ends in an error in its first part or in its second. -/
theorem Res.andThen_eq_err {α : Type} {r : Res α} {k : α → Res α} {e : ErrCode} {i : Nat} {b : α} :
    r.andThen k = .err e i b ↔ r = .err e i b ∨ ∃ a, r = .ok a ∧ k a = .err e i b := by
  cases r <;> simp [Res.andThen]

/-- A sequence faults in its first part or in its second. -/
theorem Res.andThen_eq_fault {α : Type} {r : Res α} {k : α → Res α} {f : Fault} :
    r.andThen k = .fault f ↔ r = .fault f ∨ ∃ a, r = .ok a ∧ k a = .fault f := by
  cases r <;> simp [Res.andThen]

/-- The work a body has reached, whether it goes on or has raised an error. -/
def Reaches {α : Type} (r : Res α) (a : α) : Prop := r = .ok a ∨ ∃ e i, r = .err e i a

theorem Reaches.andThen {α : Type} {r : Res α} {k : α → Res α} {b : α} (h : Reaches (r.andThen k) b) :
    Reaches r b ∨ ∃ a, r = .ok a ∧ Reaches (k a) b := by
  cases r with
  | ok a => exact .inr ⟨a, rfl, h⟩
  | err e i a => exact .inl h
  | fault f => rcases h with h | ⟨e, i, h⟩ <;> cases h

/-! ### put and put_seq (R106, R107) -/

/-- put appends one element below the capacity and changes nothing else. -/
theorem put_eq_ok {w : Nat} {v : BitVec w} {idx : Nat} {x y : Work w} :
    put v idx x = .ok y ↔
      x.eng.o < x.eng.dc ∧ y = { x with eng := { x.eng with o := x.eng.o + 1 }, out := x.out ++ [v] } := by
  unfold put
  split
  · simp; omega
  · simp; constructor
    · rintro rfl; exact ⟨by omega, rfl⟩
    · rintro ⟨_, rfl⟩; rfl

/-- put fails exactly at the capacity, with DST_OVERFLOW and nothing changed. -/
theorem put_eq_err {w : Nat} {v : BitVec w} {idx i : Nat} {e : ErrCode} {x y : Work w} :
    put v idx x = .err e i y ↔ x.eng.dc ≤ x.eng.o ∧ e = .dstOverflow ∧ i = idx ∧ y = x := by
  unfold put
  split
  · simp; constructor
    · rintro ⟨rfl, rfl, rfl⟩; exact ⟨by assumption, rfl, rfl, rfl⟩
    · rintro ⟨_, rfl, rfl, rfl⟩; exact ⟨rfl, rfl, rfl⟩
  · simp; omega

/-- put never faults. -/
theorem put_ne_fault {w : Nat} {v : BitVec w} {idx : Nat} {x : Work w} {f : Fault} : put v idx x ≠ .fault f := by
  unfold put; split <;> simp

/-- putAll of a list that fits appends it whole. -/
theorem putAll_ok {w : Nat} (vs : List (BitVec w)) (idx : Nat) (x : Work w) (h : x.eng.o + vs.length ≤ x.eng.dc) :
    putAll vs idx x = .ok { x with eng := { x.eng with o := x.eng.o + vs.length }, out := x.out ++ vs } := by
  induction vs generalizing x with
  | nil => simp [putAll]
  | cons v rest ih =>
    simp only [List.length_cons] at h
    have hput : put v idx x = .ok { x with eng := { x.eng with o := x.eng.o + 1 }, out := x.out ++ [v] } :=
      put_eq_ok.2 ⟨by omega, rfl⟩
    rw [putAll, hput, Res.andThen_ok, ih _ (by show x.eng.o + 1 + rest.length ≤ x.eng.dc; omega)]
    simp [Nat.add_comm, Nat.add_left_comm]

/-- putSeq of a sequence that fits appends it whole. -/
theorem putSeq_ok {w : Nat} (t : List (BitVec w)) (idx : Nat) (x : Work w) (h : x.eng.o + t.length ≤ x.eng.dc) :
    putSeq t idx x = .ok { x with eng := { x.eng with o := x.eng.o + t.length }, out := x.out ++ t } := by
  unfold putSeq
  rw [if_neg (by omega)]

/-- putSeq of a sequence that does not fit changes nothing and ends with DST_OVERFLOW. -/
theorem putSeq_err {w : Nat} (t : List (BitVec w)) (idx : Nat) (x : Work w) (h : x.eng.dc < x.eng.o + t.length) :
    putSeq t idx x = .err .dstOverflow idx x := by
  unfold putSeq
  rw [if_pos (by omega)]

/-! ### What a body can do to the work: it only appends to the output, within the capacity -/

/-- `y` is `x` after more work of the same command: same opcode and snapshot, and output appended at the end, within the
capacity where anything was appended (R102, R106). -/
structure Grows {w : Nat} (x y : Work w) : Prop where
  op    : y.eng.op = x.eng.op
  snap  : y.eng.snap = x.eng.snap
  out   : ∃ l, y.out = x.out ++ l ∧ y.eng.o = x.eng.o + l.length ∧ (l ≠ [] → y.eng.o ≤ y.eng.dc)

theorem Grows.refl {w : Nat} (x : Work w) : Grows x x := ⟨rfl, rfl, [], by simp⟩

theorem Grows.trans {w : Nat} {x y z : Work w} (h : Grows x y) (k : Grows y z) : Grows x z := by
  obtain ⟨a1, a2, l, a3, a4, a5⟩ := h
  obtain ⟨b1, b2, l', b3, b4, b5⟩ := k
  refine ⟨b1.trans a1, b2.trans a2, l ++ l', by rw [b3, a3, List.append_assoc], by rw [b4, a4, List.length_append]; omega, ?_⟩
  intro hne
  by_cases hl' : l' = []
  · subst hl'
    have hl : l ≠ [] := by simpa using hne
    have : y.eng.dc = z.eng.dc := by simp [Engine.dc, b2]
    simp only [List.length_nil, Nat.add_zero] at b4
    rw [b4, ← this]
    exact a5 hl
  · exact b5 hl'

/-- A body step grows the work it reaches. -/
def GrowsAll {w : Nat} (k : Work w → Res (Work w)) : Prop := ∀ x y, Reaches (k x) y → Grows x y

theorem Grows.andThen {w : Nat} {r : Res (Work w)} {k : Work w → Res (Work w)} {x y : Work w}
    (hr : ∀ z, Reaches r z → Grows x z) (hk : GrowsAll k) (h : Reaches (r.andThen k) y) : Grows x y := by
  rcases h.andThen with h | ⟨z, hz, h⟩
  · exact hr y h
  · exact (hr z (.inl hz)).trans (hk z y h)

theorem grows_put {w : Nat} (v : BitVec w) (idx : Nat) : GrowsAll (put v idx) := by
  rintro x y (h | ⟨e, i, h⟩)
  · obtain ⟨hlt, rfl⟩ := put_eq_ok.1 h
    exact ⟨rfl, rfl, [v], rfl, rfl, fun _ => hlt⟩
  · obtain ⟨_, _, _, rfl⟩ := put_eq_err.1 h
    exact .refl _

theorem grows_putAll {w : Nat} (vs : List (BitVec w)) (idx : Nat) : GrowsAll (putAll vs idx) := by
  induction vs with
  | nil => rintro x y (h | ⟨e, i, h⟩) <;> cases h; exact .refl _
  | cons v rest ih => exact fun x y h => Grows.andThen (grows_put v idx x) ih h

theorem grows_putSeq {w : Nat} (t : List (BitVec w)) (idx : Nat) : GrowsAll (putSeq t idx) := by
  intro x y h
  by_cases hfit : x.eng.o + t.length ≤ x.eng.dc
  · rw [putSeq_ok t idx x hfit] at h
    rcases h with h | ⟨e, i, h⟩ <;> cases h
    exact ⟨rfl, rfl, t, rfl, rfl, fun _ => hfit⟩
  · rw [putSeq_err t idx x (by omega)] at h
    rcases h with h | ⟨e, i, h⟩ <;> cases h
    exact .refl _

/-- check_regions passes exactly when both regions fit, and changes nothing (R105). -/
theorem checkRegions_cases {w : Nat} (a b : Nat) (x : Work w) :
    (checkRegions a b x = .ok x ∧ x.eng.sb + x.eng.sl ≤ a ∧ x.eng.db + x.eng.dc ≤ b) ∨
      (checkRegions a b x = .err .range 0 x ∧ ¬ (x.eng.sb + x.eng.sl ≤ a ∧ x.eng.db + x.eng.dc ≤ b)) := by
  unfold checkRegions
  split
  · right; exact ⟨rfl, by omega⟩
  · split
    · right; exact ⟨rfl, by omega⟩
    · left; exact ⟨rfl, by omega, by omega⟩

theorem grows_checkRegions {w : Nat} (a b : Nat) : GrowsAll (checkRegions (w := w) a b) := by
  intro x y h
  rcases checkRegions_cases a b x with ⟨hc, _⟩ | ⟨hc, _⟩ <;> rw [hc] at h <;>
    rcases h with h | ⟨e, i, h⟩ <;> cases h <;> exact .refl _

/-! ### Decoding and issuing -/

/-- Decoding a command's word gives the command (R78, R80). -/
theorem decodeCmd_encode_of (op : Instr) : decodeCmd (encode op) = .ok op := by cases op <;> rfl

theorem State.busy_iff (s : State) : s.busy = true ↔ ∃ e, s.engine = some e := by
  unfold State.busy; exact Option.isSome_iff_exists

theorem State.busy_false_iff (s : State) : s.busy = false ↔ s.engine = none := by
  unfold State.busy; exact Option.isSome_eq_false_iff.trans Option.isNone_iff_eq_none

theorem State.issued_of_busy {s : State} (op : Instr) (h : s.busy = true) : s.issued op = s := by
  simp [State.issued, h]

theorem State.issued_of_idle {s : State} (op : Instr) (h : s.engine = none) :
    s.issued op =
      { s with cmd := encode op, done := false, error := false, errCode := 0#4, resultLen := 0#32, errIndex := 0#32
               engine := some (Engine.fresh op s.operands), draws := s.draws + 1 } := by
  have hb : s.busy = false := (State.busy_false_iff s).2 h
  simp only [State.issued, hb, State.writeCmd, decodeCmd_encode_of]
  rfl

theorem State.engineFor_of_some {s : State} {e : Engine} (op : Instr) (h : s.engine = some e) : s.engineFor op = e := by
  simp [State.engineFor, h]

theorem State.engineFor_of_none {s : State} (op : Instr) (h : s.engine = none) :
    s.engineFor op = Engine.fresh op s.operands := by
  simp [State.engineFor, h]

/-- Issuing a command changes neither the RAMs nor the part nor the operand registers. -/
theorem State.issued_kept (op : Instr) (s : State) :
    (s.issued op).cfg = s.cfg ∧ (s.issued op).sym = s.sym ∧ (s.issued op).code = s.code ∧
    (s.issued op).stream = s.stream ∧ (s.issued op).srcBase = s.srcBase ∧ (s.issued op).srcLen = s.srcLen ∧
    (s.issued op).dstBase = s.dstBase ∧ (s.issued op).dstCap = s.dstCap ∧ (s.issued op).rowWidth = s.rowWidth ∧
    (s.issued op).dictSize = s.dictSize ∧ (s.issued op).hdrCount = s.hdrCount ∧ (s.issued op).prog = s.prog ∧
    (s.issued op).pos = s.pos ∧ (s.issued op).hostData = s.hostData ∧ (s.issued op).turns = s.turns ∧
    (s.issued op).cmd = (if s.busy then s.cmd else encode op) := by
  cases hb : s.busy with
  | true => simp [State.issued_of_busy op hb]
  | false => simp [State.issued_of_idle op ((State.busy_false_iff s).1 hb)]

/-! ### The ends of a command -/

/-- Every next state of a command is the completion of R108 or the error of R203, on the work its body reached. -/
theorem runCommand_next {w : Nat} {op : Instr} {store : Nat → List (BitVec w) → State → State}
    {body : State → Engine → Res (Work w)} {s t : State} (h : runCommand op store body s = .next t) :
    ∃ x, Reaches (body (s.issued op) (s.engineFor op)) x ∧
      (t = (store ((s.engineFor op).db + (s.engineFor op).o) x.out (s.issued op)).complete op x ∨
       ∃ E i, t = (store ((s.engineFor op).db + (s.engineFor op).o) x.out (s.issued op)).raiseErr op E i x) := by
  unfold runCommand State.finish at h
  split at h
  · rename_i x hx
    cases h
    exact ⟨x, .inl hx, .inl rfl⟩
  · rename_i E i x hx
    cases h
    exact ⟨x, .inr ⟨E, i, hx⟩, .inr ⟨E, i, rfl⟩⟩
  · cases h

/-- A command faults exactly when its body does. -/
theorem runCommand_fault {w : Nat} {op : Instr} {store : Nat → List (BitVec w) → State → State}
    {body : State → Engine → Res (Work w)} {s : State} {f : Fault} :
    runCommand op store body s = .fault f ↔ body (s.issued op) (s.engineFor op) = .fault f := by
  unfold runCommand State.finish
  split <;> simp_all

/-- No command is refused. -/
theorem exec_ne_refused (i : Instr) (s : State) (r : Refusal) : exec i s ≠ .refused r := by
  cases i <;>
    simp only [exec, execEncode, execDecode, execPack, execUnpack, execCwrite, execCread, runCommand, State.finish] <;>
    split <;> simp

/-- RESULT_LEN of a body that appended something is its exact output count. -/
theorem Grows.resultLen {w : Nat} {x y : Work w} (h : Grows x y) (hne : y.out ≠ x.out) :
    (BitVec.ofNat 32 y.eng.o).toNat = y.eng.o ∧ y.eng.o ≤ y.eng.dc := by
  obtain ⟨_, _, l, h1, h2, h3⟩ := h
  have hl : l ≠ [] := by rintro rfl; exact hne (by simpa using h1)
  have hle := h3 hl
  have : y.eng.dc < 2 ^ 32 := y.eng.snap.dc.isLt
  exact ⟨by rw [BitVec.toNat_ofNat]; exact Nat.mod_eq_of_lt (by omega), hle⟩

end Sys2Proof.Machine
end

