-- ==== Sys2Proof/Laws/Bodies.lean ====
section
/-! SUPPORT. The six bodies: each only grows its output, and each walk over the source can be cut anywhere. -/

namespace Sys2Proof.Machine

theorem Reaches.of_ok {α : Type} {a b : α} (h : Reaches (.ok a) b) : b = a := by
  rcases h with h | ⟨_, _, h⟩ <;> cases h; rfl

theorem Reaches.of_err {α : Type} {a b : α} {e : ErrCode} {i : Nat} (h : Reaches (.err e i a) b) : b = a := by
  rcases h with h | ⟨_, _, h⟩ <;> cases h; rfl

theorem Reaches.of_fault {α : Type} {b : α} {f : Fault} (h : Reaches (α := α) (.fault f) b) : False := by
  rcases h with h | ⟨_, _, h⟩ <;> cases h

/-- A change of progress, dictionary, match or previous code that leaves output, opcode and snapshot alone grows nothing. -/
theorem Grows.of_same {w : Nat} {x y : Work w} (h1 : y.eng.op = x.eng.op) (h2 : y.eng.snap = x.eng.snap)
    (h3 : y.eng.o = x.eng.o) (h4 : y.out = x.out) : Grows x y := ⟨h1, h2, [], by simp [h3, h4]⟩

/-! ### ENCODE -/

theorem grows_encodeOpen (c : Config) : GrowsAll (encodeOpen c) := by
  intro x y h
  unfold encodeOpen at h
  split at h
  · exact h.of_ok ▸ .refl _
  · refine Grows.andThen (grows_checkRegions _ _ x) ?_ h
    intro z y h
    dsimp only at h
    split at h
    · exact h.of_err ▸ .refl _
    · exact h.of_ok ▸ .of_same rfl rfl rfl rfl

theorem grows_encodeWalk (c : Config) (sy : Symbol) : GrowsAll (encodeWalk c sy) := by
  intro x y h
  unfold encodeWalk at h
  split at h
  · exact h.of_fault.elim
  · exact h.of_ok ▸ .of_same rfl rfl rfl rfl
  · split at h
    · exact h.of_fault.elim
    · split at h
      · exact h.of_ok ▸ .of_same rfl rfl rfl rfl
      · refine Grows.andThen (grows_put _ _ x) ?_ h
        intro z y h
        exact h.of_ok ▸ .of_same rfl rfl rfl rfl

theorem grows_encodeLoop (c : Config) (src : List (Option Symbol)) : GrowsAll (encodeLoop c src) := by
  induction src with
  | nil => intro x y h; exact h.of_ok ▸ .refl _
  | cons a rest ih =>
    cases a with
    | none => intro x y h; exact h.of_fault.elim
    | some sy => exact fun x y h => Grows.andThen (grows_encodeWalk c sy x) ih h

theorem grows_encodeClose : GrowsAll encodeClose := by
  intro x y h
  unfold encodeClose at h
  split at h
  · exact h.of_fault.elim
  · exact grows_put _ _ x y h

theorem grows_encodePart (n : Nat) (s : State) (e : Engine) (y : Work 12) (h : Reaches (encodePart n s e) y) :
    Grows (Work.start 12 e) y :=
  Grows.andThen (grows_encodeOpen s.cfg _) (fun z y h => grows_encodeLoop _ _ z y h) h

theorem grows_encodeBody (s : State) (e : Engine) (y : Work 12) (h : Reaches (encodeBody s e) y) :
    Grows (Work.start 12 e) y :=
  Grows.andThen (fun z h => grows_encodePart _ s e z h) grows_encodeClose h

/-- ENCODE's walk can be cut anywhere. -/
theorem encodeLoop_append (c : Config) (l r : List (Option Symbol)) (x : Work 12) :
    encodeLoop c (l ++ r) x = (encodeLoop c l x).andThen (encodeLoop c r) := by
  induction l generalizing x with
  | nil => rfl
  | cons a rest ih =>
    cases a with
    | none => rfl
    | some sy =>
      simp only [List.cons_append, encodeLoop, Res.andThen_assoc]
      congr 1
      funext y
      exact ih y

/-! ### DECODE -/

theorem grows_decodeOpen (c : Config) : GrowsAll (decodeOpen c) := by
  intro x y h
  unfold decodeOpen at h
  split at h
  · exact h.of_ok ▸ .refl _
  · refine Grows.andThen (grows_checkRegions _ _ x) ?_ h
    intro z y h
    dsimp only at h
    split at h
    · exact h.of_err ▸ .refl _
    · exact h.of_ok ▸ .of_same rfl rfl rfl rfl

theorem grows_decodeWalk (c : Config) (k : Code) : GrowsAll (decodeWalk c k) := by
  intro x y h
  unfold decodeWalk at h
  split at h
  · exact h.of_fault.elim
  · unfold decodeFirst at h
    split at h
    · exact h.of_err ▸ .refl _
    · split at h
      · exact h.of_fault.elim
      · refine Grows.andThen (grows_putSeq _ _ x) ?_ h
        intro z y h
        exact h.of_ok ▸ .of_same rfl rfl rfl rfl
  · split at h
    · exact h.of_fault.elim
    · unfold decodeLater at h
      split at h
      · exact h.of_err ▸ .refl _
      · unfold decodeEmit at h
        split at h
        · exact h.of_fault.elim
        · refine Grows.andThen (grows_putSeq _ _ x) ?_ h
          intro z y h
          exact h.of_ok ▸ .of_same rfl rfl rfl rfl

theorem grows_decodeLoop (c : Config) (src : List (Option Code)) : GrowsAll (decodeLoop c src) := by
  induction src with
  | nil => intro x y h; exact h.of_ok ▸ .refl _
  | cons a rest ih =>
    cases a with
    | none => intro x y h; exact h.of_fault.elim
    | some k => exact fun x y h => Grows.andThen (grows_decodeWalk c k x) ih h

theorem grows_decodePart (n : Nat) (s : State) (e : Engine) (y : Work 8) (h : Reaches (decodePart n s e) y) :
    Grows (Work.start 8 e) y :=
  Grows.andThen (grows_decodeOpen s.cfg _) (fun z y h => grows_decodeLoop _ _ z y h) h

theorem grows_decodeBody (s : State) (e : Engine) (y : Work 8) (h : Reaches (decodeBody s e) y) :
    Grows (Work.start 8 e) y := grows_decodePart _ s e y h

/-- DECODE's walk can be cut anywhere. -/
theorem decodeLoop_append (c : Config) (l r : List (Option Code)) (x : Work 8) :
    decodeLoop c (l ++ r) x = (decodeLoop c l x).andThen (decodeLoop c r) := by
  induction l generalizing x with
  | nil => rfl
  | cons a rest ih =>
    cases a with
    | none => rfl
    | some k =>
      simp only [List.cons_append, decodeLoop, Res.andThen_assoc]
      congr 1
      funext y
      exact ih y

/-! ### PACK and CWRITE -/

/-- Writing some elements and moving on grows the output. -/
theorem grows_putAll_advance {w : Nat} (vs : List (BitVec w)) (idx n : Nat) :
    GrowsAll fun x => (putAll vs idx x).andThen fun y => .ok (y.advance n) := by
  intro x y h
  refine Grows.andThen (grows_putAll vs idx x) ?_ h
  intro z y h
  exact h.of_ok ▸ .of_same rfl rfl rfl rfl

theorem grows_packLoop (op : Instr) (src : List (Option Code)) : GrowsAll (packLoop op src) := by
  intro x y h
  induction src, x using packLoop.induct with
  | case1 x => exact h.of_ok ▸ .refl _
  | case2 x rest => exact h.of_fault.elim
  | case3 x c1 => exact grows_putAll_advance _ _ 1 x y h
  | case4 x c1 rest => exact h.of_fault.elim
  | case5 x c1 c2 rest ih =>
    rcases Reaches.andThen h with h | ⟨z, hz, h⟩
    · exact grows_putAll_advance _ _ 2 x y h
    · exact (grows_putAll_advance _ _ 2 x z (.inl hz)).trans (ih z h)

theorem grows_packOpen (c : Config) : GrowsAll (packOpen c) := by
  intro x y h
  refine Grows.andThen (grows_checkRegions _ _ x) ?_ h
  intro z y h
  dsimp only at h
  split at h
  · exact h.of_err ▸ .refl _
  · exact h.of_ok ▸ .refl _

theorem grows_packPart (n : Nat) (s : State) (e : Engine) (y : Work 8) (h : Reaches (packPart n s e) y) :
    Grows (Work.start 8 e) y :=
  Grows.andThen (grows_packOpen s.cfg _) (fun z y h => grows_packLoop _ _ z y h) h

theorem grows_packBody (s : State) (e : Engine) (y : Work 8) (h : Reaches (packBody s e) y) :
    Grows (Work.start 8 e) y := grows_packPart _ s e y h

theorem grows_cwriteOpen (c : Config) : GrowsAll (cwriteOpen c) := by
  intro x y h
  refine Grows.andThen (grows_checkRegions _ _ x) ?_ h
  intro z y h
  dsimp only at h
  split at h
  · exact h.of_err ▸ .refl _
  · split at h
    · exact grows_putAll _ _ z y h
    · exact h.of_ok ▸ .refl _

theorem grows_cwritePart (n : Nat) (s : State) (e : Engine) (y : Work 8) (h : Reaches (cwritePart n s e) y) :
    Grows (Work.start 8 e) y :=
  Grows.andThen (grows_cwriteOpen s.cfg _) (fun z y h => grows_packLoop _ _ z y h) h

theorem grows_cwriteBody (s : State) (e : Engine) (y : Work 8) (h : Reaches (cwriteBody s e) y) :
    Grows (Work.start 8 e) y := grows_cwritePart _ s e y h

/-! ### UNPACK and CREAD -/

theorem grows_unpackGroup (o0 o1 o2 : Option Byte) : GrowsAll (unpackGroup o0 o1 o2) := by
  intro x y h
  unfold unpackGroup at h
  split at h
  · exact h.of_fault.elim
  · exact grows_putAll_advance _ _ 3 x y h

theorem grows_unpackLoop (src : List (Option Byte)) : GrowsAll (unpackLoop src) := by
  intro x y h
  induction src, x using unpackLoop.induct with
  | case1 x o0 o1 o2 rest ih =>
    rcases Reaches.andThen h with h | ⟨z, hz, h⟩
    · exact grows_unpackGroup o0 o1 o2 x y h
    · exact (grows_unpackGroup o0 o1 o2 x z (.inl hz)).trans (ih z h)
  | case2 src x hne =>
    rw [unpackLoop.eq_2 _ _ hne] at h
    exact h.of_ok ▸ .refl _

theorem grows_unpackOpen (c : Config) : GrowsAll (unpackOpen c) := by
  intro x y h
  refine Grows.andThen (grows_checkRegions _ _ x) ?_ h
  intro z y h
  dsimp only at h
  split at h
  · exact h.of_err ▸ .refl _
  · split at h
    · exact h.of_err ▸ .refl _
    · exact h.of_ok ▸ .refl _

theorem grows_unpackPart (n : Nat) (s : State) (e : Engine) (y : Work 12) (h : Reaches (unpackPart n s e) y) :
    Grows (Work.start 12 e) y :=
  Grows.andThen (grows_unpackOpen s.cfg _) (fun z y h => grows_unpackLoop _ z y h) h

theorem grows_unpackBody (s : State) (e : Engine) (y : Work 12) (h : Reaches (unpackBody s e) y) :
    Grows (Work.start 12 e) y := grows_unpackPart _ s e y h

theorem grows_creadGroup (cnt : Nat) (o0 o1 o2 : Option Byte) : GrowsAll (creadGroup cnt o0 o1 o2) := by
  intro x y h
  unfold creadGroup at h
  split at h
  · exact h.of_fault.elim
  · exact grows_putAll_advance _ _ 3 x y h

theorem grows_creadLoop (cnt : Nat) (src : List (Option Byte)) : GrowsAll (creadLoop cnt src) := by
  intro x y h
  induction src, x using creadLoop.induct with
  | case1 x o0 o1 o2 rest ih =>
    rcases Reaches.andThen h with h | ⟨z, hz, h⟩
    · exact grows_creadGroup cnt o0 o1 o2 x y h
    · exact (grows_creadGroup cnt o0 o1 o2 x z (.inl hz)).trans (ih z h)
  | case2 src x hne =>
    rw [creadLoop.eq_2 _ _ _ hne] at h
    exact h.of_ok ▸ .refl _

theorem grows_creadCheck (cw rwd : Word) : GrowsAll (creadCheck cw rwd) := by
  intro x y h
  unfold creadCheck at h
  dsimp only at h
  split at h
  · exact h.of_err ▸ .of_same rfl rfl rfl rfl
  · split at h
    · exact h.of_err ▸ .of_same rfl rfl rfl rfl
    · exact h.of_ok ▸ .of_same rfl rfl rfl rfl

theorem grows_creadOpen (c : Config) (m : List (Nat × BitVec 8)) : GrowsAll (creadOpen c m) := by
  intro x y h
  refine Grows.andThen (grows_checkRegions _ _ x) ?_ h
  intro z y h
  dsimp only at h
  split at h
  · exact h.of_err ▸ .refl _
  · split at h
    · exact h.of_fault.elim
    · split at h
      · exact h.of_fault.elim
      · exact grows_creadCheck _ _ z y h

theorem grows_creadPart (n : Nat) (s : State) (e : Engine) (y : Work 12) (h : Reaches (creadPart n s e) y) :
    Grows (Work.start 12 e) y :=
  Grows.andThen (grows_creadOpen s.cfg _ _) (fun z y h => grows_creadLoop _ _ z y h) h

theorem grows_creadBody (s : State) (e : Engine) (y : Work 12) (h : Reaches (creadBody s e) y) :
    Grows (Work.start 12 e) y := grows_creadPart _ s e y h

end Sys2Proof.Machine
end

