-- ==== Sys2Proof/Laws/HostPort.lean ====
section
/-! SUPPORT. The address map at the addresses a host program uses, and the host's turn by the statement it makes. -/

namespace Sys2Proof.Machine

/-- Each register's address reaches that register (R30). -/
theorem decodeAddr_regAddr (r : Reg) : decodeAddr (regAddr r) = .reg r := by cases r <;> decide

/-- Clearing address bits 1:0 rounds down to a multiple of 4 (R61). -/
theorem alignedAddr_toNat (a : Word) : (a &&& 0xFFFFFFFC#32).toNat = a.toNat / 4 * 4 := by
  have h : a &&& 0xFFFFFFFC#32 = a >>> 2 <<< 2 := by
    ext i hi
    simp only [BitVec.getElem_and, BitVec.getElem_shiftLeft, BitVec.getElem_ushiftRight]
    interval_cases i <;> simp
  rw [h, BitVec.toNat_shiftLeft, BitVec.toNat_ushiftRight, Nat.shiftLeft_eq, Nat.shiftRight_eq_div_pow]
  have := a.isLt
  omega

/-- Each element's address reaches that element (R58). -/
theorem decodeAddr_elementAddr (m : RamId) (i : Nat) (h : i < Config.maxDepth) :
    decodeAddr (elementAddr m i) = .ram m i := by
  have h' : i < 4194304 := h
  have ha : (elementAddr m i &&& 0xFFFFFFFC#32).toNat = windowBase m + 4 * i := by
    rw [alignedAddr_toNat, elementAddr, BitVec.toNat_ofNat]
    have hb : windowBase m ≤ 0x03000000 ∧ windowBase m % 4 = 0 := by cases m <;> decide
    omega
  have hi : ∀ b, (b + 4 * i - b) / 4 = i := by intro b; omega
  rw [decodeAddr, ha]
  cases m
  · show targetOf (0x01000000 + 4 * i) = _
    rw [targetOf, if_neg (by omega), if_neg (by omega), if_pos (by omega), hi]
  · show targetOf (0x02000000 + 4 * i) = _
    rw [targetOf, if_neg (by omega), if_neg (by omega), if_neg (by omega), if_pos (by omega), hi]
  · show targetOf (0x03000000 + 4 * i) = _
    rw [targetOf, if_neg (by omega), if_neg (by omega), if_neg (by omega), if_neg (by omega), if_pos (by omega), hi]

/-- The host makes the statement at its position (R86). -/
theorem hostTurn_of_statement {s : State} {st : HostStmt} (h : s.prog[s.pos]? = some st) :
    hostTurn s = hostStatement st s := by rw [hostTurn, h]

/-- Past its program the host does nothing. -/
theorem hostTurn_of_none {s : State} (h : s.prog[s.pos]? = none) : hostTurn s = s := by rw [hostTurn, h]

/-- No statement of the host changes its program. -/
theorem hostTurn_prog (s : State) : (hostTurn s).prog = s.prog := by
  have hw : ∀ a d, (hostWrite a d s).prog = s.prog := by
    intro a d
    unfold hostWrite
    split
    · rfl
    · split
      · rename_i r _
        cases r <;> first | rfl | (simp only [State.writeReg, State.writeCmd]; split <;> rfl)
      · rename_i m _ _
        split
        · cases m <;> rfl
        · rfl
      · rfl
  have hr : ∀ a, (hostRead a s).2.prog = s.prog := by
    intro a
    unfold hostRead
    split
    · rfl
    · split
      · unfold State.readElement
        split
        · rfl
        · split <;> rfl
      · rfl
    · rfl
  unfold hostTurn
  split
  · rename_i st _
    cases st with
    | wr a v => exact hw _ _
    | rd a => exact hr _
    | bnz m t => rfl
    | halt => rfl
  · rfl

end Sys2Proof.Machine
end

