-- ==== Sys2Proof/Laws/Memory.lean ====
section
/-! SUPPORT. Every operation that writes a RAM keeps the canonical form of the three RAMs, and reset has it. -/

namespace Sys2Proof.Machine

theorem memoryWf_resetWith (c : Config) : Memory.wf (State.resetWith c) := by
  simp [Memory.wf, ramWf, State.resetWith]

theorem memoryWf_reset : Memory.wf State.reset := memoryWf_resetWith _

theorem memoryWf_storeSym {s : State} (h : Memory.wf s) (a : Nat) (vs : List (BitVec 8)) :
    Memory.wf (storeSym a vs s) := ⟨ramWf_ramWriteSeq h.1 a vs, h.2⟩

theorem memoryWf_storeCode {s : State} (h : Memory.wf s) (a : Nat) (vs : List (BitVec 12)) :
    Memory.wf (storeCode a vs s) := ⟨h.1, ramWf_ramWriteSeq h.2.1 a vs, h.2.2⟩

theorem memoryWf_storeStream {s : State} (h : Memory.wf s) (a : Nat) (vs : List (BitVec 8)) :
    Memory.wf (storeStream a vs s) := ⟨h.1, h.2.1, ramWf_ramWriteSeq h.2.2 a vs⟩

theorem memoryWf_writeElement {s : State} (h : Memory.wf s) (m : RamId) (i : Nat) (v : Word) :
    Memory.wf (s.writeElement m i v) := by
  cases m with
  | sym => exact ⟨ramWf_ramWrite h.1 _ _, h.2⟩
  | code => exact ⟨h.1, ramWf_ramWrite h.2.1 _ _, h.2.2⟩
  | stream => exact ⟨h.1, h.2.1, ramWf_ramWrite h.2.2 _ _⟩

/-- A CMD write changes no RAM. -/
theorem writeCmd_rams (v : Word) (s : State) :
    (s.writeCmd v).sym = s.sym ∧ (s.writeCmd v).code = s.code ∧ (s.writeCmd v).stream = s.stream := by
  simp only [State.writeCmd]
  split <;> exact ⟨rfl, rfl, rfl⟩

theorem memoryWf_writeReg {s : State} (h : Memory.wf s) (r : Reg) (v : Word) : Memory.wf (s.writeReg r v) := by
  cases r
  case cmd =>
    obtain ⟨h1, h2, h3⟩ := writeCmd_rams v s
    simpa only [State.writeReg, Memory.wf, h1, h2, h3] using h
  all_goals exact h

/-- A host write keeps the canonical form. -/
theorem memoryWf_hostWrite {s : State} (h : Memory.wf s) (a d : Word) : Memory.wf (hostWrite a d s) := by
  unfold hostWrite
  split
  · exact h
  · split
    · exact memoryWf_writeReg h _ _
    · split
      · exact memoryWf_writeElement h _ _ _
      · exact h
    · exact h

/-- Issuing a command keeps the canonical form. -/
theorem memoryWf_issued {s : State} (h : Memory.wf s) (op : Instr) : Memory.wf (s.issued op) := by
  obtain ⟨-, h1, h2, h3, -⟩ := State.issued_kept op s
  simpa only [Memory.wf, h1, h2, h3] using h

/-- A command keeps the canonical form, however it ends. -/
theorem memoryWf_exec {i : Instr} {s t : State} (h : Memory.wf s) (ht : exec i s = .next t) : Memory.wf t := by
  have hs := fun op => memoryWf_issued h op
  cases i <;> obtain ⟨x, -, rfl | ⟨E, idx, rfl⟩⟩ := runCommand_next ht
  all_goals first
    | exact memoryWf_storeCode (hs _) _ x.out
    | exact memoryWf_storeSym (hs _) _ x.out
    | exact memoryWf_storeStream (hs _) _ x.out

/-- The engine's work keeps the canonical form. -/
theorem memoryWf_advanceEngine {s : State} (h : Memory.wf s) : Memory.wf (advanceEngine s) := by
  unfold advanceEngine
  split
  · exact h
  · split <;> simp only [State.workOn] <;> split
    all_goals first
      | exact h
      | exact memoryWf_storeCode h _ _
      | exact memoryWf_storeSym h _ _
      | exact memoryWf_storeStream h _ _

end Sys2Proof.Machine
end

