-- ==== Sys2Proof/Laws/PerInstr.lean ====
section
/-! SUPPORT. Statements per instruction: each command's word is a legal command word (R75, R78, R79). -/

namespace Sys2Proof.Laws.EncodedWordLegal

/-- The word of a well-formed command has RSVD = 0 and an assigned OPCODE. -/
def Statement (i : Instr) : Prop := Instr.WellFormed i → commandWordOk (encode i) = true

theorem encode : Statement .encode := fun _ => rfl
theorem decode : Statement .decode := fun _ => rfl
theorem pack : Statement .pack := fun _ => rfl
theorem unpack : Statement .unpack := fun _ => rfl
theorem cwrite : Statement .cwrite := fun _ => rfl
theorem cread : Statement .cread := fun _ => rfl

end Sys2Proof.Laws.EncodedWordLegal
end

