-- ==== Sys2Proof/Tests/Slice0.lean ====
section
/-! SUPPORT. Tests against the vectors of 95_test_vectors.md, the smoke tests of WellFormed, and for every obligation with
hypotheses a witness that meets them all. -/

namespace Sys2Proof.Tests

set_option Elab.async false

open Sys2Proof.Machine Sys2Proof.Reference

/-! ### WellFormed refuses an ill-formed term for each check -/

theorem test_reserved_field_refused : reservedFieldOk 0x00000011#32 = false := by decide
theorem test_reserved_top_bit_refused : reservedFieldOk 0x80000001#32 = false := by decide
theorem test_opcode_zero_refused : opcodeFieldOk 0x00000000#32 = false := by decide
theorem test_opcode_seven_refused : opcodeFieldOk 0x00000007#32 = false := by decide
theorem test_command_word_accepted : commandWordOk 0x00000006#32 = true := by decide
theorem test_cap_below_seeds_refused :
    ({ maxEntries := 255, symDepth := 1, codeDepth := 1, streamDepth := 1 } : Config).wellFormed = false := by decide
theorem test_cap_above_code_space_refused :
    ({ maxEntries := 4097, symDepth := 1, codeDepth := 1, streamDepth := 1 } : Config).wellFormed = false := by decide
theorem test_sym_depth_zero_refused :
    ({ maxEntries := 4096, symDepth := 0, codeDepth := 1, streamDepth := 1 } : Config).wellFormed = false := by decide
theorem test_code_depth_too_large_refused :
    ({ maxEntries := 4096, symDepth := 1, codeDepth := 4194305, streamDepth := 1 } : Config).wellFormed = false := by decide
theorem test_stream_depth_zero_refused :
    ({ maxEntries := 4096, symDepth := 1, codeDepth := 1, streamDepth := 0 } : Config).wellFormed = false := by decide
theorem test_instructions_well_formed : ∀ i : Instr, i.WellFormed := by intro i; cases i <;> decide

/-! ### Decoding: each row's word, its 32 bits written out from R75 and R78 -/

theorem test_decode_encode : decodeCmd 0b00000000000000000000000000000001#32 = .ok .encode := by decide
theorem test_decode_decode : decodeCmd 0b00000000000000000000000000000010#32 = .ok .decode := by decide
theorem test_decode_pack : decodeCmd 0b00000000000000000000000000000011#32 = .ok .pack := by decide
theorem test_decode_unpack : decodeCmd 0b00000000000000000000000000000100#32 = .ok .unpack := by decide
theorem test_decode_cwrite : decodeCmd 0b00000000000000000000000000000101#32 = .ok .cwrite := by decide
theorem test_decode_cread : decodeCmd 0b00000000000000000000000000000110#32 = .ok .cread := by decide
theorem test_decode_opcode_eight : decodeCmd 0b00000000000000000000000000001000#32 = .error (.reservedOpcode 8) := by decide
theorem test_decode_reserved : decodeCmd 0b00000000000000000000000000010001#32 = .error (.reservedBits 1#28) := by decide
theorem test_table_rows : [1, 2, 3, 4, 5, 6].map (decodeTableWord 32) =
    [some .encode, some .decode, some .pack, some .unpack, some .cwrite, some .cread] := by decide
theorem test_table_no_row : decodeTableWord 32 7 = none := by decide

/-! ### Small states -/

/-- Elements `0, 1, …` of a RAM. -/
def cells (w : Nat) (vs : List Nat) : List (Nat × BitVec w) := ramWriteSeq [] 0 (vs.map (BitVec.ofNat w))

/-- An idle state after reset with the given RAM contents and operands. -/
def ready (sy co st : List Nat) (sl dc : Nat) (rw : Nat) : State :=
  { State.reset with
    sym := cells 8 sy, code := cells 12 co, stream := cells 8 st
    srcLen := BitVec.ofNat 32 sl, dstCap := BitVec.ofNat 32 dc, rowWidth := BitVec.ofNat 32 rw }

/-- The same with a small dictionary cap (95_test_vectors.md section 2.4). -/
def capped (cap : Nat) (s : State) : State := { s with cfg := { s.cfg with maxEntries := cap } }

def isNext {σ φ ρ : Type} (o : Host.Outcome σ φ ρ) : Bool :=
  match o with
  | .next _ => true
  | .fault _ => false
  | .refused _ => false

theorem exists_next {σ φ ρ : Type} {o : Host.Outcome σ φ ρ} (h : isNext o = true) : ∃ t, o = .next t := by
  cases o with
  | next t => exact ⟨t, rfl⟩
  | fault f => cases h
  | refused r => cases h

/-- STATUS, RESULT_LEN, DICT_SIZE, ERR_INDEX and the written elements of a command's next state. -/
def summary (op : Instr) (s : State) : Option (Nat × Nat × Nat × Nat × List (Option Nat)) :=
  match exec op s with
  | .next t => some (t.statusWord.toNat, t.resultLen.toNat, t.dictSize.toNat, t.errIndex.toNat,
      (List.range t.resultLen.toNat).map fun j => (t.element (destRam op) (s.dstBase.toNat + j)).map (·.toNat))
  | .fault _ => none
  | .refused _ => none

/-! ### One or two vectors a command (95_test_vectors.md) -/

/-- V-E1. -/
theorem test_encode_abcabc : summary .encode (ready [65, 66, 67, 65, 66, 67] [] [] 6 64 0) =
    some (0x2, 5, 260, 0, [some 65, some 66, some 67, some 256, some 67]) := by decide +kernel
/-- V-E13. -/
theorem test_encode_overflow : summary .encode (ready [65, 66, 67, 65, 66, 67] [] [] 6 3 0) =
    some (0x704, 3, 259, 5, [some 65, some 66, some 67]) := by decide +kernel
/-- V-D5: the not-yet-known code. -/
theorem test_decode_not_yet_known : summary .decode (ready [] [65, 66, 256, 258] [] 4 64 0) =
    some (0x2, 7, 259, 0, [some 65, some 66, some 65, some 66, some 65, some 66, some 65]) := by decide +kernel
/-- V-SAT10: the not-yet-known code of a full table. -/
theorem test_decode_saturated : summary .decode (capped 258 (ready [] [1, 256, 257, 258] [] 4 64 0)) =
    some (0x50C, 6, 258, 3, [some 1, some 1, some 1, some 1, some 1, some 1]) := by decide +kernel
/-- V-P1. -/
theorem test_pack_odd : summary .pack (ready [] [65, 66, 67, 256, 67] [] 5 64 0) =
    some (0x2, 9, 0, 0, [some 0x41, some 0x20, some 0x04, some 0x43, some 0x00, some 0x10, some 0x43, some 0, some 0]) := by
  decide +kernel
/-- V-U1. -/
theorem test_unpack : summary .unpack (ready [] [] [0x23, 0x61, 0x45, 0x12, 0x34, 0x56] 6 64 0) =
    some (0x2, 4, 0, 0, [some 0x123, some 0x456, some 0x412, some 0x563]) := by decide +kernel
/-- V-U7. -/
theorem test_unpack_truncated : summary .unpack (ready [] [] [1, 2, 3, 4, 5, 6, 7] 7 3 0) =
    some (0x304, 0, 0, 6, []) := by decide +kernel
/-- V-CW5. -/
theorem test_cwrite_negative_width : summary .cwrite (ready [] [4095, 2048] [] 2 64 0xFFFFFFFF) =
    some (0x2, 11, 0, 0, [some 2, some 0, some 0, some 0, some 255, some 255, some 255, some 255, some 255, some 0x0F,
      some 0x80]) := by decide +kernel
/-- V-CR11: padding 0xFFF, an extra group and a tail, all ignored. -/
theorem test_cread_ignores_rest :
    summary .cread (ready [] [] [1, 0, 0, 0, 2, 0, 0, 0, 7, 0xF0, 0xFF, 0xAA, 0xBB, 0xCC, 0xDD] 15 64 0) =
      some (0x2, 1, 0, 0, [some 7]) := by decide +kernel
/-- V-CR7: a negative count. -/
theorem test_cread_negative_count :
    summary .cread (ready [] [] [255, 255, 255, 255, 1, 0, 0, 0] 8 64 0) = some (0x404, 0, 0, 0, []) := by decide +kernel

/-- V-R7: the engine reads an unwritten element. -/
theorem test_unwritten_source_faults :
    (match exec .encode (ready [] [] [] 1 1 0) with
      | .fault f => decide (f = .unwrittenRead .encode .sym 0)
      | .next _ => false
      | .refused _ => false) = true := by decide +kernel

/-- V-PK12, V-PK13. -/
theorem test_unpack_function : unpackFirst 0x12#8 0x34#8 = 0x412#12 ∧ unpackSecond 0x34#8 0x56#8 = 0x563#12 ∧
    unpackFirst 0x00#8 0xF0#8 = 0x000#12 ∧ unpackSecond 0xF0#8 0x00#8 = 0x00F#12 := by decide

/-- V-H3: address bits 1:0 ignored, data cut to 8 bits. -/
theorem test_window_write : ramRead (hostWrite 0x01000001#32 0x0001FF41#32 State.reset).sym 0 = some 0x41#8 := by
  decide +kernel
/-- V-C3: an illegal word is still what CMD reads back. -/
theorem test_bad_command : (hostRead 0x004#32 (hostWrite 0x004#32 0x80000001#32 State.reset)).1 = 0x80000001#32 ∧
    (hostRead 0x008#32 (hostWrite 0x004#32 0x80000001#32 State.reset)).1 = 0x104#32 := by decide +kernel
/-- R87: the statement list of `poll` at statement 5. -/
theorem test_poll : poll 5 = [.rd 0x008#32, .bnz 0x1#32 5] := by decide
/-- R58, R86: `wr CODE[3], v` writes address 0x0200_000C. -/
theorem test_element_address : elementAddr .code 3 = 0x0200000C#32 := by decide

/-! ### Witnesses: states of the invariant -/

/-- An idle, clean state with canonical RAMs in range meets the invariant. -/
theorem inv_of_idle {s : State} (hc : s.cfg.wellFormed = true) (hm : Memory.wf s)
    (h1 : ∀ p ∈ s.sym, p.1 < s.cfg.symDepth) (h2 : ∀ p ∈ s.code, p.1 < s.cfg.codeDepth)
    (h3 : ∀ p ∈ s.stream, p.1 < s.cfg.streamDepth) (he : s.engine = none)
    (hs : s.error = false ∧ s.errCode = 0#4 ∧ s.dictSize = 0#13) : Inv s := by
  obtain ⟨he2, he3, he4⟩ := hs
  refine ⟨hc, hm, h1, h2, h3, ?_, .inl (by simp [he4]), by simp [he]⟩
  have hb : s.busy = false := (State.busy_false_iff s).2 he
  exact ⟨by simp [hb], by simp [hb], by simp [he2], by simp [he2, he3], by simp [he3]⟩

/-- A freshly accepted command in an otherwise clean state meets the invariant. -/
theorem inv_of_accepted {s : State} (op : Instr) (h : Inv s) (he : s.engine = none) : Inv (s.issued op) := by
  rw [State.issued_of_idle op he]
  refine ⟨h.part, h.memory, h.symRange, h.codeRange, h.streamRange, ?_, h.dictSize, ?_⟩
  · exact ⟨by simp, by simp, by simp, by simp, by simp⟩
  · rintro e he
    cases he
    refine ⟨rfl, rfl, rfl, rfl, ?_⟩
    constructor <;> simp [Engine.fresh]

/-- Six symbols to encode, or seven bytes to read, into a capacity of 16. -/
def abc : State := ready [65, 66, 67, 65, 66, 67] [65, 66, 67, 256, 67] [] 6 16 9
/-- Five codes and a capacity of 64. -/
def codes5 : State := ready [65, 66, 67, 65, 66, 67] [65, 66, 67, 256, 67] [] 5 64 6
/-- A Container of 17 bytes, V-CW1. -/
def container17 : State := ready [] [] [5, 0, 0, 0, 6, 0, 0, 0, 0x41, 0x20, 4, 0x43, 0, 0x10, 0x43, 0, 0] 17 16 0
/-- Six bytes of CodePacks, V-U1. -/
def packs6 : State := ready [] [] [0x23, 0x61, 0x45, 0x12, 0x34, 0x56] 6 64 0

theorem inv_abc : Inv abc :=
  inv_of_idle (by decide) (by decide +kernel) (by decide +kernel) (by decide +kernel) (by decide +kernel) rfl (by decide)
theorem inv_codes5 : Inv codes5 :=
  inv_of_idle (by decide) (by decide +kernel) (by decide +kernel) (by decide +kernel) (by decide +kernel) rfl (by decide)
theorem inv_container17 : Inv container17 :=
  inv_of_idle (by decide) (by decide +kernel) (by decide +kernel) (by decide +kernel) (by decide +kernel) rfl (by decide)
theorem inv_packs6 : Inv packs6 :=
  inv_of_idle (by decide) (by decide +kernel) (by decide +kernel) (by decide +kernel) (by decide +kernel) rfl (by decide)

/-- Change only operand registers of an idle state. -/
def withOperands (s : State) (sb sl db dc : Nat) : State :=
  { s with srcBase := BitVec.ofNat 32 sb, srcLen := BitVec.ofNat 32 sl, dstBase := BitVec.ofNat 32 db,
           dstCap := BitVec.ofNat 32 dc }

theorem inv_withOperands {s : State} (h : Inv s) (he : s.engine = none) (sb sl db dc : Nat) :
    Inv (withOperands s sb sl db dc) :=
  ⟨h.part, h.memory, h.symRange, h.codeRange, h.streamRange,
    ⟨h.status.busyNotDone, h.status.busyNotError, h.status.doneNotError, h.status.codeIffError, h.status.codeAssigned⟩,
    h.dictSize, fun e h' => by cases he.symm.trans h'⟩

/-- The same block with another host position and another CODE element. -/
def resetHost (s : State) : State := { s with pos := 9, code := cells 12 [1] }

theorem inv_resetHost : Inv (resetHost abc) :=
  inv_of_idle (by decide) (by decide +kernel) (by decide +kernel) (by decide +kernel) (by decide +kernel) rfl (by decide)

theorem starts_idle {s : State} (op : Instr) (he : s.engine = none) : Starts op s s.operands :=
  State.engineFor_of_none op he

/-! ### Witnesses: the host port, reset and the step -/

theorem witness_HeaderWordBytes : ∃ (w : Word) (m : List (Nat × BitVec 8)) (a : Nat),
    ramRange m a 4 = (le32Bytes w).map some :=
  ⟨0x80010203#32, ramWriteSeq [] 7 (le32Bytes 0x80010203#32), 7, by decide⟩

theorem witness_CmdWriteProcessing : abc.busy = false ∧ decodeCmd 0x6#32 = .ok .cread ∧
    decodeCmd 0x7#32 = .error (.reservedOpcode 7) ∧ (abc.issued .encode).busy = true := by decide

theorem witness_BadCommandEndsAtOnce : abc.busy = false ∧ (0x10#32).toNat / 16 ≠ 0 ∧ (0x0#32).toNat % 16 = 0 ∧
    7 ≤ (0x7#32).toNat % 16 := by decide

theorem witness_BusyWritesIgnored : ∃ s : State, s.busy = true := ⟨abc.issued .encode, by decide⟩

theorem witness_OperandRegistersReadBack : ∃ (s : State) (r r' : Reg), s.busy = false ∧
    (r = .srcBase ∨ r = .srcLen ∨ r = .dstBase ∨ r = .dstCap ∨ r = .rowWidth) ∧ r' ≠ r :=
  ⟨abc, .rowWidth, .cmd, by decide, by decide, by decide⟩

/-- Each kind of inert address at its first or last value. -/
theorem witness_ReservedSpaceIsInert :
    (0x030 ≤ (0x030#32).toNat ∧ (0x030#32).toNat < 0x01000000) ∧ (0x00FFFFFF#32).toNat < 0x01000000 ∧
    0x04000000 ≤ (0x04000000#32).toNat ∧
    (0x01000000 ≤ (0x01001000#32).toNat ∧ (0x01001000#32).toNat < 0x02000000 ∧
      State.reset.cfg.symDepth ≤ ((0x01001000#32).toNat - 0x01000000) / 4) ∧
    (0x02000000 ≤ (0x02FFFFFF#32).toNat ∧ (0x02FFFFFF#32).toNat < 0x03000000 ∧
      State.reset.cfg.codeDepth ≤ ((0x02FFFFFF#32).toNat - 0x02000000) / 4) ∧
    (0x03000000 ≤ (0x03FFFFFF#32).toNat ∧ (0x03FFFFFF#32).toNat < 0x04000000 ∧
      State.reset.cfg.streamDepth ≤ ((0x03FFFFFF#32).toNat - 0x03000000) / 4) ∧
    0x02C#32 ∈ [0x000#32, 0x008#32, 0x020#32, 0x024#32, 0x028#32, 0x02C#32] := by decide

theorem witness_AddressLowBitsIgnored : (0x01000001#32).toNat / 4 = (0x01000003#32).toNat / 4 := by decide

theorem witness_WindowWriteThenRead : abc.busy = false ∧ 1023 < 4194304 ∧ 1023 < abc.cfg.symDepth ∧
    1023 < abc.cfg.codeDepth ∧ 1023 < abc.cfg.streamDepth ∧ 0 ≠ 1023 := by decide

theorem witness_ReadsHaveNoSideEffect : abc.busy = false ∧
    (0x01000000 ≤ (0x01000000#32).toNat ∧ (0x01000000#32).toNat < 0x02000000) ∧
    (0x03000000 ≤ (0x03FFFFFF#32).toNat ∧ (0x03FFFFFF#32).toNat < 0x04000000) := by decide

theorem witness_ResetStepClearsBlock : ∃ (s : State) (ts : List Turn), s.turns = .reset :: ts ∧ s.busy = true :=
  ⟨{ abc.issued .encode with turns := [.reset, .host] }, [.host], rfl, by decide⟩

theorem witness_InvariantAfterReset :
    ({ maxEntries := 256, symDepth := 1, codeDepth := 1, streamDepth := 1 } : Config).wellFormed = true ∧
    ({ maxEntries := 4096, symDepth := 4194304, codeDepth := 4194304, streamDepth := 4194304 } : Config).wellFormed = true := by
  decide

theorem witness_StepKeepsInvariant : ∃ s t : State, Inv s ∧ step s = .next t := by
  refine ⟨abc.issued .encode, ?_⟩
  obtain ⟨t, ht⟩ := exists_next (o := step (abc.issued .encode)) (by decide +kernel)
  exact ⟨t, inv_of_accepted _ inv_abc rfl, ht⟩

theorem witness_StepRunsAcceptedCommand :
    (∃ (s : State) (e : Engine) (ts : List Turn), s.engine = some e ∧ s.turns = .engine :: ts) ∧
    (∃ (s : State) (e : Engine), s.engine = some e ∧ s.turns = []) ∧ decodeTableWord 32 6 = some .cread :=
  ⟨⟨{ abc.issued .pack with turns := [.engine] }, _, [], rfl, rfl⟩, ⟨abc.issued .pack, _, rfl, rfl⟩, by decide⟩

theorem witness_StepOfOtherAgents :
    (∃ s : State, s.turns = [.host]) ∧ (∃ s : State, s.turns = [.advance]) ∧
    (∃ s : State, s.turns = [.engine] ∧ s.engine = none) ∧ (∃ s : State, s.turns = [] ∧ s.engine = none) :=
  ⟨⟨{ abc with turns := [.host] }, rfl⟩, ⟨{ abc with turns := [.advance] }, rfl⟩,
    ⟨{ abc with turns := [.engine] }, rfl, rfl⟩, ⟨abc, rfl, rfl⟩⟩

/-- V-R7. -/
theorem witness_StopsOnlyOnUnwrittenSource : ∃ (s : State) (f : Fault), Inv s ∧ step s = .fault f :=
  ⟨(withOperands abc 0 7 0 16).issued .encode, .unwrittenRead .encode .sym 6,
    inv_of_accepted _ (inv_withOperands inv_abc rfl _ _ _ _) rfl, rfl⟩

theorem witness_RunningCommandEnds : ∃ (s : State) (e : Engine), Inv s ∧ s.engine = some e ∧
    (∀ a, e.sb ≤ a → a < e.sb + e.sl → s.element (sourceRam e.op) a ≠ none) ∧ s.turns = [] := by
  refine ⟨abc.issued .encode, _, inv_of_accepted _ inv_abc rfl, rfl, ?_, rfl⟩
  intro a _ h
  have h' : a < 6 := h
  have : ∀ b, b < 6 → (abc.issued .encode).element .sym b ≠ none := by decide +kernel
  exact this a h'

theorem witness_WorkingOnIsUnobservableInResult : ∃ (s : State) (e : Engine), s.engine = some e :=
  ⟨abc.issued .encode, _, rfl⟩

theorem witness_ProgressIsInvisible : ∃ s : State, s.busy = true := ⟨advanceEngine (abc.issued .encode), by decide +kernel⟩

theorem witness_HostCannotDisturbCommand : ∃ (s : State) (e : Engine), s.engine = some e ∧
    ∃ t, exec e.op s = .next t := by
  obtain ⟨t, ht⟩ := exists_next (o := exec .encode { abc.issued .encode with prog := [.wr 0x010#32 (.imm 2#32)] })
    (by decide +kernel)
  exact ⟨{ abc.issued .encode with prog := [.wr 0x010#32 (.imm 2#32)] }, Engine.fresh .encode abc.operands, rfl, t, ht⟩

theorem witness_OutcomeDependsOnlyOnOperandsAndSource : ∃ (s u : State) (sn : Snapshot), Inv s ∧ Inv u ∧ s.cfg = u.cfg ∧
    s.engine = some (Engine.fresh .encode sn) ∧ u.engine = some (Engine.fresh .encode sn) ∧ s ≠ u ∧
    ∀ a, sn.sb.toNat ≤ a → a < sn.sb.toNat + sn.sl.toNat →
      s.element (sourceRam .encode) a = u.element (sourceRam .encode) a :=
  ⟨abc.issued .encode, (resetHost abc).issued .encode, abc.operands, inv_of_accepted _ inv_abc rfl,
    inv_of_accepted _ inv_resetHost rfl, rfl, rfl, rfl, by decide +kernel, fun _ _ _ => rfl⟩

/-- The same for CREAD's clause. -/
theorem witness_OutcomeDependsOnlyOnOperandsAndSource_cread :
    (container17.issued .cread).engine = some (Engine.fresh .cread container17.operands) ∧
    Fits container17.cfg .cread container17.operands ∧ 8 ≤ container17.operands.sl.toNat := by
  refine ⟨rfl, ?_, by decide⟩
  unfold Fits regionsFit
  decide

/-! ### Witnesses: errors every command shares -/

/-- R105 at the first length that does not fit, and at the last that does. -/
theorem witness_RangeEndsEveryCommand : ∃ (s : State) (op : Instr) (sn : Snapshot), Inv s ∧
    s.engine = some (Engine.fresh op sn) ∧ ¬ Fits s.cfg op sn :=
  ⟨(withOperands abc 1025 0 0 0).issued .encode, .encode, _,
    inv_of_accepted _ (inv_withOperands inv_abc rfl _ _ _ _) rfl, rfl, by unfold Fits regionsFit; decide⟩

theorem witness_EmptyInputEndsCodecCommands : ∃ (s : State) (sn : Snapshot), Inv s ∧ Starts .decode s sn ∧
    Starts .encode s sn ∧ Fits s.cfg .decode sn ∧ Fits s.cfg .encode sn ∧ sn.sl = 0#32 :=
  ⟨withOperands abc 1024 0 1024 0, _, inv_withOperands inv_abc rfl _ _ _ _, rfl, rfl, by unfold Fits regionsFit; decide,
    by unfold Fits regionsFit; decide, rfl⟩

theorem witness_EveryEndLeavesBlockReady : ∃ (s t : State) (op : Instr), Inv s ∧ exec op s = .next t := by
  obtain ⟨t, ht⟩ := exists_next (o := exec .encode (withOperands abc 0 6 0 3)) (by decide +kernel)
  exact ⟨_, t, .encode, inv_withOperands inv_abc rfl _ _ _ _, ht⟩

/-! ### Witnesses: ENCODE -/

/-- The six symbols "ABCABC". -/
def abcSymbols : List Symbol := [65#8, 66#8, 67#8, 65#8, 66#8, 67#8]

theorem abc_source : ramRange abc.sym abc.operands.sb.toNat abcSymbols.length = abcSymbols.map some := by decide +kernel

theorem abc_fits : Fits abc.cfg .encode abc.operands := by unfold Fits regionsFit; decide

theorem witness_EncodeWritesGreedyCodes : Inv abc ∧ Starts .encode abc abc.operands ∧
    Fits abc.cfg .encode abc.operands ∧ abcSymbols ≠ [] ∧ abcSymbols.length = abc.operands.sl.toNat ∧
    ramRange abc.sym abc.operands.sb.toNat abcSymbols.length = abcSymbols.map some ∧
    (greedyCodes abc.cfg.maxEntries abcSymbols).length ≤ abc.operands.dc.toNat :=
  ⟨inv_abc, rfl, abc_fits, by decide, by decide, abc_source, by decide +kernel⟩

/-- The reference itself gives the codes of V-E1. -/
theorem test_greedy_reference : greedyCodes 4096 abcSymbols = [65#12, 66#12, 67#12, 256#12, 67#12] := by decide +kernel

/-- V-E14: a capacity of 4 for 5 codes. -/
theorem witness_EncodeOverflowsAtEmission : ∃ (s : State) (sn : Snapshot), Inv s ∧ Starts .encode s sn ∧
    Fits s.cfg .encode sn ∧ abcSymbols ≠ [] ∧ abcSymbols.length = sn.sl.toNat ∧
    ramRange s.sym sn.sb.toNat abcSymbols.length = abcSymbols.map some ∧
    sn.dc.toNat < (greedyCodes s.cfg.maxEntries abcSymbols).length :=
  ⟨withOperands abc 0 6 0 4, _, inv_withOperands inv_abc rfl _ _ _ _, rfl, by unfold Fits regionsFit; decide, by decide,
    by decide, by decide +kernel, by decide +kernel⟩

theorem witness_EncodeOutputBounds : Inv abc ∧ Starts .encode abc abc.operands ∧ Fits abc.cfg .encode abc.operands ∧
    abcSymbols ≠ [] ∧ abcSymbols.length = abc.operands.sl.toNat ∧
    ramRange abc.sym abc.operands.sb.toNat abcSymbols.length = abcSymbols.map some ∧
    abc.operands.sl.toNat ≤ abc.operands.dc.toNat :=
  ⟨inv_abc, rfl, abc_fits, by decide, by decide, abc_source, by decide⟩

theorem witness_EncodeCoversInput : ∃ x : Work 12, Inv abc ∧ abcSymbols.length = abc.operands.sl.toNat ∧
    ramRange abc.sym abc.operands.sb.toNat abcSymbols.length = abcSymbols.map some ∧
    encodeBody abc (Engine.fresh .encode abc.operands) = .ok x := by
  have h : (match encodeBody abc (Engine.fresh .encode abc.operands) with
    | .ok _ => true
    | .err _ _ _ => false
    | .fault _ => false) = true := by decide +kernel
  split at h
  · rename_i x hx
    exact ⟨x, inv_abc, by decide, abc_source, hx⟩
  · cases h
  · cases h

/-- V-E4: four different symbols. -/
theorem witness_NoRepeatedPairEncodesLiterally : ∃ (s : State) (sn : Snapshot) (xs : List Symbol), Inv s ∧
    Starts .encode s sn ∧ Fits s.cfg .encode sn ∧ xs ≠ [] ∧ xs.length = sn.sl.toNat ∧
    ramRange s.sym sn.sb.toNat xs.length = xs.map some ∧ sn.sl.toNat ≤ sn.dc.toNat ∧ (xs.zip xs.tail).Nodup :=
  ⟨withOperands abc 0 3 0 4, _, [65#8, 66#8, 67#8], inv_withOperands inv_abc rfl _ _ _ _, rfl,
    by unfold Fits regionsFit; decide, by decide, by decide, by decide +kernel, by decide, by decide⟩

theorem witness_EncodeFrame : ∃ t, exec .encode abc = .next t := exists_next (by decide +kernel)

/-! ### Witnesses: DECODE -/

/-- The codes of V-D1. -/
def abcCodes : List Code := [65#12, 66#12, 67#12, 256#12, 67#12]

theorem codes5_fits : Fits codes5.cfg .decode codes5.operands := by unfold Fits regionsFit; decide

theorem witness_DecodeWritesTranslations : Inv codes5 ∧ Starts .decode codes5 codes5.operands ∧
    Fits codes5.cfg .decode codes5.operands ∧ abcCodes ≠ [] ∧ abcCodes.length = codes5.operands.sl.toNat ∧
    ramRange codes5.code codes5.operands.sb.toNat abcCodes.length = abcCodes.map some ∧
    (∀ i, i < abcCodes.length → Accepted codes5.cfg.maxEntries abcCodes i) ∧
    (transAll abcCodes abcCodes.length).length ≤ codes5.operands.dc.toNat :=
  ⟨inv_codes5, rfl, codes5_fits, by decide, by decide, by decide +kernel,
    by unfold Accepted; decide +kernel, by decide +kernel⟩

/-- The reference itself gives the symbols of V-D5, the not-yet-known code included. -/
theorem test_translation_reference : transAll [65#12, 66#12, 256#12, 258#12] 4 =
    [65#8, 66#8, 65#8, 66#8, 65#8, 66#8, 65#8] := by decide +kernel

/-- The last acceptable code at index 3 is 258; with MAX_ENTRIES = 258 that code is no longer acceptable. -/
theorem test_acceptance_boundary : Accepted 4096 [1#12, 256#12, 257#12, 258#12] 3 ∧
    ¬ Accepted 258 [1#12, 256#12, 257#12, 258#12] 3 ∧ ¬ Accepted 4096 [65#12, 257#12] 1 ∧ ¬ Accepted 4096 [256#12] 0 := by
  unfold Accepted; decide

/-- V-C10 shape: the second code is one too large, at index 1, and a first code that is no literal, at index 0. -/
theorem witness_DecodeStopsAtInvalidCode :
    (∃ (s : State) (sn : Snapshot) (cs : List Code), Inv s ∧ Starts .decode s sn ∧ Fits s.cfg .decode sn ∧
      cs.length = 1 + 1 ∧ 1 < sn.sl.toNat ∧ ramRange s.code sn.sb.toNat cs.length = cs.map some ∧
      (∀ j, j < 1 → Accepted s.cfg.maxEntries cs j) ∧ ¬ Accepted s.cfg.maxEntries cs 1 ∧
      (transAll cs 1).length ≤ sn.dc.toNat) ∧
    (∃ (s : State) (sn : Snapshot) (cs : List Code), Inv s ∧ Starts .decode s sn ∧ Fits s.cfg .decode sn ∧
      cs.length = 0 + 1 ∧ 0 < sn.sl.toNat ∧ ramRange s.code sn.sb.toNat cs.length = cs.map some ∧
      (∀ j, j < 0 → Accepted s.cfg.maxEntries cs j) ∧ ¬ Accepted s.cfg.maxEntries cs 0 ∧
      (transAll cs 0).length ≤ sn.dc.toNat) := by
  constructor
  · refine ⟨ready [] [65, 257] [] 2 1 0, _, [65#12, 257#12], ?_, rfl, by unfold Fits regionsFit; decide, rfl, by decide,
      by decide +kernel, by unfold Accepted; decide, by unfold Accepted; decide, by decide +kernel⟩
    exact inv_of_idle (by decide) (by decide +kernel) (by decide +kernel) (by decide +kernel) (by decide +kernel) rfl
      (by decide)
  · refine ⟨withOperands codes5 3 2 0 0, _, [256#12], inv_withOperands inv_codes5 rfl _ _ _ _, rfl,
      by unfold Fits regionsFit; decide, rfl, by decide, by decide +kernel, by unfold Accepted; decide,
      by unfold Accepted; decide, by decide +kernel⟩

/-- V-D12: "AB" does not fit in the one element left. -/
theorem witness_DecodeOverflowsWholeTranslation : ∃ (s : State) (sn : Snapshot) (cs : List Code), Inv s ∧
    Starts .decode s sn ∧ Fits s.cfg .decode sn ∧ cs.length = 3 + 1 ∧ 3 < sn.sl.toNat ∧
    ramRange s.code sn.sb.toNat cs.length = cs.map some ∧ (∀ j, j ≤ 3 → Accepted s.cfg.maxEntries cs j) ∧
    (transAll cs 3).length ≤ sn.dc.toNat ∧ sn.dc.toNat < (transAll cs (3 + 1)).length := by
  refine ⟨withOperands codes5 0 5 0 4, _, [65#12, 66#12, 67#12, 256#12], inv_withOperands inv_codes5 rfl _ _ _ _, rfl,
    by unfold Fits regionsFit; decide, rfl, by decide, by decide +kernel, ?_, by decide +kernel, by decide +kernel⟩
  intro j hj
  have : ∀ j, j < 4 → Accepted 4096 [65#12, 66#12, 67#12, 256#12] j := by unfold Accepted; decide
  exact this j (by omega)

theorem witness_DecodeFrame : ∃ t, exec .decode codes5 = .next t := exists_next (by decide +kernel)

/-- A condition on the next state of a command, evaluated. -/
def nextIs {σ φ ρ : Type} (o : Host.Outcome σ φ ρ) (p : σ → Bool) : Bool :=
  match o with
  | .next t => p t
  | .fault _ => false
  | .refused _ => false

theorem exists_next_of {σ φ ρ : Type} {o : Host.Outcome σ φ ρ} {p : σ → Bool} (h : nextIs o p = true) :
    ∃ t, o = .next t ∧ p t = true := by
  cases o with
  | next t => exact ⟨t, rfl, h⟩
  | fault f => cases h
  | refused r => cases h

theorem witness_LzwRoundTrip : ∃ (t : State) (db2 dc2 : Word), Inv abc ∧ Starts .encode abc abc.operands ∧
    abcSymbols.length = abc.operands.sl.toNat ∧
    ramRange abc.sym abc.operands.sb.toNat abcSymbols.length = abcSymbols.map some ∧
    exec .encode abc = .next t ∧ t.done = true ∧ db2.toNat + dc2.toNat ≤ abc.cfg.symDepth ∧
    abcSymbols.length ≤ dc2.toNat := by
  obtain ⟨t, h1, h2⟩ := exists_next_of (o := exec .encode abc) (p := fun t => t.done) (by decide +kernel)
  exact ⟨t, 1018#32, 6#32, inv_abc, rfl, by decide, abc_source, h1, h2, by decide, by decide⟩

theorem witness_MirroredTables : ∃ (x : Work 12) (y : Work 8), Inv abc ∧ Inv codes5 ∧
    abc.cfg.maxEntries = codes5.cfg.maxEntries ∧ encodeBody abc (Engine.fresh .encode abc.operands) = .ok x ∧
    x.out.length = codes5.operands.sl.toNat ∧
    ramRange codes5.code codes5.operands.sb.toNat x.out.length = x.out.map some ∧
    decodeBody codes5 (Engine.fresh .decode codes5.operands) = .ok y := by
  have h : (match encodeBody abc (Engine.fresh .encode abc.operands) with
    | .ok x => decide (x.out = abcCodes)
    | .err _ _ _ => false
    | .fault _ => false) = true := by decide +kernel
  have k : (match decodeBody codes5 (Engine.fresh .decode codes5.operands) with
    | .ok _ => true
    | .err _ _ _ => false
    | .fault _ => false) = true := by decide +kernel
  split at h
  · rename_i x hx
    split at k
    · rename_i y hy
      have hout : x.out = abcCodes := by simpa using h
      refine ⟨x, y, inv_abc, inv_codes5, rfl, hx, ?_, ?_, hy⟩
      · rw [hout]; decide
      · rw [hout]; decide +kernel
    · cases k
    · cases k
  · cases h
  · cases h

/-! ### Witnesses: the dictionary -/

/-- The table of V-T2 before its last insert, full at a cap of 259 and with room for one at 260. -/
def abcTable : Dict := { learned := [[65#8, 66#8], [66#8, 67#8], [67#8, 65#8]] }

theorem witness_DictionaryOperations : lookupSeq abcTable [66#8, 67#8] = some 257 ∧
    lookupSeq abcTable [65#8, 66#8, 67#8] = none ∧ dictCount abcTable < 260 ∧ 259 ≤ dictCount abcTable ∧
    255 < 256 := by decide +kernel

/-- ENCODE of "ABCABC" after five source symbols. -/
def midway : State := advanceEngine (advanceEngine (advanceEngine (advanceEngine (advanceEngine (abc.issued .encode)))))

theorem midway_engine : midway.engine =
    some { op := .encode, snap := abc.operands, i := 5, o := 3, dict := some abcTable, cur := some 256#12, prev := none } := by
  decide +kernel

theorem inv_midway : Inv midway := by
  have hs : ∀ e, midway.engine = some e →
      e = { op := .encode, snap := abc.operands, i := 5, o := 3, dict := some abcTable, cur := some 256#12, prev := none } := by
    intro e he
    rw [midway_engine] at he
    exact (Option.some.inj he).symm
  refine ⟨by decide +kernel, by decide +kernel, by decide +kernel, by decide +kernel, by decide +kernel, ?_, ?_, ?_⟩
  · exact ⟨by decide +kernel, by decide +kernel, by decide +kernel, by decide +kernel, by decide +kernel⟩
  · exact .inl (by decide +kernel)
  · intro e he
    have := hs e he
    subst this
    refine ⟨by decide +kernel, by decide +kernel, by decide +kernel, by decide +kernel, ?_⟩
    refine ⟨by decide, by decide, by decide, ?_, ?_, by decide, ?_, by decide, ?_, by decide, by simp, by decide⟩
    · rintro d hd
      cases hd
      refine ⟨by decide +kernel, ?_⟩
      intro j t ht
      have hj : j < 3 := by
        have := (List.getElem?_eq_some_iff.1 ht).1
        simpa [abcTable] using this
      interval_cases j
      · cases ht; exact ⟨65, [65#8], 66#8, by decide, by decide, rfl⟩
      · cases ht; exact ⟨66, [66#8], 67#8, by decide, by decide, rfl⟩
      · cases ht; exact ⟨67, [67#8], 65#8, by decide, by decide, rfl⟩
    · intro _
      unfold regionsFit
      decide
    · rintro d _ hd
      cases hd
      decide
    · rintro d k hd hk
      cases hd
      cases hk
      decide

theorem witness_TableEntriesDistinctAndBounded : ∃ (s : State) (e : Engine) (d : Dict), Inv s ∧ s.engine = some e ∧
    e.dict = some d ∧ e.op = .encode ∧ lookupCode d 258 = some [67#8, 65#8] ∧ 256 ≤ 258 :=
  ⟨midway, _, abcTable, inv_midway, midway_engine, rfl, rfl, by decide, by decide⟩

theorem witness_TableOnlyAppends : ∃ (s : State) (e : Engine) (d : Dict), s.engine = some e ∧ e.dict = some d :=
  ⟨midway, _, abcTable, midway_engine, rfl⟩

/-! ### Witnesses: the framing commands -/

/-- Any command accepted with any operands on one of the small states. -/
theorem running (op : Instr) {s : State} (h : Inv s) (he : s.engine = none) :
    Inv (s.issued op) ∧ (s.issued op).engine = some (Engine.fresh op s.operands) := by
  refine ⟨inv_of_accepted _ h he, ?_⟩
  rw [State.issued_of_idle _ he]

/-- Every state the witnesses of the framing commands name runs its command and meets the invariant. -/
theorem witness_framing_states : ∀ sb sl db dc op,
    (Inv ((withOperands codes5 sb sl db dc).issued op) ∧ ((withOperands codes5 sb sl db dc).issued op).engine =
      some (Engine.fresh op (withOperands codes5 sb sl db dc).operands)) ∧
    (Inv ((withOperands packs6 sb sl db dc).issued op) ∧ ((withOperands packs6 sb sl db dc).issued op).engine =
      some (Engine.fresh op (withOperands packs6 sb sl db dc).operands)) ∧
    (Inv ((withOperands container17 sb sl db dc).issued op) ∧ ((withOperands container17 sb sl db dc).issued op).engine =
      some (Engine.fresh op (withOperands container17 sb sl db dc).operands)) :=
  fun _ _ _ _ op => ⟨running op (inv_withOperands inv_codes5 rfl _ _ _ _) rfl,
    running op (inv_withOperands inv_packs6 rfl _ _ _ _) rfl, running op (inv_withOperands inv_container17 rfl _ _ _ _) rfl⟩

/-- V-P5 shape: each clause at a boundary: a region one element too long, 5 and 6 bytes for two packs. -/
theorem witness_PackWritesCodePacks :
    ¬ Fits codes5.cfg .pack (withOperands codes5 0 1025 0 0).operands ∧
    (Fits codes5.cfg .pack (withOperands codes5 0 3 0 5).operands ∧
      (withOperands codes5 0 3 0 5).operands.dc.toNat < 3 * ((3 + 1) / 2)) ∧
    (Fits codes5.cfg .pack (withOperands codes5 0 3 0 6).operands ∧
      3 * ((3 + 1) / 2) ≤ (withOperands codes5 0 3 0 6).operands.dc.toNat ∧
      ramRange codes5.code 0 3 = [65#12, 66#12, 67#12].map some) := by
  unfold Fits regionsFit
  decide +kernel

/-- V-U5, V-U6 shape: a region too long, a partial group, 3 and 4 codes for two groups. -/
theorem witness_UnpackWritesCodes :
    ¬ Fits packs6.cfg .unpack (withOperands packs6 1019 6 0 0).operands ∧
    (Fits packs6.cfg .unpack (withOperands packs6 0 5 0 64).operands ∧
      (withOperands packs6 0 5 0 64).operands.sl.toNat % 3 ≠ 0) ∧
    (Fits packs6.cfg .unpack (withOperands packs6 0 6 0 3).operands ∧
      (withOperands packs6 0 6 0 3).operands.dc.toNat < 2 * (6 / 3)) ∧
    (Fits packs6.cfg .unpack (withOperands packs6 0 6 0 4).operands ∧
      2 * (6 / 3) ≤ (withOperands packs6 0 6 0 4).operands.dc.toNat ∧
      ramRange packs6.stream 0 6 = [0x23#8, 0x61#8, 0x45#8, 0x12#8, 0x34#8, 0x56#8].map some) := by
  unfold Fits regionsFit
  decide +kernel

/-- V-CW6 shape: a region too long, 13 and 14 bytes for a Container of 14. -/
theorem witness_CwriteWritesContainer :
    ¬ Fits codes5.cfg .cwrite (withOperands codes5 0 3 1011 14).operands ∧
    (Fits codes5.cfg .cwrite (withOperands codes5 0 3 0 13).operands ∧
      (withOperands codes5 0 3 0 13).operands.dc.toNat < 8 + 3 * ((3 + 1) / 2)) ∧
    (Fits codes5.cfg .cwrite (withOperands codes5 0 3 0 14).operands ∧
      8 + 3 * ((3 + 1) / 2) ≤ (withOperands codes5 0 3 0 14).operands.dc.toNat ∧
      ramRange codes5.code 0 3 = [65#12, 66#12, 67#12].map some) := by
  unfold Fits regionsFit
  decide +kernel

theorem witness_CreadWritesDeclaredCodes : ∃ bs : List Byte,
    Fits container17.cfg .cread (withOperands container17 0 17 0 5).operands ∧
    8 ≤ (17#32).toNat ∧ (5#32).toNat < 2 ^ 31 ∧ (5#32).toNat ≤ 2 * (((17#32).toNat - 8) / 3) ∧
    (5#32).toNat ≤ (withOperands container17 0 17 0 5).operands.dc.toNat ∧ bs.length = 3 * (((5#32).toNat + 1) / 2) ∧
    ramRange container17.stream 0 (8 + bs.length) = (wordBytes 5#32 ++ wordBytes 6#32 ++ bs).map some :=
  ⟨[0x41#8, 0x20#8, 4#8, 0x43#8, 0#8, 0x10#8, 0x43#8, 0#8, 0#8], by unfold Fits regionsFit; decide +kernel⟩

/-- A container whose count is the least negative word. -/
def negative8 : State := ready [] [] [0, 0, 0, 0x80, 0, 0, 0, 0] 8 64 0

theorem inv_negative8 : Inv negative8 :=
  inv_of_idle (by decide) (by decide +kernel) (by decide +kernel) (by decide +kernel) (by decide +kernel) rfl (by decide)

/-- V-CR4, V-CR8, V-CR5 shape, V-CR9: each clause at a boundary. -/
theorem witness_CreadErrors :
    ¬ Fits container17.cfg .cread (withOperands container17 1008 17 0 16).operands ∧
    (Fits container17.cfg .cread (withOperands container17 0 7 0 16).operands ∧
      (withOperands container17 0 7 0 16).operands.sl.toNat < 8) ∧
    (Fits negative8.cfg .cread negative8.operands ∧ 8 ≤ negative8.operands.sl.toNat ∧
      ramRange negative8.stream negative8.operands.sb.toNat 8 = (wordBytes 0x80000000#32 ++ wordBytes 0#32).map some ∧
      2 ^ 31 ≤ (0x80000000#32).toNat) ∧
    (Fits container17.cfg .cread (withOperands container17 0 16 0 16).operands ∧
      ramRange container17.stream 0 8 = (wordBytes 5#32 ++ wordBytes 6#32).map some ∧
      2 * (((withOperands container17 0 16 0 16).operands.sl.toNat - 8) / 3) < (5#32).toNat) ∧
    (Fits container17.cfg .cread (withOperands container17 0 17 0 4).operands ∧
      (5#32).toNat ≤ 2 * (((withOperands container17 0 17 0 4).operands.sl.toNat - 8) / 3) ∧
      (withOperands container17 0 17 0 4).operands.dc.toNat < (5#32).toNat) := by
  unfold Fits regionsFit
  decide +kernel

theorem witness_CreadErrors_negative :
    Inv (negative8.issued .cread) ∧ (negative8.issued .cread).engine = some (Engine.fresh .cread negative8.operands) :=
  running .cread inv_negative8 rfl

theorem witness_PackAndCwriteFrame : (∃ t, exec .pack codes5 = .next t) ∧ (∃ t, exec .cwrite codes5 = .next t) :=
  ⟨exists_next (by decide +kernel), exists_next (by decide +kernel)⟩

theorem witness_UnpackAndCreadFrame : (∃ t, exec .unpack packs6 = .next t) ∧ (∃ t, exec .cread container17 = .next t) :=
  ⟨exists_next (by decide +kernel), exists_next (by decide +kernel)⟩

theorem witness_ContainerRoundTrip : ∃ (t : State) (db2 dc2 : Word), Inv codes5 ∧ Starts .cwrite codes5 codes5.operands ∧
    abcCodes.length = codes5.operands.sl.toNat ∧
    ramRange codes5.code codes5.operands.sb.toNat abcCodes.length = abcCodes.map some ∧
    exec .cwrite codes5 = .next t ∧ t.done = true ∧ db2.toNat + dc2.toNat ≤ codes5.cfg.codeDepth ∧
    abcCodes.length ≤ dc2.toNat := by
  obtain ⟨t, h1, h2⟩ := exists_next_of (o := exec .cwrite codes5) (p := fun t => t.done) (by decide +kernel)
  exact ⟨t, 1019#32, 5#32, inv_codes5, rfl, by decide, by decide +kernel, h1, h2, by decide, by decide⟩

/-! ### Witness: the host script -/

/-- The host of `s` at statement `p` of the program `l`, with RESULT_LEN as datum of its last read. -/
def scripted (l : List HostStmt) (p : Nat) (s : State) : State := { s with prog := l, pos := p, hostData := 6#32 }

/-- A macro behind one other statement, its length a number or the last datum; a poll alone, busy and idle. -/
theorem witness_CommandMacroStartsAndPolls :
    (abc.engine = none ∧ Instr.encode ≠ .cwrite ∧
      StandsAt (.halt :: runMacro .encode 1 0#32 (.imm 6#32) 0#32 16#32) 1 (runMacro .encode 1 0#32 (.imm 6#32) 0#32 16#32)) ∧
    StandsAt (.halt :: cwriteMacro 1 0#32 .d 0#32 16#32 9#32) 1 (cwriteMacro 1 0#32 .d 0#32 16#32 9#32) ∧
    StandsAt (poll 0) 0 (poll 0) ∧ (scripted (poll 0) 0 abc).busy = false ∧
    (scripted (poll 0) 0 (abc.issued .encode)).busy = true := by
  unfold StandsAt
  decide

/-- R87: CWRITE's expansion, and a length taken from the last datum. -/
theorem test_cwrite_macro :
    (hostTurns 6 (scripted (cwriteMacro 0 1#32 .d 2#32 3#32 9#32) 0 abc)).engine =
      some (Engine.fresh .cwrite { sb := 1#32, sl := 6#32, db := 2#32, dc := 3#32, rw := 9#32 }) := by decide +kernel

theorem witness_CompressAndDecompressMacros :
    StandsAt (.halt :: compressMacro 1 0#32 6#32 0#32 16#32 0#32 64#32 9#32) 1
      (compressMacro 1 0#32 6#32 0#32 16#32 0#32 64#32 9#32) ∧
    StandsAt (decompressMacro 0 0#32 17#32 0#32 16#32 0#32 16#32) 0 (decompressMacro 0 0#32 17#32 0#32 16#32 0#32 16#32) ∧
    (∀ p l, (scripted l p abc).engine = none ∧ (scripted l p abc).pos = p ∧ (scripted l p abc).prog = l) :=
  ⟨by unfold StandsAt; decide, by unfold StandsAt; decide, fun _ _ => ⟨rfl, rfl, rfl⟩⟩

/-- R87: the statement list of COMPRESS written out. -/
theorem test_compress_macro : compressMacro 0 1#32 2#32 3#32 4#32 5#32 6#32 7#32 =
    [.wr 0x00C#32 (.imm 1#32), .wr 0x010#32 (.imm 2#32), .wr 0x014#32 (.imm 3#32), .wr 0x018#32 (.imm 4#32),
      .wr 0x004#32 (.imm 1#32), .rd 0x008#32, .bnz 0x1#32 5, .rd 0x020#32, .wr 0x01C#32 (.imm 7#32),
      .wr 0x00C#32 (.imm 3#32), .wr 0x010#32 .d, .wr 0x014#32 (.imm 5#32), .wr 0x018#32 (.imm 6#32),
      .wr 0x004#32 (.imm 5#32), .rd 0x008#32, .bnz 0x1#32 14] := by decide

/-- R87: the statement list of DECOMPRESS written out. -/
theorem test_decompress_macro : decompressMacro 0 1#32 2#32 3#32 4#32 5#32 6#32 =
    [.wr 0x00C#32 (.imm 1#32), .wr 0x010#32 (.imm 2#32), .wr 0x014#32 (.imm 3#32), .wr 0x018#32 (.imm 4#32),
      .wr 0x004#32 (.imm 6#32), .rd 0x008#32, .bnz 0x1#32 5, .rd 0x020#32, .wr 0x00C#32 (.imm 3#32),
      .wr 0x010#32 .d, .wr 0x014#32 (.imm 5#32), .wr 0x018#32 (.imm 6#32), .wr 0x004#32 (.imm 2#32), .rd 0x008#32,
      .bnz 0x1#32 13] := by decide

end Sys2Proof.Tests
end

section
/-! The step by the agent that moves (R15, R109, R220): one equation per function between `step` and the agents' moves. -/

namespace Sys2Proof.Machine

/-- The schedule's first turn is the one taken, and is used up. -/
theorem step_of_turns_cons {s : State} {t : Turn} {ts : List Turn} (h : s.turns = t :: ts) :
    step s = takeTurn t { s with turns := ts } := by rw [step, h]

theorem step_of_turns_nil {s : State} (h : s.turns = []) : step s = takeTurn (defaultTurn s) s := by rw [step, h]

@[simp] theorem takeTurn_host (s : State) : takeTurn .host s = .next (hostTurn s) := rfl

@[simp] theorem takeTurn_engine (s : State) : takeTurn .engine s = engineTurn s := rfl

@[simp] theorem takeTurn_advance (s : State) : takeTurn .advance s = .next (advanceEngine s) := rfl

theorem engineTurn_of_idle {s : State} (h : s.engine = none) : engineTurn s = .next s := by rw [engineTurn, h]

theorem defaultTurn_of_idle {s : State} (h : s.engine = none) : defaultTurn s = .host := by
  simp [defaultTurn, (State.busy_false_iff s).2 h]

/-- Settles O23, by the agent that moves: the named host, the named engine working on, the named engine while idle, and
the host by default. -/
theorem stepOfOtherAgents : Obligations.StepOfOtherAgents := by
  unfold Obligations.StepOfOtherAgents
  refine ⟨fun s ts h => ?host, fun s ts h => ?advance, fun s ts h hidle => ?idleEngine, fun s h hidle => ?default⟩
  case host => rw [step_of_turns_cons h, takeTurn_host]
  case advance => rw [step_of_turns_cons h, takeTurn_advance]
  case idleEngine =>
    have hidle' : ({ s with turns := ts } : State).engine = none := hidle
    rw [step_of_turns_cons h, takeTurn_engine, engineTurn_of_idle hidle']
  case default => rw [step_of_turns_nil h, defaultTurn_of_idle hidle, takeTurn_host]

end Sys2Proof.Machine
end

section
/-! The DictionaryTable (41_dictionary.md): the bounds of its lookups, and what an insert of an entry that extends an
earlier one keeps (R126, R129). -/

namespace Sys2Proof.Machine

theorem lookupCode_lt {d : Dict} {k : Nat} {m : List Symbol} (h : lookupCode d k = some m) : k < dictCount d := by
  unfold lookupCode at h
  unfold dictCount
  split at h
  · omega
  · have := (List.getElem?_eq_some_iff.1 h).1
    omega

/-- Appending entries changes no entry that is there (R126). -/
theorem lookupCode_append {d : Dict} {k : Nat} {m : List Symbol} (h : lookupCode d k = some m)
    (l : List (List Symbol)) : lookupCode { learned := d.learned ++ l } k = some m := by
  have hk := lookupCode_lt h
  unfold lookupCode at h ⊢
  unfold dictCount at hk
  split
  · rwa [if_pos (by assumption)] at h
  · rw [if_neg (by assumption)] at h
    rw [List.getElem?_append_left (by omega), h]

theorem seqIndex_lt {l : List (List Symbol)} {s : List Symbol} {j : Nat} (h : seqIndex l s = some j) :
    j < l.length := by
  induction l generalizing j with
  | nil => cases h
  | cons t rest ih =>
    rw [seqIndex] at h
    split at h
    · cases h; simp
    · obtain ⟨i, hi, rfl⟩ := Option.map_eq_some_iff.1 h
      simpa using ih hi

theorem seqIndex_eq_none {l : List (List Symbol)} {s : List Symbol} (h : seqIndex l s = none) : s ∉ l := by
  induction l with
  | nil => simp
  | cons t rest ih =>
    rw [seqIndex] at h
    split at h
    · cases h
    · rename_i hne
      exact List.not_mem_cons_of_ne_of_not_mem (Ne.symm hne) (ih (Option.map_eq_none_iff.1 h))

/-- A sequence the table knows has a code of the table (R124). -/
theorem lookupSeq_lt {d : Dict} {t : List Symbol} {k : Nat} (h : lookupSeq d t = some k) : k < dictCount d := by
  unfold lookupSeq at h
  unfold dictCount
  split at h
  · rename_i x
    have : x.toNat < 256 := x.isLt
    cases h
    simp only [Config.literals]
    omega
  · obtain ⟨j, hj, rfl⟩ := Option.map_eq_some_iff.1 h
    have := seqIndex_lt hj
    omega

/-- A sequence the table does not know is not one of its learned entries (R124). -/
theorem lookupSeq_eq_none {d : Dict} {t : List Symbol} (h : lookupSeq d t = none) : t ∉ d.learned := by
  unfold lookupSeq at h
  split at h
  · cases h
  · exact seqIndex_eq_none (Option.map_eq_none_iff.1 h)

theorem dictInsert_of_room {M : Nat} {d : Dict} (h : dictCount d < M) (t : List Symbol) :
    dictInsert M d t = { learned := d.learned ++ [t] } := if_pos h

theorem dictInsert_of_full {M : Nat} {d : Dict} (h : ¬ dictCount d < M) (t : List Symbol) :
    dictInsert M d t = d := if_neg h

theorem dictCount_append (d : Dict) (t : List Symbol) :
    dictCount { learned := d.learned ++ [t] } = dictCount d + 1 := by
  simp [dictCount, Nat.add_assoc]

/-- An insert never shrinks the table (R126). -/
theorem dictCount_le_insert (M : Nat) (d : Dict) (t : List Symbol) : dictCount d ≤ dictCount (dictInsert M d t) := by
  by_cases h : dictCount d < M
  · rw [dictInsert_of_room h, dictCount_append]
    exact Nat.le_succ _
  · rw [dictInsert_of_full h]

/-- The seeded table is well formed wherever the cap holds the seeds (R122). -/
theorem dictOk_init {M : Nat} (h : Config.literals ≤ M) : DictOk M dictInit := ⟨h, by simp [dictInit]⟩

/-- An insert of an entry of the table followed by one symbol keeps the growth invariant and the bound (R126, R129). -/
theorem DictOk.insert {M : Nat} {d : Dict} (h : DictOk M d) {p : Nat} {m : List Symbol} (hp : lookupCode d p = some m)
    (x : Symbol) : DictOk M (dictInsert M d (m ++ [x])) := by
  by_cases hroom : dictCount d < M
  · rw [dictInsert_of_room hroom]
    refine ⟨by rw [dictCount_append]; exact hroom, fun j t hj => ?_⟩
    rcases Nat.lt_or_ge j d.learned.length with hlt | hge
    · rw [List.getElem?_append_left hlt] at hj
      obtain ⟨q, m', y, hq, hm', rfl⟩ := h.prefixed j t hj
      exact ⟨q, m', y, hq, lookupCode_append hm' _, rfl⟩
    · rw [List.getElem?_append_right hge] at hj
      have hlast : j - d.learned.length < 1 := (List.getElem?_eq_some_iff.1 hj).1
      obtain rfl : j = d.learned.length := by omega
      rw [Nat.sub_self, List.getElem?_cons_zero, Option.some_inj] at hj
      exact ⟨p, m, x, lookupCode_lt hp, lookupCode_append hp _, hj.symm⟩
  · rwa [dictInsert_of_full hroom]

/-- An insert of a sequence the table does not know keeps the learned entries distinct. -/
theorem learned_nodup_insert {d : Dict} (h : d.learned.Nodup) {t : List Symbol} (ht : t ∉ d.learned) (M : Nat) :
    (dictInsert M d t).learned.Nodup := by
  by_cases hroom : dictCount d < M
  · rw [dictInsert_of_room hroom]
    exact List.nodup_append.2 ⟨h, List.nodup_singleton t, fun a ha b hb hab =>
      ht (List.mem_singleton.1 hb ▸ hab ▸ ha)⟩
  · rwa [dictInsert_of_full hroom]

end Sys2Proof.Machine
end

section
/-! The engine's invariant under the updates a body makes to the engine (R43 to R46, R128, R133, R134). -/

namespace Sys2Proof.Machine

variable {c : Config} {e : Engine}

theorem engineOk_fresh (c : Config) (op : Instr) (sn : Snapshot) : EngineOk c (Engine.fresh op sn) := by
  constructor <;> simp [Engine.fresh]

theorem EngineOk.setOutput (h : EngineOk c e) {o : Nat} (ho : o ≤ e.dc) : EngineOk c { e with o := o } :=
  { h with output := ho }

/-- dict_init at the start of ENCODE and DECODE, after the checks (R141, R156). -/
theorem EngineOk.seed (h : EngineOk c e) (hcap : Config.literals ≤ c.maxEntries) (hop : usesDictionary e.op = true)
    (hnone : e.dict = none) (hfit : regionsFit c e) (hne : e.sl ≠ 0) :
    EngineOk c { e with dict := some dictInit } where
  progress := h.progress
  output := h.output
  owner _ := hop
  table d hd := by cases hd; exact dictOk_init hcap
  regions _ := hfit
  nonEmpty _ := Nat.pos_of_ne_zero hne
  distinct d _ hd := by cases hd; exact List.nodup_nil
  matchOwner hk := ⟨(h.matchOwner hk).1, rfl⟩
  matchKnown d k _ hk := by
    have hsome := (h.matchOwner (Option.isSome_of_eq_some hk)).2
    rw [hnone] at hsome
    cases hsome
  prevOwner hk := ⟨(h.prevOwner hk).1, rfl⟩
  prevKnown d k _ hk := by
    have hsome := (h.prevOwner (Option.isSome_of_eq_some hk)).2
    rw [hnone] at hsome
    cases hsome
  encodeFrom := h.encodeFrom

/-- The insert of ENCODE and DECODE: entry `p` of the table followed by one symbol (R125, R126). -/
theorem EngineOk.insertEntry (h : EngineOk c e) {d : Dict} (hd : e.dict = some d) {p : Nat} {m : List Symbol}
    (hp : lookupCode d p = some m) (x : Symbol) (hnew : e.op = .encode → m ++ [x] ∉ d.learned) :
    EngineOk c { e with dict := some (dictInsert c.maxEntries d (m ++ [x])) } := by
  have hsome : e.dict.isSome = true := Option.isSome_of_eq_some hd
  have hgrow := dictCount_le_insert c.maxEntries d (m ++ [x])
  exact {
    progress := h.progress
    output := h.output
    owner := fun _ => h.owner hsome
    table := fun d' hd' => by cases hd'; exact (h.table d hd).insert hp x
    regions := fun _ => h.regions hsome
    nonEmpty := fun _ => h.nonEmpty hsome
    distinct := fun d' hop hd' => by
      cases hd'
      exact learned_nodup_insert (h.distinct d hop hd) (hnew hop) _
    matchOwner := fun hk => ⟨(h.matchOwner hk).1, rfl⟩
    matchKnown := fun d' k hd' hk => by
      cases hd'
      exact Nat.lt_of_lt_of_le (h.matchKnown d k hd hk) hgrow
    prevOwner := fun hk => ⟨(h.prevOwner hk).1, rfl⟩
    prevKnown := fun d' k hd' hk => by
      cases hd'
      exact Nat.lt_of_lt_of_le (h.prevKnown d k hd hk) hgrow
    encodeFrom := h.encodeFrom }

/-- ENCODE moves on by one symbol with a match the table knows (R133). -/
theorem EngineOk.setMatch (h : EngineOk c e) (hop : e.op = .encode) (hi : e.i < e.sl) {d : Dict} (hd : e.dict = some d)
    {k : Code} (hk : k.toNat < dictCount d) : EngineOk c { e with cur := some k, i := e.i + 1 } :=
  { h with
    progress := hi
    matchOwner := fun _ => ⟨hop, Option.isSome_of_eq_some hd⟩
    matchKnown := fun d' k' hd' hk' => by
      cases hk'
      cases hd.symm.trans hd'
      exact hk
    encodeFrom := fun _ hcur => by cases hcur }

/-- DECODE moves on by one code, which the table knows by now (R134). -/
theorem EngineOk.setPrev (h : EngineOk c e) (hop : e.op = .decode) (hi : e.i < e.sl) {d : Dict} (hd : e.dict = some d)
    {k : Code} (hk : k.toNat < dictCount d) : EngineOk c { e with prev := some k, i := e.i + 1 } :=
  { h with
    progress := hi
    prevOwner := fun _ => ⟨hop, Option.isSome_of_eq_some hd⟩
    prevKnown := fun d' k' hd' hk' => by
      cases hk'
      cases hd.symm.trans hd'
      exact hk
    encodeFrom := fun henc _ => by
      rw [show e.op = .encode from henc] at hop
      cases hop }

/-- The engine after a piece of a framing command: only its progress has moved, up to source element `b`. -/
def MovesTo (b : Nat) (e e' : Engine) : Prop := ∃ i o, i ≤ b ∧ e' = { e with i := i, o := o }

theorem MovesTo.refl {b : Nat} (h : e.i ≤ b) : MovesTo b e e := ⟨e.i, e.o, h, rfl⟩

theorem MovesTo.progress {b : Nat} {e' : Engine} (h : MovesTo b e e') : e'.i ≤ b := by
  obtain ⟨i, o, hi, rfl⟩ := h
  exact hi

theorem MovesTo.trans {b b' : Nat} {e' e'' : Engine} (h : MovesTo b e e') (h' : MovesTo b' e' e'') :
    MovesTo b' e e'' := by
  obtain ⟨i, o, -, rfl⟩ := h
  obtain ⟨i', o', hi', rfl⟩ := h'
  exact ⟨i', o', hi', rfl⟩

theorem MovesTo.mono {b b' : Nat} {e' : Engine} (h : MovesTo b e e') (hb : b ≤ b') : MovesTo b' e e' := by
  obtain ⟨i, o, hi, he⟩ := h
  exact ⟨i, o, hi.trans hb, he⟩

/-- A start that moves inside the source region, then a walk that does. -/
theorem MovesTo.walk {e' e'' : Engine} (h : MovesTo e.sl e e') (h' : e'.i ≤ e'.sl → MovesTo e'.sl e' e'') :
    MovesTo e.sl e e'' := by
  obtain ⟨i, o, hi, rfl⟩ := h
  exact MovesTo.trans ⟨i, o, hi, rfl⟩ (h' hi)

theorem EngineOk.movesTo {e' : Engine} (h : EngineOk c e) (hop : e.op ≠ .encode) (hm : MovesTo e.sl e e')
    (ho : e'.o ≤ e.dc) : EngineOk c e' := by
  obtain ⟨i, o, hi, rfl⟩ := hm
  exact { h with progress := hi, output := ho, encodeFrom := fun henc => absurd henc hop }

end Sys2Proof.Machine
end

section
/-! What a piece of each command body does to the engine. -/

namespace Sys2Proof.Machine

variable {w : Nat} {c : Config}

/-- A sequence reaches the work at which its first part raised an error, or what its second part reaches. -/
theorem Reaches.andThen_inv {α : Type} {r : Res α} {k : α → Res α} {b : α} (h : Reaches (r.andThen k) b) :
    (∃ E i, r = .err E i b) ∨ ∃ a, r = .ok a ∧ Reaches (k a) b := by
  cases r with
  | ok a => exact .inr ⟨a, rfl, h⟩
  | err E i a => exact .inl ⟨E, i, by rw [h.of_err]⟩
  | fault f => exact h.of_fault.elim

/-- put_seq appends the whole sequence within the capacity (R107). -/
theorem putSeq_eq_ok {t : List (BitVec w)} {idx : Nat} {x y : Work w} (h : putSeq t idx x = .ok y) :
    x.eng.o + t.length ≤ x.eng.dc ∧
      y = { x with eng := { x.eng with o := x.eng.o + t.length }, out := x.out ++ t } := by
  by_cases hfit : x.eng.o + t.length ≤ x.eng.dc
  · rw [putSeq_ok t idx x hfit] at h
    cases h
    exact ⟨hfit, rfl⟩
  · rw [putSeq_err t idx x (by omega)] at h
    cases h

theorem putSeq_eq_err {t : List (BitVec w)} {idx i : Nat} {E : ErrCode} {x y : Work w}
    (h : putSeq t idx x = .err E i y) : y = x := by
  by_cases hfit : x.eng.o + t.length ≤ x.eng.dc
  · rw [putSeq_ok t idx x hfit] at h
    cases h
  · rw [putSeq_err t idx x (by omega)] at h
    cases h
    rfl

/-! ### The start of ENCODE and DECODE (R141, R156) -/

/-- The start that ENCODE and DECODE share, with the depths of their source and destination RAMs. -/
def codecOpen (srcDepth dstDepth : Nat) (x : Work w) : Res (Work w) :=
  if x.eng.dict.isSome then .ok x
  else (checkRegions srcDepth dstDepth x).andThen fun x =>
    if x.eng.sl = 0 then .err .emptyInput 0 x
    else .ok { x with eng := { x.eng with dict := some dictInit } }

theorem encodeOpen_eq (c : Config) : encodeOpen c = codecOpen c.symDepth c.codeDepth := rfl

theorem decodeOpen_eq (c : Config) : decodeOpen c = codecOpen c.codeDepth c.symDepth := rfl

/-- The start goes on where the command has begun, or seeds the table of one that passes its checks. -/
theorem codecOpen_ok {a b : Nat} {x y : Work w} (h : codecOpen a b x = .ok y) :
    (x.eng.dict.isSome = true ∧ y = x) ∨
      (x.eng.dict = none ∧ x.eng.sb + x.eng.sl ≤ a ∧ x.eng.db + x.eng.dc ≤ b ∧ x.eng.sl ≠ 0 ∧
        y = { x with eng := { x.eng with dict := some dictInit } }) := by
  unfold codecOpen at h
  split at h
  · rename_i hsome
    cases h
    exact .inl ⟨hsome, rfl⟩
  · rename_i hnone
    rcases checkRegions_cases a b x with ⟨hc, hsrc, hdst⟩ | ⟨hc, -⟩ <;> rw [hc] at h
    · rw [Res.andThen_ok] at h
      split at h
      · cases h
      · rename_i hne
        cases h
        exact .inr ⟨by simpa using hnone, hsrc, hdst, hne, rfl⟩
    · cases h

/-- A start that raises an error has changed nothing. -/
theorem codecOpen_err {a b : Nat} {x y : Work w} {E : ErrCode} {i : Nat} (h : codecOpen a b x = .err E i y) :
    y = x := by
  unfold codecOpen at h
  split at h
  · cases h
  · rcases checkRegions_cases a b x with ⟨hc, -⟩ | ⟨hc, -⟩ <;> rw [hc] at h
    · rw [Res.andThen_ok] at h
      split at h <;> cases h
      rfl
    · cases h
      rfl

/-- Behind the start the engine's invariant holds and the regions fit. -/
theorem codecOpen_keeps {a b : Nat} {x y : Work w} (h : codecOpen a b x = .ok y) (hx : EngineOk c x.eng)
    (hcap : Config.literals ≤ c.maxEntries) (hop : usesDictionary x.eng.op = true)
    (ha : a = ramDepth c (sourceRam x.eng.op)) (hb : b = ramDepth c (destRam x.eng.op)) :
    EngineOk c y.eng ∧ y.eng.op = x.eng.op ∧ regionsFit c x.eng := by
  rcases codecOpen_ok h with ⟨hsome, rfl⟩ | ⟨hnone, hsrc, hdst, hne, rfl⟩
  · exact ⟨hx, rfl, hx.regions hsome⟩
  · have hfit : regionsFit c x.eng := ⟨ha ▸ hsrc, hb ▸ hdst⟩
    exact ⟨hx.seed hcap hop hnone hfit hne, rfl, hfit⟩

/-! ### The walk of ENCODE (R141, R142) -/

/-- What one source symbol makes of ENCODE's engine: the first match, a longer match the table knows, or an emission
with an insert and a new match. -/
inductive EncodeMove (c : Config) (sy : Symbol) (e : Engine) : Engine → Prop
  | first {d : Dict} (hd : e.dict = some d) (hcur : e.cur = none) :
      EncodeMove c sy e { e with cur := some (sy.setWidth 12), i := e.i + 1 }
  | extend {d : Dict} {k : Code} {m : List Symbol} {k' : Nat} (hd : e.dict = some d) (hcur : e.cur = some k)
      (hm : lookupCode d k.toNat = some m) (hk' : lookupSeq d (m ++ [sy]) = some k') :
      EncodeMove c sy e { e with cur := some (BitVec.ofNat 12 k'), i := e.i + 1 }
  | emit {d : Dict} {k : Code} {m : List Symbol} (hd : e.dict = some d) (hcur : e.cur = some k)
      (hm : lookupCode d k.toNat = some m) (hnew : lookupSeq d (m ++ [sy]) = none) (hroom : e.o < e.dc) :
      EncodeMove c sy e { e with o := e.o + 1, dict := some (dictInsert c.maxEntries d (m ++ [sy]))
                                 cur := some (sy.setWidth 12), i := e.i + 1 }

theorem encodeWalk_ok {sy : Symbol} {x y : Work 12} (h : encodeWalk c sy x = .ok y) :
    EncodeMove c sy x.eng y.eng := by
  unfold encodeWalk at h
  split at h
  · cases h
  · rename_i d hd hcur
    cases h
    exact .first hd hcur
  · rename_i d k hd hcur
    split at h
    · cases h
    · rename_i m hm
      split at h
      · rename_i k' hk'
        cases h
        exact .extend hd hcur hm hk'
      · rename_i hnew
        obtain ⟨z, hput, hz⟩ := Res.andThen_eq_ok.1 h
        obtain ⟨hroom, rfl⟩ := put_eq_ok.1 hput
        cases hz
        exact .emit hd hcur hm hnew hroom

/-- A symbol whose emission does not fit changes nothing. -/
theorem encodeWalk_err {sy : Symbol} {x y : Work 12} {E : ErrCode} {i : Nat} (h : encodeWalk c sy x = .err E i y) :
    y = x := by
  unfold encodeWalk at h
  split at h
  · cases h
  · cases h
  · split at h
    · cases h
    · split at h
      · cases h
      · rcases Res.andThen_eq_err.1 h with hput | ⟨z, -, hz⟩
        · exact (put_eq_err.1 hput).2.2.2
        · cases hz

theorem EncodeMove.progress {sy : Symbol} {e e' : Engine} (h : EncodeMove c sy e e') :
    e'.op = e.op ∧ e'.snap = e.snap ∧ e'.i = e.i + 1 := by
  cases h <;> exact ⟨rfl, rfl, rfl⟩

/-- A symbol is the code of its own seed, so every table knows it (R122). -/
theorem symbol_lt_dictCount (sy : Symbol) (d : Dict) : (sy.setWidth 12).toNat < dictCount d := by
  have : sy.toNat < 256 := sy.isLt
  rw [BitVec.toNat_setWidth, Nat.mod_eq_of_lt (by omega), dictCount, Config.literals]
  omega

theorem EngineOk.encodeMove {sy : Symbol} {e e' : Engine} (h : EngineOk c e) (hop : e.op = .encode) (hi : e.i < e.sl)
    (hm : EncodeMove c sy e e') : EngineOk c e' := by
  cases hm with
  | first hd hcur => exact h.setMatch hop hi hd (symbol_lt_dictCount sy _)
  | extend hd hcur hm hk' =>
    refine h.setMatch hop hi hd ?_
    rw [BitVec.toNat_ofNat]
    exact Nat.lt_of_le_of_lt (Nat.mod_le _ _) (lookupSeq_lt hk')
  | emit hd hcur hm hnew hroom =>
    have hins := (h.setOutput hroom).insertEntry hd hm sy fun _ => lookupSeq_eq_none hnew
    exact hins.setMatch hop hi rfl (symbol_lt_dictCount sy _)

theorem encodeLoop_keeps {src : List (Option Symbol)} {x y : Work 12} (hx : EngineOk c x.eng)
    (hop : x.eng.op = .encode) (hlen : x.eng.i + src.length ≤ x.eng.sl) (h : Reaches (encodeLoop c src x) y) :
    EngineOk c y.eng := by
  induction src generalizing x with
  | nil => exact h.of_ok ▸ hx
  | cons a rest ih =>
    rw [List.length_cons] at hlen
    cases a with
    | none => exact h.of_fault.elim
    | some sy =>
      rcases Reaches.andThen_inv h with ⟨E, i, hz⟩ | ⟨z, hz, hrest⟩
      · exact encodeWalk_err hz ▸ hx
      · have hmove := encodeWalk_ok hz
        obtain ⟨hop', hsnap', hi'⟩ := hmove.progress
        refine ih (hx.encodeMove hop (by omega) hmove) (hop'.trans hop) ?_ hrest
        rw [hi', Engine.sl, hsnap']
        exact Nat.le_trans (by omega) hlen

theorem encodeClose_keeps {x y : Work 12} (hx : EngineOk c x.eng) (h : Reaches (encodeClose x) y) :
    EngineOk c y.eng := by
  unfold encodeClose at h
  split at h
  · exact h.of_fault.elim
  · rcases h with hput | ⟨E, i, hput⟩
    · obtain ⟨hroom, rfl⟩ := put_eq_ok.1 hput
      exact hx.setOutput hroom
    · obtain ⟨-, -, -, rfl⟩ := put_eq_err.1 hput
      exact hx

/-! ### The walk of DECODE (R157 to R161) -/

/-- What one source code makes of DECODE's engine: the first code, or a later one with its insert. -/
inductive DecodeMove (c : Config) (k : Code) (e : Engine) : Engine → Prop
  | first {d : Dict} {t : List Symbol} (hd : e.dict = some d) (hprev : e.prev = none) (hk : k.toNat < dictCount d)
      (ht : lookupCode d k.toNat = some t) (hroom : e.o + t.length ≤ e.dc) :
      DecodeMove c k e { e with o := e.o + t.length, prev := some k, i := e.i + 1 }
  | later {d : Dict} {p : Code} {m t : List Symbol} {x : Symbol} (hd : e.dict = some d) (hprev : e.prev = some p)
      (hm : lookupCode d p.toNat = some m) (ht : translate c.maxEntries d m k.toNat = some (x :: t))
      (hroom : e.o + (x :: t).length ≤ e.dc) :
      DecodeMove c k e { e with o := e.o + (x :: t).length, dict := some (dictInsert c.maxEntries d (m ++ [x]))
                                prev := some k, i := e.i + 1 }

theorem decodeFirst_ok {d : Dict} {k : Code} {x y : Work 8} (hd : x.eng.dict = some d) (hprev : x.eng.prev = none)
    (h : decodeFirst d k x = .ok y) : DecodeMove c k x.eng y.eng := by
  unfold decodeFirst at h
  split at h
  · cases h
  · rename_i hk
    split at h
    · cases h
    · rename_i t ht
      obtain ⟨z, hput, hz⟩ := Res.andThen_eq_ok.1 h
      obtain ⟨hroom, rfl⟩ := putSeq_eq_ok hput
      cases hz
      exact .first hd hprev (by omega) ht hroom

theorem decodeFirst_err {d : Dict} {k : Code} {x y : Work 8} {E : ErrCode} {i : Nat}
    (h : decodeFirst d k x = .err E i y) : y = x := by
  unfold decodeFirst at h
  split at h
  · cases h
    rfl
  · split at h
    · cases h
    · rcases Res.andThen_eq_err.1 h with hput | ⟨z, -, hz⟩
      · exact putSeq_eq_err hput
      · cases hz

theorem decodeLater_ok {d : Dict} {p k : Code} {m : List Symbol} {x y : Work 8} (hd : x.eng.dict = some d)
    (hprev : x.eng.prev = some p) (hm : lookupCode d p.toNat = some m) (h : decodeLater c d m k x = .ok y) :
    DecodeMove c k x.eng y.eng := by
  unfold decodeLater at h
  split at h
  · cases h
  · rename_i t ht
    unfold decodeEmit at h
    split at h
    · cases h
    · obtain ⟨z, hput, hz⟩ := Res.andThen_eq_ok.1 h
      obtain ⟨hroom, rfl⟩ := putSeq_eq_ok hput
      cases hz
      exact .later hd hprev hm ht hroom

theorem decodeLater_err {d : Dict} {k : Code} {m : List Symbol} {x y : Work 8} {E : ErrCode} {i : Nat}
    (h : decodeLater c d m k x = .err E i y) : y = x := by
  unfold decodeLater at h
  split at h
  · cases h
    rfl
  · unfold decodeEmit at h
    split at h
    · cases h
    · rcases Res.andThen_eq_err.1 h with hput | ⟨z, -, hz⟩
      · exact putSeq_eq_err hput
      · cases hz

theorem decodeWalk_ok {k : Code} {x y : Work 8} (h : decodeWalk c k x = .ok y) : DecodeMove c k x.eng y.eng := by
  unfold decodeWalk at h
  split at h
  · cases h
  · rename_i d hd hprev
    exact decodeFirst_ok hd hprev h
  · rename_i d p hd hprev
    split at h
    · cases h
    · rename_i m hm
      exact decodeLater_ok hd hprev hm h

/-- A code that is not acceptable, or whose translation does not fit, changes nothing (R161). -/
theorem decodeWalk_err {k : Code} {x y : Work 8} {E : ErrCode} {i : Nat} (h : decodeWalk c k x = .err E i y) :
    y = x := by
  unfold decodeWalk at h
  split at h
  · cases h
  · exact decodeFirst_err h
  · split at h
    · cases h
    · exact decodeLater_err h

theorem DecodeMove.progress {k : Code} {e e' : Engine} (h : DecodeMove c k e e') :
    e'.op = e.op ∧ e'.snap = e.snap ∧ e'.i = e.i + 1 := by
  cases h <;> exact ⟨rfl, rfl, rfl⟩

/-- A code with a translation is in the table once the insert is done: it was there, or it is the new entry (R158). -/
theorem translate_lt_insert {M : Nat} {d : Dict} {m t : List Symbol} {k : Nat} (h : translate M d m k = some t)
    (s : List Symbol) : k < dictCount (dictInsert M d s) := by
  unfold translate at h
  split at h
  · rename_i hk
    exact Nat.lt_of_lt_of_le hk (dictCount_le_insert M d s)
  · split at h
    · rename_i hnext
      obtain ⟨hk, hroom⟩ := hnext
      rw [dictInsert_of_room hroom, dictCount_append]
      omega
    · cases h

theorem EngineOk.decodeMove {k : Code} {e e' : Engine} (h : EngineOk c e) (hop : e.op = .decode) (hi : e.i < e.sl)
    (hm : DecodeMove c k e e') : EngineOk c e' := by
  cases hm with
  | first hd hprev hk ht hroom => exact (h.setOutput hroom).setPrev hop hi hd hk
  | @later d p m t x hd hprev hm ht hroom =>
    have hins := (h.setOutput hroom).insertEntry hd hm x fun henc => by
      rw [show e.op = .encode from henc] at hop
      cases hop
    exact hins.setPrev hop hi rfl (translate_lt_insert ht _)

theorem decodeLoop_keeps {src : List (Option Code)} {x y : Work 8} (hx : EngineOk c x.eng) (hop : x.eng.op = .decode)
    (hlen : x.eng.i + src.length ≤ x.eng.sl) (h : Reaches (decodeLoop c src x) y) : EngineOk c y.eng := by
  induction src generalizing x with
  | nil => exact h.of_ok ▸ hx
  | cons a rest ih =>
    rw [List.length_cons] at hlen
    cases a with
    | none => exact h.of_fault.elim
    | some k =>
      rcases Reaches.andThen_inv h with ⟨E, i, hz⟩ | ⟨z, hz, hrest⟩
      · exact decodeWalk_err hz ▸ hx
      · have hmove := decodeWalk_ok hz
        obtain ⟨hop', hsnap', hi'⟩ := hmove.progress
        refine ih (hx.decodeMove hop (by omega) hmove) (hop'.trans hop) ?_ hrest
        rw [hi', Engine.sl, hsnap']
        exact Nat.le_trans (by omega) hlen

/-! ### The framing commands (R180 to R192) -/

theorem putAll_reaches {vs : List (BitVec w)} {idx : Nat} {x y : Work w} (h : Reaches (putAll vs idx x) y) :
    ∃ o, y.eng = { x.eng with o := o } := by
  induction vs generalizing x with
  | nil => exact ⟨x.eng.o, h.of_ok ▸ rfl⟩
  | cons v rest ih =>
    rcases Reaches.andThen_inv h with ⟨E, i, hput⟩ | ⟨z, hput, hrest⟩
    · obtain ⟨-, -, -, rfl⟩ := put_eq_err.1 hput
      exact ⟨_, rfl⟩
    · obtain ⟨-, rfl⟩ := put_eq_ok.1 hput
      obtain ⟨o, hy⟩ := ih hrest
      exact ⟨o, hy⟩

/-- A group of elements read: its elements written, then the progress moved on over it. -/
theorem movesTo_putAll_advance {vs : List (BitVec w)} {idx n : Nat} {x y : Work w}
    (h : Reaches ((putAll vs idx x).andThen fun y => .ok (y.advance n)) y) : MovesTo (x.eng.i + n) x.eng y.eng := by
  rcases h.andThen with h | ⟨z, hz, h⟩
  · obtain ⟨o, hy⟩ := putAll_reaches h
    exact ⟨x.eng.i, o, by omega, hy⟩
  · obtain ⟨o, hz⟩ := putAll_reaches (.inl hz)
    exact ⟨x.eng.i + n, o, le_rfl, by rw [h.of_ok, Work.advance_eng, hz]⟩

theorem movesTo_packLoop {op : Instr} {src : List (Option Code)} {x y : Work 8} (h : Reaches (packLoop op src x) y) :
    MovesTo (x.eng.i + src.length) x.eng y.eng := by
  induction src, x using packLoop.induct with
  | case1 x => exact h.of_ok ▸ .refl (Nat.le_add_right _ _)
  | case2 x rest => exact h.of_fault.elim
  | case3 x c1 => exact movesTo_putAll_advance h
  | case4 x c1 rest => exact h.of_fault.elim
  | case5 x c1 c2 rest ih =>
    simp only [List.length_cons]
    rcases Reaches.andThen h with h | ⟨z, hz, h⟩
    · exact (movesTo_putAll_advance h).mono (by omega)
    · have hgroup := movesTo_putAll_advance (Or.inl hz)
      have := hgroup.progress
      exact (hgroup.trans (ih z h)).mono (by omega)

theorem movesTo_unpackGroup {o0 o1 o2 : Option Byte} {x y : Work 12} (h : Reaches (unpackGroup o0 o1 o2 x) y) :
    MovesTo (x.eng.i + 3) x.eng y.eng := by
  unfold unpackGroup at h
  split at h
  · exact h.of_fault.elim
  · exact movesTo_putAll_advance h

theorem movesTo_unpackLoop {src : List (Option Byte)} {x y : Work 12} (h : Reaches (unpackLoop src x) y) :
    MovesTo (x.eng.i + src.length) x.eng y.eng := by
  induction src, x using unpackLoop.induct with
  | case1 x o0 o1 o2 rest ih =>
    simp only [List.length_cons]
    rcases Reaches.andThen h with h | ⟨z, hz, h⟩
    · exact (movesTo_unpackGroup h).mono (by omega)
    · have hgroup := movesTo_unpackGroup (Or.inl hz)
      have := hgroup.progress
      exact (hgroup.trans (ih z h)).mono (by omega)
  | case2 src x hne =>
    rw [unpackLoop.eq_2 _ _ hne] at h
    exact h.of_ok ▸ .refl (Nat.le_add_right _ _)

theorem movesTo_creadGroup {cnt : Nat} {o0 o1 o2 : Option Byte} {x y : Work 12}
    (h : Reaches (creadGroup cnt o0 o1 o2 x) y) : MovesTo (x.eng.i + 3) x.eng y.eng := by
  unfold creadGroup at h
  split at h
  · exact h.of_fault.elim
  · exact movesTo_putAll_advance h

theorem movesTo_creadLoop {cnt : Nat} {src : List (Option Byte)} {x y : Work 12}
    (h : Reaches (creadLoop cnt src x) y) : MovesTo (x.eng.i + src.length) x.eng y.eng := by
  induction src, x using creadLoop.induct with
  | case1 x o0 o1 o2 rest ih =>
    simp only [List.length_cons]
    rcases Reaches.andThen h with h | ⟨z, hz, h⟩
    · exact (movesTo_creadGroup h).mono (by omega)
    · have hgroup := movesTo_creadGroup (Or.inl hz)
      have := hgroup.progress
      exact (hgroup.trans (ih z h)).mono (by omega)
  | case2 src x hne =>
    rw [creadLoop.eq_2 _ _ _ hne] at h
    exact h.of_ok ▸ .refl (Nat.le_add_right _ _)

/-- CREAD's checks on a header move the progress behind the header, whichever way they end (R192). -/
theorem creadCheck_reaches {cw rwd : Word} {x y : Work 12} (h : Reaches (creadCheck cw rwd x) y) :
    y.eng = { x.eng with i := max x.eng.i 8 } := by
  unfold creadCheck at h
  dsimp only at h
  split at h
  · rw [h.of_err]
  · split at h
    · rw [h.of_err]
    · rw [h.of_ok]

/-- A header that passes declares no more codes than the groups behind it hold (R192). -/
theorem packCount_of_creadCheck {cw rwd : Word} {x y : Work 12} (h : creadCheck cw rwd x = .ok y) :
    packCount (declaredCount y) ≤ (x.eng.sl - 8) / 3 := by
  unfold creadCheck at h
  dsimp only at h
  split at h
  · cases h
  · rename_i hrange
    have hcount : ¬ (sint32 cw < 0 ∨ sint32 cw > 2 * (((x.eng.sl - 8) / 3 : Nat) : Int)) := hrange
    split at h
    · cases h
    · cases h
      show ((sint32 cw).toNat + 1) / 2 ≤ _
      omega

/-- Behind the region checks either nothing is done or the regions fit (R105). -/
theorem reaches_checked {a b : Nat} {k : Work w → Res (Work w)} {x y : Work w}
    (h : Reaches ((checkRegions a b x).andThen k) y) :
    y = x ∨ (x.eng.sb + x.eng.sl ≤ a ∧ x.eng.db + x.eng.dc ≤ b ∧ Reaches (k x) y) := by
  rcases checkRegions_cases a b x with ⟨hc, hsrc, hdst⟩ | ⟨hc, -⟩ <;> rw [hc] at h
  · exact .inr ⟨hsrc, hdst, h⟩
  · exact .inl h.of_err

end Sys2Proof.Machine
end

section
/-! A piece of any command keeps the engine's invariant and writes only inside the destination region. -/

namespace Sys2Proof.Machine

variable {w : Nat} {c : Config} {e : Engine}

/-- What a piece of a command that begins in engine `e` has come to: it only appended output within the capacity, the
engine's invariant holds, and anything it wrote lies inside the destination region (R102, R106). -/
structure WorkOk (c : Config) (e : Engine) (y : Work w) : Prop where
  grows  : Grows (Work.start w e) y
  engine : EngineOk c y.eng
  inside : y.out = [] ∨ regionsFit c e

theorem workOk_start (h : EngineOk c e) : WorkOk c e (Work.start w e) := ⟨.refl _, h, .inl rfl⟩

theorem Grows.output_le {x y : Work w} (h : Grows x y) (hx : x.eng.o ≤ x.eng.dc) : y.eng.o ≤ x.eng.dc := by
  obtain ⟨-, hsnap, l, -, ho, hcap⟩ := h
  by_cases hl : l = []
  · rw [ho, hl]
    simpa using hx
  · have : y.eng.dc = x.eng.dc := by rw [Engine.dc, hsnap, Engine.dc]
    exact this ▸ hcap hl

/-- The elements a piece wrote lie inside the destination RAM. -/
theorem WorkOk.written {y : Work w} (h : WorkOk c e y) (he : EngineOk c e) :
    y.out = [] ∨ e.db + e.o + y.out.length ≤ ramDepth c (destRam e.op) := by
  refine h.inside.imp_right fun hfit => ?_
  have hcap := h.grows.output_le he.output
  obtain ⟨-, -, l, hout, ho, -⟩ := h.grows
  rw [Work.start_out, List.nil_append] at hout
  rw [Work.start_eng] at hcap ho
  have := hfit.2
  rw [hout]
  omega

/-- A piece of a framing command whose progress stays inside the source region. -/
theorem workOk_of_movesTo {y : Work w} (he : EngineOk c e) (hop : e.op ≠ .encode) (hg : Grows (Work.start w e) y)
    (hm : MovesTo e.sl e y.eng) (hfit : regionsFit c e) : WorkOk c e y :=
  ⟨hg, he.movesTo hop hm (hg.output_le he.output), .inr hfit⟩

/-! ### ENCODE and DECODE -/

/-- A piece of ENCODE or DECODE: the start, then a walk that keeps the engine's invariant. -/
theorem workOk_of_codecOpen {a b : Nat} {k : Work w → Res (Work w)} {y : Work w} (he : EngineOk c e)
    (hcap : Config.literals ≤ c.maxEntries) (hop : usesDictionary e.op = true) (ha : a = ramDepth c (sourceRam e.op))
    (hb : b = ramDepth c (destRam e.op)) (hg : Grows (Work.start w e) y)
    (hwalk : ∀ z, EngineOk c z.eng → z.eng.op = e.op → Reaches (k z) y → EngineOk c y.eng)
    (h : Reaches ((codecOpen a b (Work.start w e)).andThen k) y) : WorkOk c e y := by
  rcases h.andThen_inv with ⟨E, i, hopen⟩ | ⟨z, hopen, hk⟩
  · exact codecOpen_err hopen ▸ workOk_start he
  · obtain ⟨hz, hzop, hfit⟩ := codecOpen_keeps hopen he hcap hop ha hb
    exact ⟨hg, hwalk z hz hzop hk, .inr hfit⟩

variable {n : Nat} {s : State}

/-- At most `n` further source elements end inside the source region. -/
theorem add_length_ramRange_le (h : e.i ≤ e.sl) {v : Nat} (m : List (Nat × BitVec v)) (a n : Nat) :
    e.i + (ramRange m a (min n (e.sl - e.i))).length ≤ e.sl := by
  rw [ramRange_length]
  omega

theorem workOk_encodePart {y : Work 12} (he : EngineOk s.cfg e) (hcap : Config.literals ≤ s.cfg.maxEntries)
    (hop : e.op = .encode) (h : Reaches (encodePart n s e) y) : WorkOk s.cfg e y := by
  have hg := grows_encodePart n s e y h
  rw [encodePart, encodeOpen_eq] at h
  exact workOk_of_codecOpen he hcap (by rw [hop]; rfl) (by rw [hop]; rfl) (by rw [hop]; rfl) hg
    (fun _ hz hzop hk => encodeLoop_keeps hz (hzop.trans hop) (add_length_ramRange_le hz.progress _ _ _) hk) h

/-- The whole of ENCODE is its walk and then the final emission (R143). -/
theorem workOk_encodeBody {y : Work 12} (he : EngineOk s.cfg e) (hcap : Config.literals ≤ s.cfg.maxEntries)
    (hop : e.op = .encode) (h : Reaches (encodeBody s e) y) : WorkOk s.cfg e y := by
  have hg := grows_encodeBody s e y h
  rw [encodeBody, encodePart, encodeOpen_eq, Res.andThen_assoc] at h
  refine workOk_of_codecOpen he hcap (by rw [hop]; rfl) (by rw [hop]; rfl) (by rw [hop]; rfl) hg ?_ h
  intro z hz hzop hk
  have hlen := add_length_ramRange_le hz.progress s.sym (z.eng.sb + z.eng.i) e.sl
  have hloop {z' : Work 12} := encodeLoop_keeps (y := z') hz (hzop.trans hop) hlen
  rcases hk.andThen_inv with ⟨E, i, hend⟩ | ⟨z', hend, hclose⟩
  · exact hloop (.inr ⟨E, i, hend⟩)
  · exact encodeClose_keeps (hloop (.inl hend)) hclose

theorem workOk_decodePart {y : Work 8} (he : EngineOk s.cfg e) (hcap : Config.literals ≤ s.cfg.maxEntries)
    (hop : e.op = .decode) (h : Reaches (decodePart n s e) y) : WorkOk s.cfg e y := by
  have hg := grows_decodePart n s e y h
  rw [decodePart, decodeOpen_eq] at h
  exact workOk_of_codecOpen he hcap (by rw [hop]; rfl) (by rw [hop]; rfl) (by rw [hop]; rfl) hg
    (fun _ hz hzop hk => decodeLoop_keeps hz (hzop.trans hop) (add_length_ramRange_le hz.progress _ _ _) hk) h

/-! ### The framing commands -/

/-- PACK and CWRITE over at most `n` source codes, from progress inside the source region. -/
theorem movesTo_packCodes {op : Instr} {x y : Work 8} (hi : x.eng.i ≤ x.eng.sl) (h : Reaches (packCodes op n s x) y) :
    MovesTo x.eng.sl x.eng y.eng := (movesTo_packLoop h).mono (add_length_ramRange_le hi _ _ _)

theorem workOk_packPart {y : Work 8} (he : EngineOk s.cfg e) (hop : e.op = .pack) (h : Reaches (packPart n s e) y) :
    WorkOk s.cfg e y := by
  have hg := grows_packPart n s e y h
  rw [packPart, packOpen, Res.andThen_assoc] at h
  rcases reaches_checked h with rfl | ⟨hsrc, hdst, h⟩
  · exact workOk_start he
  · refine workOk_of_movesTo he (by simp [hop]) hg ?_ (by rw [regionsFit, hop]; exact ⟨hsrc, hdst⟩)
    split at h
    · exact h.of_err ▸ .refl he.progress
    · exact movesTo_packCodes he.progress h

theorem workOk_cwritePart {y : Work 8} (he : EngineOk s.cfg e) (hop : e.op = .cwrite)
    (h : Reaches (cwritePart n s e) y) : WorkOk s.cfg e y := by
  have hg := grows_cwritePart n s e y h
  rw [cwritePart, cwriteOpen, Res.andThen_assoc] at h
  rcases reaches_checked h with rfl | ⟨hsrc, hdst, h⟩
  · exact workOk_start he
  · refine workOk_of_movesTo he (by simp [hop]) hg ?_ (by rw [regionsFit, hop]; exact ⟨hsrc, hdst⟩)
    split at h
    · exact h.of_err ▸ .refl he.progress
    · split at h
      · rcases h.andThen with h | ⟨z, hz, h⟩
        · obtain ⟨o, hy⟩ := putAll_reaches h
          exact ⟨e.i, o, he.progress, hy⟩
        · obtain ⟨o, hz⟩ := putAll_reaches (.inl hz)
          have hheader : MovesTo e.sl e z.eng := ⟨e.i, o, he.progress, hz⟩
          exact hheader.walk fun hi => movesTo_packCodes hi h
      · exact movesTo_packCodes he.progress h

theorem workOk_unpackPart {y : Work 12} (he : EngineOk s.cfg e) (hop : e.op = .unpack)
    (h : Reaches (unpackPart n s e) y) : WorkOk s.cfg e y := by
  have hg := grows_unpackPart n s e y h
  rw [unpackPart, unpackOpen, Res.andThen_assoc] at h
  rcases reaches_checked h with rfl | ⟨hsrc, hdst, h⟩
  · exact workOk_start he
  · refine workOk_of_movesTo he (by simp [hop]) hg ?_ (by rw [regionsFit, hop]; exact ⟨hsrc, hdst⟩)
    split at h
    · exact h.of_err ▸ .refl he.progress
    · split at h
      · exact h.of_err ▸ .refl he.progress
      · exact (movesTo_unpackLoop h).mono (add_length_ramRange_le he.progress _ _ _)

/-- The declared groups among at most `n` further source bytes, as CREAD reads them behind its header (R192). -/
def creadGroups (n : Nat) (s : State) (x : Work 12) : Res (Work 12) :=
  creadLoop (declaredCount x)
    (ramRange s.stream (x.eng.sb + x.eng.i) (min n (8 + 3 * packCount (declaredCount x) - x.eng.i))) x

theorem creadPart_eq (n : Nat) (s : State) (e : Engine) :
    creadPart n s e = (creadOpen s.cfg s.stream (Work.start 12 e)).andThen (creadGroups n s) := rfl

/-- CREAD where a header is there: its checks on the header, then the declared groups (R192). -/
theorem movesTo_creadHeader {cw rwd : Word} {x y : Work 12} (hi : x.eng.i ≤ x.eng.sl) (hhdr : 8 ≤ x.eng.sl)
    (h : Reaches ((creadCheck cw rwd x).andThen (creadGroups n s)) y) : MovesTo x.eng.sl x.eng y.eng := by
  have hmove {z : Work 12} (hz : Reaches (creadCheck cw rwd x) z) : MovesTo x.eng.sl x.eng z.eng :=
    ⟨_, _, Nat.max_le.2 ⟨hi, hhdr⟩, creadCheck_reaches hz⟩
  rcases h.andThen with h | ⟨z, hz, h⟩
  · exact hmove h
  · have hcount := packCount_of_creadCheck hz
    have hsl : z.eng.sl = x.eng.sl := by rw [creadCheck_reaches (.inl hz)]; rfl
    refine (hmove (.inl hz)).walk fun hi => (movesTo_creadLoop h).mono ?_
    rw [ramRange_length]
    omega

theorem workOk_creadPart {y : Work 12} (he : EngineOk s.cfg e) (hop : e.op = .cread)
    (h : Reaches (creadPart n s e) y) : WorkOk s.cfg e y := by
  have hg := grows_creadPart n s e y h
  rw [creadPart_eq, creadOpen, Res.andThen_assoc] at h
  rcases reaches_checked h with rfl | ⟨hsrc, hdst, h⟩
  · exact workOk_start he
  · refine workOk_of_movesTo he (by simp [hop]) hg ?_ (by rw [regionsFit, hop]; exact ⟨hsrc, hdst⟩)
    split at h
    · exact h.of_err ▸ .refl he.progress
    · rename_i hhdr
      split at h
      · exact h.of_fault.elim
      · split at h
        · exact h.of_fault.elim
        · exact movesTo_creadHeader he.progress (by simpa using hhdr) h

end Sys2Proof.Machine
end

section
/-! The invariant under every move: the ends of a command, the engine working on, the host and reset. -/

namespace Sys2Proof.Machine

variable {s : State}

/-! ### The parts of a state the invariant does not look at, and the RAMs -/

/-- The invariant says nothing of the host's position and datum, the schedule and the draw counter. -/
theorem Inv.withHost (h : Inv s) (pos : Nat) (d : Word) (ts : List Turn) (n : Nat) :
    Inv { s with pos := pos, hostData := d, turns := ts, draws := n } where
  part := h.part
  memory := h.memory
  symRange := h.symRange
  codeRange := h.codeRange
  streamRange := h.streamRange
  status := { h.status with }
  dictSize := h.dictSize
  running e he := { h.running e he with }

/-- RAMs in canonical form and inside their depths may stand in for those of a good state. -/
theorem Inv.withRams (h : Inv s) {sym stream : List (Nat × BitVec 8)} {code : List (Nat × BitVec 12)}
    (hwf : ramWf sym ∧ ramWf code ∧ ramWf stream) (hsym : ∀ p ∈ sym, p.1 < s.cfg.symDepth)
    (hcode : ∀ p ∈ code, p.1 < s.cfg.codeDepth) (hstream : ∀ p ∈ stream, p.1 < s.cfg.streamDepth) (n : Nat) :
    Inv { s with sym := sym, code := code, stream := stream, draws := n } where
  part := h.part
  memory := hwf
  symRange := hsym
  codeRange := hcode
  streamRange := hstream
  status := { h.status with }
  dictSize := h.dictSize
  running e he := { h.running e he with }

theorem Inv.cap (h : Inv s) : Config.literals ≤ s.cfg.maxEntries ∧ s.cfg.maxEntries ≤ Config.codeSpace := by
  have := h.part
  simp only [Config.wellFormed, Config.capOk, Bool.and_eq_true, decide_eq_true_eq] at this
  exact this.1.1.1

/-- The elements of a RAM stay below its depth when a sequence that ends below it is written. -/
theorem forall_mem_ramWriteSeq_lt {w : Nat} {m : List (Nat × BitVec w)} {a depth : Nat} {vs : List (BitVec w)}
    (hm : ∀ p ∈ m, p.1 < depth) (hvs : vs = [] ∨ a + vs.length ≤ depth) : ∀ p ∈ ramWriteSeq m a vs, p.1 < depth := by
  rcases hvs with rfl | hvs
  · exact hm
  · intro p hp
    rcases mem_ramWriteSeq hp with hp | ⟨-, hlt⟩
    · exact hm p hp
    · exact Nat.lt_of_lt_of_le hlt hvs

/-- A store of destination elements inside RAM `m` keeps the invariant, the part and the running command. -/
def KeepsInv {w : Nat} (m : RamId) (store : Nat → List (BitVec w) → State → State) : Prop :=
  ∀ a vs s, Inv s → vs = [] ∨ a + vs.length ≤ ramDepth s.cfg m →
    Inv (store a vs s) ∧ (store a vs s).cfg = s.cfg ∧ (store a vs s).engine = s.engine

theorem keepsInv_storeSym : KeepsInv .sym storeSym := fun a vs s h hvs =>
  ⟨h.withRams (memoryWf_storeSym h.memory a vs) (forall_mem_ramWriteSeq_lt h.symRange hvs) h.codeRange h.streamRange
    s.draws, rfl, rfl⟩

theorem keepsInv_storeCode : KeepsInv .code storeCode := fun a vs s h hvs =>
  ⟨h.withRams (memoryWf_storeCode h.memory a vs) h.symRange (forall_mem_ramWriteSeq_lt h.codeRange hvs) h.streamRange
    s.draws, rfl, rfl⟩

theorem keepsInv_storeStream : KeepsInv .stream storeStream := fun a vs s h hvs =>
  ⟨h.withRams (memoryWf_storeStream h.memory a vs) h.symRange h.codeRange (forall_mem_ramWriteSeq_lt h.streamRange hvs)
    s.draws, rfl, rfl⟩

/-! ### The ends of a command -/

/-- DICT_SIZE after an end: 0, the size of the command's table, or what it was (R35). -/
theorem dictSize_settle {w : Nat} (h : Inv s) {x : Work w} (hx : EngineOk s.cfg x.eng) (op : Instr) :
    (s.settle op x).dictSize.toNat = 0 ∨ (Config.literals ≤ (s.settle op x).dictSize.toNat ∧
      (s.settle op x).dictSize.toNat ≤ s.cfg.maxEntries) := by
  have hcap : s.cfg.maxEntries ≤ 4096 := h.cap.2
  cases hop : usesDictionary op with
  | false => simpa [State.settle, hop] using h.dictSize
  | true =>
    have hsize : (s.settle op x).dictSize = endDictSize x.eng := by simp [State.settle, hop]
    rw [hsize]
    cases hd : x.eng.dict with
    | none => left; rw [endDictSize, hd]; rfl
    | some d =>
      have hbound := (hx.table d hd).bounded
      have hseeds : Config.literals ≤ dictCount d := Nat.le_add_right _ _
      rw [endDictSize, hd, BitVec.toNat_ofNat, Nat.mod_eq_of_lt (by omega)]
      exact .inr ⟨hseeds, hbound⟩

/-- Every end of a command keeps the invariant, with flags that are those of an idle block. -/
theorem Inv.settled {w : Nat} (h : Inv s) {x : Work w} (hx : EngineOk s.cfg x.eng) (op : Instr) {done error : Bool}
    {code : BitVec 4} (hone : done = true → error = false) (hcode : code ≠ 0#4 ↔ error = true) (hle : code.toNat ≤ 7)
    (idx : Word) : Inv { s.settle op x with done := done, error := error, errCode := code, errIndex := idx } where
  part := h.part
  memory := h.memory
  symRange := h.symRange
  codeRange := h.codeRange
  streamRange := h.streamRange
  status := ⟨nofun, nofun, hone, hcode, hle⟩
  dictSize := dictSize_settle h hx op
  running _ hnone := by cases hnone

theorem Inv.complete {w : Nat} (h : Inv s) (hbusy : s.busy = true) {x : Work w} (hx : EngineOk s.cfg x.eng)
    (op : Instr) : Inv (s.complete op x) :=
  h.settled hx op (fun _ => h.status.busyNotError hbusy) h.status.codeIffError h.status.codeAssigned _

theorem ErrCode.code_ne_zero (E : ErrCode) : E.code ≠ 0#4 := by cases E <;> decide

theorem ErrCode.code_le (E : ErrCode) : E.code.toNat ≤ 7 := by cases E <;> decide

theorem Inv.raiseErr {w : Nat} (h : Inv s) (hbusy : s.busy = true) {x : Work w} (hx : EngineOk s.cfg x.eng)
    (op : Instr) (E : ErrCode) (i : Nat) : Inv (s.raiseErr op E i x) := by
  have hone : s.done = true → true = false := fun hdone => by
    cases (h.status.busyNotDone hbusy).symm.trans hdone
  exact h.settled hx op hone (iff_of_true E.code_ne_zero rfl) E.code_le _

/-- A command that runs to its end keeps the invariant where its body does its work well. -/
theorem inv_of_runCommand {w : Nat} {op : Instr} {store : Nat → List (BitVec w) → State → State}
    {body : State → Engine → Res (Work w)} {t : State} {e : Engine} (h : Inv s) (he : s.engine = some e)
    (hop : e.op = op) (hstore : KeepsInv (destRam op) store) (hbody : ∀ x, Reaches (body s e) x → WorkOk s.cfg e x)
    (ht : runCommand op store body s = .next t) : Inv t := by
  obtain ⟨x, hx, ht⟩ := runCommand_next ht
  rw [State.engineFor_of_some op he, State.issued_of_busy op ((State.busy_iff s).2 ⟨e, he⟩)] at hx ht
  have hwork := hbody x hx
  obtain ⟨hinv, hcfg, heng⟩ := hstore (e.db + e.o) x.out s h (hop ▸ hwork.written (h.running e he).engine)
  have hbusy : (store (e.db + e.o) x.out s).busy = true := (State.busy_iff _).2 ⟨e, heng.trans he⟩
  have hxe : EngineOk (store (e.db + e.o) x.out s).cfg x.eng := hcfg ▸ hwork.engine
  rcases ht with rfl | ⟨E, i, rfl⟩
  · exact hinv.complete hbusy hxe op
  · exact hinv.raiseErr hbusy hxe op E i

/-- A piece of a command's work keeps the invariant where the piece does its work well. -/
theorem inv_workOn {w : Nat} {store : Nat → List (BitVec w) → State → State} {r : Res (Work w)} {e : Engine}
    (h : Inv s) (he : s.engine = some e) (hstore : KeepsInv (destRam e.op) store)
    (hpart : ∀ x, Reaches r x → WorkOk s.cfg e x) : Inv (s.workOn store e r) := by
  cases r with
  | err => exact h
  | fault => exact h
  | ok x =>
    have hwork := hpart x (.inl rfl)
    obtain ⟨hinv, hcfg, heng⟩ := hstore (e.db + e.o) x.out s h (hwork.written (h.running e he).engine)
    have hold := hinv.running e (heng.trans he)
    have hbusy : (store (e.db + e.o) x.out s).busy = true := (State.busy_iff _).2 ⟨e, heng.trans he⟩
    exact { hinv with
      status := { hinv.status with
        busyNotDone := fun _ => hinv.status.busyNotDone hbusy
        busyNotError := fun _ => hinv.status.busyNotError hbusy }
      running := fun e' he' => by
        cases he'
        exact { hold with
          command := by rw [hwork.grows.op]; exact hold.command
          operands := by rw [hwork.grows.snap]; exact hold.operands
          engine := by show EngineOk (store _ _ s).cfg _; rw [hcfg]; exact hwork.engine } }

/-! ### The engine's turns -/

/-- Complete of the running command keeps the invariant. -/
theorem inv_exec {e : Engine} {t : State} (h : Inv s) (he : s.engine = some e) (ht : exec e.op s = .next t) :
    Inv t := by
  have hok := (h.running e he).engine
  have hcap := h.cap.1
  cases hop : e.op <;> rw [hop] at ht
  case encode => exact inv_of_runCommand h he hop keepsInv_storeCode (fun _ => workOk_encodeBody hok hcap hop) ht
  case decode => exact inv_of_runCommand h he hop keepsInv_storeSym (fun _ => workOk_decodePart hok hcap hop) ht
  case pack => exact inv_of_runCommand h he hop keepsInv_storeStream (fun _ => workOk_packPart hok hop) ht
  case unpack => exact inv_of_runCommand h he hop keepsInv_storeCode (fun _ => workOk_unpackPart hok hop) ht
  case cwrite => exact inv_of_runCommand h he hop keepsInv_storeStream (fun _ => workOk_cwritePart hok hop) ht
  case cread => exact inv_of_runCommand h he hop keepsInv_storeCode (fun _ => workOk_creadPart hok hop) ht

theorem inv_engineTurn {t : State} (h : Inv s) (ht : engineTurn s = .next t) : Inv t := by
  cases he : s.engine with
  | none =>
    rw [engineTurn_of_idle he] at ht
    cases ht
    exact h
  | some e =>
    rw [engineTurn, he] at ht
    exact inv_exec h he ht

theorem inv_advanceEngine (h : Inv s) : Inv (advanceEngine s) := by
  unfold advanceEngine
  split
  · exact h
  · rename_i e he
    have hok := (h.running e he).engine
    have hcap := h.cap.1
    cases hop : e.op
    case encode => exact inv_workOn h he (hop ▸ keepsInv_storeCode) fun _ => workOk_encodePart hok hcap hop
    case decode => exact inv_workOn h he (hop ▸ keepsInv_storeSym) fun _ => workOk_decodePart hok hcap hop
    case pack => exact inv_workOn h he (hop ▸ keepsInv_storeStream) fun _ => workOk_packPart hok hop
    case unpack => exact inv_workOn h he (hop ▸ keepsInv_storeCode) fun _ => workOk_unpackPart hok hop
    case cwrite => exact inv_workOn h he (hop ▸ keepsInv_storeStream) fun _ => workOk_cwritePart hok hop
    case cread => exact inv_workOn h he (hop ▸ keepsInv_storeCode) fun _ => workOk_creadPart hok hop

/-! ### Reset -/

theorem inv_resetWith {c : Config} (h : c.wellFormed = true) : Inv (State.resetWith c) where
  part := h
  memory := memoryWf_resetWith c
  symRange p hp := by cases hp
  codeRange p hp := by cases hp
  streamRange p hp := by cases hp
  status := by constructor <;> simp [State.resetWith]
  dictSize := .inl rfl
  running e he := by cases he

theorem inv_resetBlock (h : Inv s) : Inv (resetBlock s) :=
  { inv_resetWith h.part with
    status := { (inv_resetWith h.part).status with }
    running := fun _ he => by cases he }

end Sys2Proof.Machine
end

section
/-! The host's turn and the step keep the invariant. -/

namespace Sys2Proof.Machine

variable {s : State}

/-- A command word is its two fields side by side (R75). -/
theorem rsvdField_append_opcodeField (v : Word) : rsvdField v ++ opcodeField v = v := by
  ext i hi
  have hi' : i < 32 := hi
  simp only [rsvdField, opcodeField, BitVec.getElem_append]
  split
  · simp [BitVec.getLsbD_eq_getElem hi']
  · simp [show 4 + (i - 4) = i by omega, BitVec.getLsbD_eq_getElem hi']

theorem opcodeMap_eq_ok {n : Nat} {op : Instr} (h : opcodeMap n = .ok op) : n = (opcodeOf op).toNat := by
  unfold opcodeMap at h
  split at h <;> cases h <;> rfl

/-- A word that decodes to a command is that command's word (R80). -/
theorem encode_of_decodeCmd {v : Word} {op : Instr} (h : decodeCmd v = .ok op) : v = encode op := by
  unfold decodeCmd at h
  split at h
  · cases h
  · rename_i hrsvd
    have hop : opcodeField v = opcodeOf op := BitVec.eq_of_toNat_eq (opcodeMap_eq_ok h)
    rw [encode, ← hop, ← not_not.1 hrsvd, rsvdField_append_opcodeField]

/-! ### Host writes -/

theorem Inv.withOperands (h : Inv s) (hidle : s.engine = none) (sb sl db dc rw : Word) (n : Nat) :
    Inv { s with srcBase := sb, srcLen := sl, dstBase := db, dstCap := dc, rowWidth := rw, draws := n } :=
  { h with
    status := { h.status with }
    running := fun _ he => by cases hidle.symm.trans he }

/-- A CMD write while idle: a command with a fresh engine and the record cleared, or BAD_COMMAND (R100, R101). -/
theorem inv_writeCmd (h : Inv s) (hidle : s.engine = none) (v : Word) : Inv (s.writeCmd v) := by
  simp only [State.writeCmd]
  split
  · rename_i op hop
    exact { h with
      status := by constructor <;> simp
      running := fun e he => by
        cases he
        exact ⟨rfl, rfl, encode_of_decodeCmd hop, rfl, engineOk_fresh _ _ _⟩ }
  · exact { h with
      status := by constructor <;> simp [State.busy, hidle, ErrCode.code]
      running := fun _ he => by cases hidle.symm.trans he }

theorem inv_writeReg (h : Inv s) (hidle : s.engine = none) (r : Reg) (v : Word) : Inv (s.writeReg r v) := by
  cases r
  case cmd => exact inv_writeCmd h hidle v
  case srcBase | srcLen | dstBase | dstCap | rowWidth => exact h.withOperands hidle _ _ _ _ _ _
  case id | status | resultLen | dictSize | hdrCount | errIndex => exact h

/-- The elements of a RAM stay below its depth when one below it is written. -/
theorem forall_mem_ramWrite_lt {w : Nat} {m : List (Nat × BitVec w)} {a depth : Nat} (hm : ∀ p ∈ m, p.1 < depth)
    (ha : a < depth) (v : BitVec w) : ∀ p ∈ ramWrite m a v, p.1 < depth := by
  intro p hp
  rcases mem_ramWrite hp with rfl | hp
  · exact ha
  · exact hm p hp

theorem inv_writeElement (h : Inv s) {m : RamId} {i : Nat} (hi : i < ramDepth s.cfg m) (v : Word) :
    Inv (s.writeElement m i v) := by
  have hwf := memoryWf_writeElement h.memory m i v
  cases m with
  | sym => exact h.withRams hwf (forall_mem_ramWrite_lt h.symRange hi _) h.codeRange h.streamRange _
  | code => exact h.withRams hwf h.symRange (forall_mem_ramWrite_lt h.codeRange hi _) h.streamRange _
  | stream => exact h.withRams hwf h.symRange h.codeRange (forall_mem_ramWrite_lt h.streamRange hi _) _

theorem inv_hostWrite (h : Inv s) (a d : Word) : Inv (hostWrite a d s) := by
  unfold hostWrite
  split
  · exact h
  · rename_i hbusy
    have hidle : s.engine = none := (State.busy_false_iff s).1 (by simpa using hbusy)
    split
    · exact inv_writeReg h hidle _ d
    · split
      · exact inv_writeElement h (by assumption) d
      · exact h
    · exact h

/-! ### The host's turn -/

/-- A read changes at most the draw counter (R64). -/
theorem hostRead_state (a : Word) (s : State) : ∃ n, (hostRead a s).2 = { s with draws := n } := by
  unfold hostRead
  split
  · exact ⟨s.draws, rfl⟩
  · split
    · unfold State.readElement
      split
      · exact ⟨s.draws + 1, rfl⟩
      · split <;> exact ⟨s.draws, rfl⟩
    · exact ⟨s.draws, rfl⟩
  · exact ⟨s.draws, rfl⟩

theorem inv_hostStatement (h : Inv s) (st : HostStmt) : Inv (hostStatement st s) := by
  cases st with
  | wr a v => exact (inv_hostWrite h a (hostValue v s)).withHost _ _ _ _
  | rd a =>
    obtain ⟨n, hn⟩ := hostRead_state a s
    rw [hostStatement, hn]
    exact h.withHost _ _ _ _
  | bnz mask target => exact h.withHost _ _ _ _
  | halt => exact h

theorem inv_hostTurn (h : Inv s) : Inv (hostTurn s) := by
  cases hst : s.prog[s.pos]? with
  | none => rwa [hostTurn_of_none hst]
  | some st => exact hostTurn_of_statement hst ▸ inv_hostStatement h st

/-! ### The step -/

theorem inv_takeTurn {tu : Turn} {t : State} (h : Inv s) (ht : takeTurn tu s = .next t) : Inv t := by
  cases tu with
  | host => cases ht; exact inv_hostTurn h
  | engine => exact inv_engineTurn h ht
  | advance => cases ht; exact inv_advanceEngine h
  | reset => cases ht; exact inv_resetBlock h

/-- Settles O21, by the agent that moves: its move keeps the invariant, and the schedule is no part of it. -/
theorem stepKeepsInvariant : Obligations.StepKeepsInvariant := by
  unfold Obligations.StepKeepsInvariant
  intro s t h ht
  cases hts : s.turns with
  | nil =>
    rw [step_of_turns_nil hts] at ht
    exact inv_takeTurn h ht
  | cons tu ts =>
    rw [step_of_turns_cons hts] at ht
    exact inv_takeTurn (h.withHost s.pos s.hostData ts s.draws) ht

/-- Settles O20: the reset state of a well-formed part is good, and the standard part is well formed. -/
theorem invariantAfterReset : Obligations.InvariantAfterReset := by
  unfold Obligations.InvariantAfterReset
  have hstandard : Config.standard.wellFormed = true := by decide
  exact ⟨inv_resetWith hstandard, fun _ hc => inv_resetWith hc⟩

end Sys2Proof.Machine
end

section
/-! The host port by the register or the element an address reaches (R30, R57 to R60), and STATUS by its fields (R33). -/

namespace Sys2Proof.Machine

variable {s : State}

theorem hostRead_of_reg {a : Word} {r : Reg} (h : decodeAddr a = .reg r) (s : State) :
    hostRead a s = (s.readReg r, s) := by rw [hostRead, h]

@[simp] theorem hostRead_regAddr (r : Reg) (s : State) : hostRead (regAddr r) s = (s.readReg r, s) :=
  hostRead_of_reg (decodeAddr_regAddr r) s

theorem hostWrite_of_busy (h : s.busy = true) (a d : Word) : hostWrite a d s = s := by rw [hostWrite, if_pos h]

theorem hostWrite_of_reg {a : Word} {r : Reg} (h : decodeAddr a = .reg r) (hidle : s.busy = false) (d : Word) :
    hostWrite a d s = s.writeReg r d := by simp [hostWrite, hidle, h]

/-! ### Registers -/

/-- The registers a host write sets to its datum (R20 to R25). -/
def Reg.isOperand (r : Reg) : Prop := r = .srcBase ∨ r = .srcLen ∨ r = .dstBase ∨ r = .dstCap ∨ r = .rowWidth

theorem readReg_writeReg_self {r : Reg} (h : r.isOperand) (v : Word) (s : State) :
    (s.writeReg r v).readReg r = v := by
  rcases h with rfl | rfl | rfl | rfl | rfl <;> rfl

theorem readReg_writeReg_of_ne {r r' : Reg} (h : r.isOperand) (hne : r' ≠ r) (v : Word) (s : State) :
    (s.writeReg r v).readReg r' = s.readReg r' := by
  rcases h with rfl | rfl | rfl | rfl | rfl <;> cases r' <;> first | rfl | exact absurd rfl hne

theorem writeReg_operand_kept {r : Reg} (h : r.isOperand) (v : Word) (s : State) :
    (s.writeReg r v).sym = s.sym ∧ (s.writeReg r v).code = s.code ∧ (s.writeReg r v).stream = s.stream ∧
    (s.writeReg r v).engine = s.engine := by
  rcases h with rfl | rfl | rfl | rfl | rfl <;> exact ⟨rfl, rfl, rfl, rfl⟩

/-- Settles O10: the write reaches its register, and the reads theirs. -/
theorem operandRegistersReadBack : Obligations.OperandRegistersReadBack := by
  unfold Obligations.OperandRegistersReadBack
  intro s r r' v hidle hr hne
  rw [hostWrite_of_reg (decodeAddr_regAddr r) hidle, hostRead_regAddr, hostRead_regAddr, hostRead_regAddr]
  exact ⟨readReg_writeReg_self hr v s, readReg_writeReg_of_ne hr hne v s, writeReg_operand_kept hr v s⟩

/-- Settles O11: each offset is its register's address. -/
theorem registerMapReads : Obligations.RegisterMapReads := by
  unfold Obligations.RegisterMapReads
  intro s
  have hread (r : Reg) : hostRead (regAddr r) s = (s.readReg r, s) := hostRead_regAddr r s
  have hsize : BitVec.ofNat 32 s.dictSize.toNat = s.readReg .dictSize := BitVec.ofNat_toNat 32 s.dictSize
  rw [hsize]
  exact ⟨hread .id, hread .cmd, hread .status, hread .srcBase, hread .srcLen, hread .dstBase, hread .dstCap,
    hread .rowWidth, hread .resultLen, hread .dictSize, hread .hdrCount, hread .errIndex⟩

/-- Settles O17: the reads reach the registers, whose reset values are 0. -/
theorem resetRegistersRead : Obligations.ResetRegistersRead := by
  unfold Obligations.ResetRegistersRead
  refine ⟨congrArg Prod.fst (hostRead_regAddr .id _), fun r hne => ?_, fun m a => ?_, rfl⟩
  · rw [hostRead_regAddr]
    cases r
    case id => exact absurd rfl hne
    all_goals decide
  · cases m <;> rfl

/-! ### STATUS -/

/-- The bits of STATUS: four flags, ERRCODE at bits 11:8, and zeros (R33). -/
theorem getLsbD_statusWord (s : State) (i : Nat) :
    s.statusWord.getLsbD i =
      if i = 0 then s.busy else if i = 1 then s.done else if i = 2 then s.error else if i = 3 then s.saturated
      else if i < 8 then false else s.errCode.getLsbD (i - 8) := by
  have happend : s.statusWord.getLsbD i =
      BitVec.getLsbD (w := 20 + 4 + 4 + 1 + 1 + 1 + 1)
        (0#20 ++ s.errCode ++ 0#4 ++ BitVec.ofBool s.saturated ++ BitVec.ofBool s.error ++
          BitVec.ofBool s.done ++ BitVec.ofBool s.busy) i := rfl
  rw [happend]
  simp only [BitVec.getLsbD_append]
  match i with
  | 0 | 1 | 2 | 3 | 4 | 5 | 6 | 7 => simp
  | j + 8 => simpa using fun h => BitVec.lt_of_getLsbD h

theorem getLsbD_statusWord_mid {i : Nat} (h : 4 ≤ i) (h' : i < 8) : s.statusWord.getLsbD i = false := by
  rw [getLsbD_statusWord, if_neg (by omega), if_neg (by omega), if_neg (by omega), if_neg (by omega), if_pos h']

theorem getLsbD_statusWord_high {i : Nat} (h : 8 ≤ i) : s.statusWord.getLsbD i = s.errCode.getLsbD (i - 8) := by
  rw [getLsbD_statusWord, if_neg (by omega), if_neg (by omega), if_neg (by omega), if_neg (by omega),
    if_neg (by omega)]

/-- Settles O12: each field's bits are bits of STATUS. -/
theorem statusFields : Obligations.StatusFields := by
  unfold Obligations.StatusFields
  intro s
  refine ⟨?busy, ?done, ?error, ?saturated, ?errCode, ?low, ?high⟩
  case busy => rw [getLsbD_statusWord, if_pos rfl, State.busy, Option.isSome_iff_ne_none]
  case done => rw [getLsbD_statusWord]; rfl
  case error => rw [getLsbD_statusWord]; rfl
  case saturated =>
    rw [getLsbD_statusWord]
    exact decide_eq_true_iff
  case errCode =>
    ext i hi
    rw [BitVec.getElem_extractLsb', getLsbD_statusWord_high (by omega), Nat.add_sub_cancel_left,
      BitVec.getLsbD_eq_getElem hi]
  case low =>
    ext i hi
    rw [BitVec.getElem_extractLsb', getLsbD_statusWord_mid (by omega) (by omega), BitVec.getElem_zero]
  case high =>
    ext i hi
    rw [BitVec.getElem_extractLsb', getLsbD_statusWord_high (by omega), BitVec.getLsbD_of_ge _ _ (by omega),
      BitVec.getElem_zero]

/-! ### Reserved space (R38, R60) -/

/-- An address behind which there is nothing: reserved space, or a window offset at or beyond the RAM's depth. -/
def ReachesNothing (s : State) (a : Word) : Prop :=
  decodeAddr a = .reserved ∨ ∃ m i, decodeAddr a = .ram m i ∧ ramDepth s.cfg m ≤ i

theorem hostRead_of_reachesNothing {a : Word} (h : ReachesNothing s a) : hostRead a s = (0#32, s) := by
  unfold hostRead
  rcases h with h | ⟨m, i, h, hi⟩ <;> rw [h]
  exact if_neg (by omega)

theorem hostWrite_of_reachesNothing {a : Word} (h : ReachesNothing s a) (d : Word) : hostWrite a d s = s := by
  unfold hostWrite
  split
  · rfl
  · rcases h with h | ⟨m, i, h, hi⟩ <;> rw [h]
    exact if_neg (by omega)

/-- The register space ends behind ERR_INDEX (R30). -/
theorem regAt_reserved {n : Nat} (h : 0x030 ≤ n) : regAt n = .reserved := by
  unfold regAt
  split <;> first | rfl | omega

theorem decodeAddr_eq (a : Word) : decodeAddr a = targetOf (a.toNat / 4 * 4) := by
  rw [decodeAddr, alignedAddr_toNat]

theorem decodeAddr_reserved_low {a : Word} (h : 0x030 ≤ a.toNat) (h' : a.toNat < 0x01000000) :
    decodeAddr a = .reserved := by
  rw [decodeAddr_eq, targetOf]
  split
  · exact regAt_reserved (by omega)
  · exact if_pos (by omega)

theorem decodeAddr_reserved_high {a : Word} (h : 0x04000000 ≤ a.toNat) : decodeAddr a = .reserved := by
  rw [decodeAddr_eq, targetOf, if_neg (by omega), if_neg (by omega), if_neg (by omega), if_neg (by omega),
    if_neg (by omega)]

/-- Every address of a window reaches the element its offset names (R58, R61). -/
theorem decodeAddr_window (m : RamId) {a : Word} (h : windowBase m ≤ a.toNat)
    (h' : a.toNat < windowBase m + 0x01000000) :
    decodeAddr a = .ram m ((a.toNat - windowBase m) / 4) := by
  rw [decodeAddr_eq, targetOf]
  cases m <;> simp only [windowBase] at h h' ⊢
  · rw [if_neg (by omega), if_neg (by omega), if_pos (by omega)]
    exact congrArg (Target.ram .sym) (by omega)
  · rw [if_neg (by omega), if_neg (by omega), if_neg (by omega), if_pos (by omega)]
    exact congrArg (Target.ram .code) (by omega)
  · rw [if_neg (by omega), if_neg (by omega), if_neg (by omega), if_neg (by omega), if_pos (by omega)]
    exact congrArg (Target.ram .stream) (by omega)

theorem reachesNothing_window (m : RamId) {a : Word} (h : windowBase m ≤ a.toNat)
    (h' : a.toNat < windowBase m + 0x01000000) (hd : ramDepth s.cfg m ≤ (a.toNat - windowBase m) / 4) :
    ReachesNothing s a := .inr ⟨m, _, decodeAddr_window m h h', hd⟩

/-- A write to a register that ignores it changes nothing, busy or idle. -/
theorem hostWrite_of_readOnly {r : Reg} (h : ∀ v s, State.writeReg r v s = s) (d : Word) (s : State) :
    hostWrite (regAddr r) d s = s := by
  cases hb : s.busy with
  | true => exact hostWrite_of_busy hb _ d
  | false => rw [hostWrite_of_reg (decodeAddr_regAddr r) hb, h]

/-- Settles O13, by what the address reaches. -/
theorem reservedSpaceIsInert : Obligations.ReservedSpaceIsInert := by
  unfold Obligations.ReservedSpaceIsInert
  intro s a d
  refine ⟨fun ha => ?_, fun ha => ?_⟩
  · have hnothing : ReachesNothing s a := by
      rcases ha with ⟨h, h'⟩ | h | ⟨h, h', hd⟩ | ⟨h, h', hd⟩ | ⟨h, h', hd⟩
      · exact .inl (decodeAddr_reserved_low h h')
      · exact .inl (decodeAddr_reserved_high h)
      · exact reachesNothing_window .sym h h' hd
      · exact reachesNothing_window .code h h' hd
      · exact reachesNothing_window .stream h h' hd
    exact ⟨hostRead_of_reachesNothing hnothing, hostWrite_of_reachesNothing hnothing d⟩
  · simp only [List.mem_cons, List.not_mem_nil, or_false] at ha
    rcases ha with rfl | rfl | rfl | rfl | rfl | rfl
    · exact hostWrite_of_readOnly (r := .id) (fun _ _ => rfl) d s
    · exact hostWrite_of_readOnly (r := .status) (fun _ _ => rfl) d s
    · exact hostWrite_of_readOnly (r := .resultLen) (fun _ _ => rfl) d s
    · exact hostWrite_of_readOnly (r := .dictSize) (fun _ _ => rfl) d s
    · exact hostWrite_of_readOnly (r := .hdrCount) (fun _ _ => rfl) d s
    · exact hostWrite_of_readOnly (r := .errIndex) (fun _ _ => rfl) d s

end Sys2Proof.Machine
end

section
/-! The stops of a command body: an unwritten element of the list of source elements it walks over (R54). -/

namespace Sys2Proof.Machine

variable {w : Nat} {c : Config} {f : Fault}

/-! ### Where a walk over source elements stops -/

/-- `f` names an unwritten element of `src`, whose elements stand in the RAM from index `a` on. -/
def HitsUnwritten (op : Instr) (ram : RamId) (a : Nat) (src : List (Option (BitVec w))) (f : Fault) : Prop :=
  ∃ j, src[j]? = some none ∧ f = .unwrittenRead op ram (a + j)

variable {op : Instr} {ram : RamId} {a : Nat}

theorem hitsUnwritten_head (op : Instr) (ram : RamId) (a : Nat) (src : List (Option (BitVec w))) :
    HitsUnwritten op ram a (none :: src) (.unwrittenRead op ram a) := ⟨0, rfl, rfl⟩

/-- An unwritten element found behind `l` is one of the whole list. -/
theorem HitsUnwritten.append {src : List (Option (BitVec w))} (l : List (Option (BitVec w))) {b : Nat}
    (hb : b = a + l.length) (h : HitsUnwritten op ram b src f) : HitsUnwritten op ram a (l ++ src) f := by
  obtain ⟨j, hj, rfl⟩ := h
  refine ⟨l.length + j, ?_, by rw [hb, Nat.add_assoc]⟩
  rw [List.getElem?_append_right (Nat.le_add_right _ _), Nat.add_sub_cancel_left, hj]

/-- An unwritten element of a range of the RAM. -/
theorem HitsUnwritten.ramRead_eq_none {m : List (Nat × BitVec w)} {n : Nat}
    (h : HitsUnwritten op ram a (ramRange m a n) f) :
    ∃ b, f = .unwrittenRead op ram b ∧ a ≤ b ∧ b < a + n ∧ ramRead m b = none := by
  obtain ⟨j, hj, rfl⟩ := h
  obtain ⟨hlt, hget⟩ := List.getElem?_eq_some_iff.1 hj
  rw [ramRange_length] at hlt
  rw [ramRange_getElem m a n j hlt] at hget
  exact ⟨a + j, rfl, Nat.le_add_right _ _, Nat.add_lt_add_left hlt a, hget⟩

/-! ### Operations that do not stop -/

theorem putSeq_ne_fault (t : List (BitVec w)) (idx : Nat) (x : Work w) : putSeq t idx x ≠ .fault f := by
  unfold putSeq
  split <;> nofun

theorem putAll_ne_fault (vs : List (BitVec w)) (idx : Nat) (x : Work w) : putAll vs idx x ≠ .fault f := by
  induction vs generalizing x with
  | nil => nofun
  | cons v rest ih =>
    intro h
    rcases Res.andThen_eq_fault.1 h with hput | ⟨y, -, hrest⟩
    · exact put_ne_fault hput
    · exact ih y hrest

/-- A fault behind the region checks is one of what follows them (R105). -/
theorem checkRegions_fault {a b : Nat} {k : Work w → Res (Work w)} {x : Work w}
    (h : (checkRegions a b x).andThen k = .fault f) : k x = .fault f := by
  rcases checkRegions_cases a b x with ⟨hc, -⟩ | ⟨hc, -⟩ <;> rw [hc] at h
  · exact h
  · cases h

theorem codecOpen_ne_fault {a b : Nat} {x : Work w} : codecOpen a b x ≠ .fault f := by
  unfold codecOpen
  intro h
  split at h
  · cases h
  · have := checkRegions_fault h
    split at this <;> cases this

/-- Behind its start the command has a table, and its operands are those it began with. -/
theorem codecOpen_begun {a b : Nat} {x y : Work w} (h : codecOpen a b x = .ok y) :
    y.eng.dict.isSome = true ∧ y.eng.snap = x.eng.snap := by
  rcases codecOpen_ok h with ⟨hsome, rfl⟩ | ⟨-, -, -, -, rfl⟩
  · exact ⟨hsome, rfl⟩
  · exact ⟨rfl, rfl⟩

/-- A fault of ENCODE or DECODE is one of what follows its start, in a good engine that has a table. -/
theorem codecOpen_fault {a b : Nat} {k : Work w → Res (Work w)} {e : Engine} (he : EngineOk c e)
    (hcap : Config.literals ≤ c.maxEntries) (hop : usesDictionary e.op = true) (ha : a = ramDepth c (sourceRam e.op))
    (hb : b = ramDepth c (destRam e.op)) (h : (codecOpen a b (Work.start w e)).andThen k = .fault f) :
    ∃ z, EngineOk c z.eng ∧ z.eng.op = e.op ∧ z.eng.snap = e.snap ∧ z.eng.dict.isSome = true ∧ k z = .fault f := by
  rcases Res.andThen_eq_fault.1 h with hopen | ⟨z, hopen, hk⟩
  · exact absurd hopen codecOpen_ne_fault
  · obtain ⟨hz, hzop, -⟩ := codecOpen_keeps hopen he hcap hop ha hb
    obtain ⟨hdict, hsnap⟩ := codecOpen_begun hopen
    exact ⟨z, hz, hzop, hsnap, hdict, hk⟩

/-! ### The table under the invariant: no lookup misses (R123) -/

theorem exists_lookupCode {d : Dict} {k : Nat} (h : k < dictCount d) : ∃ m, lookupCode d k = some m := by
  unfold lookupCode
  unfold dictCount at h
  split
  · exact ⟨_, rfl⟩
  · exact ⟨_, List.getElem?_eq_getElem (by omega)⟩

/-- No entry is the empty sequence (R129). -/
theorem DictOk.lookupCode_ne_nil {M : Nat} {d : Dict} (h : DictOk M d) {k : Nat} : lookupCode d k ≠ some [] := by
  unfold lookupCode
  intro hk
  split at hk
  · cases hk
  · obtain ⟨p, m, x, -, -, hm⟩ := h.prefixed _ _ hk
    simp at hm

/-- No translation is the empty sequence (R159, R160). -/
theorem DictOk.translate_ne_nil {M : Nat} {d : Dict} (h : DictOk M d) {p k : Nat} {m : List Symbol}
    (hm : lookupCode d p = some m) : translate M d m k ≠ some [] := by
  unfold translate
  intro ht
  split at ht
  · exact h.lookupCode_ne_nil ht
  · split at ht
    · obtain ⟨rfl, -⟩ := List.append_eq_nil_iff.1 (Option.some_inj.1 ht)
      exact h.lookupCode_ne_nil hm
    · cases ht

/-! ### ENCODE stops at an unwritten symbol only -/

theorem encodeWalk_ne_fault {sy : Symbol} {x : Work 12} (hx : EngineOk c x.eng) (hdict : x.eng.dict.isSome = true) :
    encodeWalk c sy x ≠ .fault f := by
  unfold encodeWalk
  intro h
  split at h
  · rename_i hnone
    rw [hnone] at hdict
    cases hdict
  · cases h
  · rename_i d k hd hcur
    obtain ⟨m, hm⟩ := exists_lookupCode (hx.matchKnown d k hd hcur)
    rw [hm] at h
    dsimp only at h
    split at h
    · cases h
    · rcases Res.andThen_eq_fault.1 h with hput | ⟨y, -, hy⟩
      · exact put_ne_fault hput
      · cases hy

theorem EncodeMove.hasDict {sy : Symbol} {e e' : Engine} (h : EncodeMove c sy e e') : e'.dict.isSome = true := by
  cases h with
  | first hd | extend hd => exact Option.isSome_of_eq_some hd
  | emit => rfl

theorem encodeLoop_fault {src : List (Option Symbol)} {x : Work 12} (hx : EngineOk c x.eng)
    (hop : x.eng.op = .encode) (hdict : x.eng.dict.isSome = true) (hlen : x.eng.i + src.length ≤ x.eng.sl)
    (h : encodeLoop c src x = .fault f) : HitsUnwritten .encode .sym (x.eng.sb + x.eng.i) src f := by
  induction src generalizing x with
  | nil => cases h
  | cons o rest ih =>
    rw [List.length_cons] at hlen
    cases o with
    | none => cases h; exact hitsUnwritten_head ..
    | some sy =>
      rcases Res.andThen_eq_fault.1 h with hwalk | ⟨z, hz, hrest⟩
      · exact absurd hwalk (encodeWalk_ne_fault hx hdict)
      · have hmove := encodeWalk_ok hz
        obtain ⟨hop', hsnap', hi'⟩ := hmove.progress
        have hhit := ih (hx.encodeMove hop (by omega) hmove) (hop'.trans hop) hmove.hasDict
          (by rw [hi', Engine.sl, hsnap']; exact Nat.le_trans (by omega) hlen) hrest
        refine hhit.append [some sy] ?_
        rw [hi', Engine.sb, hsnap']
        rfl

theorem encodeLoop_progress {src : List (Option Symbol)} {x y : Work 12} (h : encodeLoop c src x = .ok y) :
    y.eng.i = x.eng.i + src.length := by
  induction src generalizing x with
  | nil => cases h; rfl
  | cons o rest ih =>
    cases o with
    | none => cases h
    | some sy =>
      obtain ⟨z, hz, hrest⟩ := Res.andThen_eq_ok.1 h
      obtain ⟨-, -, hi⟩ := (encodeWalk_ok hz).progress
      rw [ih hrest, hi, List.length_cons, Nat.add_assoc, Nat.add_comm 1]

/-- ENCODE that has consumed a symbol has a match to emit (R133, R143). -/
theorem encodeClose_ne_fault {x : Work 12} (hx : EngineOk c x.eng) (hop : x.eng.op = .encode) (hi : 0 < x.eng.i) :
    encodeClose x ≠ .fault f := by
  unfold encodeClose
  split
  · rename_i hcur
    exact absurd (hx.encodeFrom hop hcur) (Nat.pos_iff_ne_zero.1 hi)
  · exact put_ne_fault

/-! ### DECODE stops at an unwritten code only -/

theorem decodeFirst_ne_fault {d : Dict} {k : Code} {x : Work 8} : decodeFirst d k x ≠ .fault f := by
  unfold decodeFirst
  intro h
  split at h
  · cases h
  · obtain ⟨t, ht⟩ := exists_lookupCode (d := d) (k := k.toNat) (by omega)
    rw [ht] at h
    rcases Res.andThen_eq_fault.1 h with hput | ⟨y, -, hy⟩
    · exact putSeq_ne_fault _ _ _ hput
    · cases hy

theorem decodeLater_ne_fault {d : Dict} {p k : Code} {m : List Symbol} {x : Work 8} (hd : DictOk c.maxEntries d)
    (hm : lookupCode d p.toNat = some m) : decodeLater c d m k x ≠ .fault f := by
  unfold decodeLater
  intro h
  split at h
  · cases h
  · rename_i t ht
    cases t with
    | nil => exact hd.translate_ne_nil hm ht
    | cons y t =>
      rcases Res.andThen_eq_fault.1 h with hput | ⟨z, -, hz⟩
      · exact putSeq_ne_fault _ _ _ hput
      · cases hz

theorem decodeWalk_ne_fault {k : Code} {x : Work 8} (hx : EngineOk c x.eng) (hdict : x.eng.dict.isSome = true) :
    decodeWalk c k x ≠ .fault f := by
  unfold decodeWalk
  intro h
  split at h
  · rename_i hnone
    rw [hnone] at hdict
    cases hdict
  · exact decodeFirst_ne_fault h
  · rename_i d p hd hprev
    obtain ⟨m, hm⟩ := exists_lookupCode (hx.prevKnown d p hd hprev)
    rw [hm] at h
    exact decodeLater_ne_fault (hx.table d hd) hm h

theorem DecodeMove.hasDict {k : Code} {e e' : Engine} (h : DecodeMove c k e e') : e'.dict.isSome = true := by
  cases h with
  | first hd => exact Option.isSome_of_eq_some hd
  | later => rfl

theorem decodeLoop_fault {src : List (Option Code)} {x : Work 8} (hx : EngineOk c x.eng) (hop : x.eng.op = .decode)
    (hdict : x.eng.dict.isSome = true) (hlen : x.eng.i + src.length ≤ x.eng.sl)
    (h : decodeLoop c src x = .fault f) : HitsUnwritten .decode .code (x.eng.sb + x.eng.i) src f := by
  induction src generalizing x with
  | nil => cases h
  | cons o rest ih =>
    rw [List.length_cons] at hlen
    cases o with
    | none => cases h; exact hitsUnwritten_head ..
    | some k =>
      rcases Res.andThen_eq_fault.1 h with hwalk | ⟨z, hz, hrest⟩
      · exact absurd hwalk (decodeWalk_ne_fault hx hdict)
      · have hmove := decodeWalk_ok hz
        obtain ⟨hop', hsnap', hi'⟩ := hmove.progress
        have hhit := ih (hx.decodeMove hop (by omega) hmove) (hop'.trans hop) hmove.hasDict
          (by rw [hi', Engine.sl, hsnap']; exact Nat.le_trans (by omega) hlen) hrest
        refine hhit.append [some k] ?_
        rw [hi', Engine.sb, hsnap']
        rfl

/-! ### The framing commands stop at an unwritten element only -/

theorem putAll_advance_ne_fault (vs : List (BitVec w)) (idx n : Nat) (x : Work w) :
    ((putAll vs idx x).andThen fun y => .ok (y.advance n)) ≠ .fault f := by
  intro h
  rcases Res.andThen_eq_fault.1 h with hput | ⟨y, -, hy⟩
  · exact putAll_ne_fault vs idx x hput
  · cases hy

/-- The elements of a group written, the progress has moved on over it. -/
theorem putAll_advance_eq_ok {vs : List (BitVec w)} {idx n : Nat} {x z : Work w}
    (h : ((putAll vs idx x).andThen fun y => .ok (y.advance n)) = .ok z) :
    ∃ o, z.eng = { x.eng with i := x.eng.i + n, o := o } := by
  obtain ⟨y, hput, hz⟩ := Res.andThen_eq_ok.1 h
  obtain ⟨o, hy⟩ := putAll_reaches (.inl hput)
  cases hz
  exact ⟨o, by rw [Work.advance_eng, hy]⟩

theorem packLoop_fault {src : List (Option Code)} {x : Work 8} (h : packLoop op src x = .fault f) :
    HitsUnwritten op .code (x.eng.sb + x.eng.i) src f := by
  induction src, x using packLoop.induct with
  | case1 x => cases h
  | case2 x rest => cases h; exact hitsUnwritten_head ..
  | case3 x c1 => exact absurd h (putAll_advance_ne_fault _ _ _ _)
  | case4 x c1 rest => cases h; exact (hitsUnwritten_head ..).append [some c1] rfl
  | case5 x c1 c2 rest ih =>
    rcases Res.andThen_eq_fault.1 h with hgroup | ⟨z, hz, hrest⟩
    · exact absurd hgroup (putAll_advance_ne_fault _ _ _ _)
    · refine (ih z hrest).append [some c1, some c2] ?_
      obtain ⟨o, hz⟩ := putAll_advance_eq_ok hz
      rw [hz]
      rfl

/-- One CodePack of UNPACK and CREAD: its three bytes are read, and the codes `codes` makes of them are written. -/
def readGroup (op : Instr) (codes : Nat → Byte → Byte → Byte → List Code) (o0 o1 o2 : Option Byte) (x : Work 12) :
    Res (Work 12) :=
  match readTriple op (x.eng.sb + x.eng.i) o0 o1 o2 with
  | .error f => .fault f
  | .ok (b0, b1, b2) => (putAll (codes x.eng.i b0 b1 b2) x.eng.i x).andThen fun y => .ok (y.advance 3)

/-- The CodePacks of UNPACK and CREAD, in increasing order. -/
def groupLoop (op : Instr) (codes : Nat → Byte → Byte → Byte → List Code) (src : List (Option Byte)) (x : Work 12) :
    Res (Work 12) :=
  match src with
  | o0 :: o1 :: o2 :: rest => (readGroup op codes o0 o1 o2 x).andThen fun y => groupLoop op codes rest y
  | _ => .ok x

/-- The codes UNPACK makes of a CodePack (R184). -/
def unpackedPair (_ : Nat) (b0 b1 b2 : Byte) : List Code := [unpackFirst b0 b1, unpackSecond b1 b2]

/-- The codes CREAD makes of the CodePack at stream offset `i` where `cnt` codes are declared (R192). -/
def declaredCodes (cnt i : Nat) (b0 b1 b2 : Byte) : List Code :=
  if 2 * ((i - 8) / 3) + 1 < cnt then [unpackFirst b0 b1, unpackSecond b1 b2] else [unpackFirst b0 b1]

theorem unpackLoop_eq (src : List (Option Byte)) (x : Work 12) :
    unpackLoop src x = groupLoop .unpack unpackedPair src x := by
  induction src, x using unpackLoop.induct with
  | case1 x o0 o1 o2 rest ih =>
    have hgroup : unpackGroup o0 o1 o2 x = readGroup .unpack unpackedPair o0 o1 o2 x := rfl
    rw [unpackLoop, groupLoop, hgroup, funext ih]
  | case2 src x hne => rw [unpackLoop.eq_2 _ _ hne, groupLoop.eq_2 _ _ _ _ hne]

theorem creadLoop_eq (cnt : Nat) (src : List (Option Byte)) (x : Work 12) :
    creadLoop cnt src x = groupLoop .cread (declaredCodes cnt) src x := by
  induction src, x using creadLoop.induct with
  | case1 x o0 o1 o2 rest ih =>
    have hgroup : creadGroup cnt o0 o1 o2 x = readGroup .cread (declaredCodes cnt) o0 o1 o2 x := rfl
    rw [creadLoop, groupLoop, hgroup, funext ih]
  | case2 src x hne => rw [creadLoop.eq_2 _ _ _ hne, groupLoop.eq_2 _ _ _ _ hne]

theorem readTriple_error {o0 o1 o2 : Option Byte} (h : readTriple op a o0 o1 o2 = .error f)
    (rest : List (Option Byte)) : HitsUnwritten op .stream a (o0 :: o1 :: o2 :: rest) f := by
  unfold readTriple at h
  split at h <;> cases h
  · exact ⟨0, rfl, rfl⟩
  · exact ⟨1, rfl, rfl⟩
  · exact ⟨2, rfl, rfl⟩

theorem readGroup_fault {codes : Nat → Byte → Byte → Byte → List Code} {o0 o1 o2 : Option Byte} {x : Work 12}
    (h : readGroup op codes o0 o1 o2 x = .fault f) (rest : List (Option Byte)) :
    HitsUnwritten op .stream (x.eng.sb + x.eng.i) (o0 :: o1 :: o2 :: rest) f := by
  unfold readGroup at h
  split at h
  · rename_i hread
    cases h
    exact readTriple_error hread rest
  · exact absurd h (putAll_advance_ne_fault _ _ _ _)

theorem readGroup_ok {codes : Nat → Byte → Byte → Byte → List Code} {o0 o1 o2 : Option Byte} {x z : Work 12}
    (h : readGroup op codes o0 o1 o2 x = .ok z) : ∃ o, z.eng = { x.eng with i := x.eng.i + 3, o := o } := by
  unfold readGroup at h
  split at h
  · cases h
  · exact putAll_advance_eq_ok h

theorem groupLoop_fault {codes : Nat → Byte → Byte → Byte → List Code} {src : List (Option Byte)} {x : Work 12}
    (h : groupLoop op codes src x = .fault f) : HitsUnwritten op .stream (x.eng.sb + x.eng.i) src f := by
  induction src, x using groupLoop.induct with
  | case1 x o0 o1 o2 rest ih =>
    rcases Res.andThen_eq_fault.1 h with hgroup | ⟨z, hz, hrest⟩
    · exact readGroup_fault hgroup rest
    · refine (ih z hrest).append [o0, o1, o2] ?_
      obtain ⟨o, hz⟩ := readGroup_ok hz
      rw [hz]
      rfl
  | case2 src x hne =>
    rw [groupLoop.eq_2 _ _ _ _ hne] at h
    cases h

/-! ### The header of CREAD -/

theorem streamByte_error {m : List (Nat × BitVec 8)} (h : streamByte op m a = .error f) :
    f = .unwrittenRead op .stream a ∧ ramRead m a = none := by
  unfold streamByte at h
  split at h
  · cases h
  · rename_i hread
    cases h
    exact ⟨rfl, hread⟩

/-- A header word that cannot be read has an unwritten byte (R178). -/
theorem le32Read_error {m : List (Nat × BitVec 8)} (h : le32Read op m a = .error f) :
    ∃ j, j < 4 ∧ f = .unwrittenRead op .stream (a + j) ∧ ramRead m (a + j) = none := by
  unfold le32Read at h
  split at h <;> cases h
  · exact ⟨0, by decide, streamByte_error (by assumption)⟩
  · exact ⟨1, by decide, streamByte_error (by assumption)⟩
  · exact ⟨2, by decide, streamByte_error (by assumption)⟩
  · exact ⟨3, by decide, streamByte_error (by assumption)⟩

theorem creadCheck_ne_fault {cw rwd : Word} {x : Work 12} : creadCheck cw rwd x ≠ .fault f := by
  unfold creadCheck
  intro h
  dsimp only at h
  split at h
  · cases h
  · split at h <;> cases h

end Sys2Proof.Machine
end

section
/-! A step of a good state stops only at an unwritten element of the running command's source region (R54, R210). -/

namespace Sys2Proof.Machine

variable {w : Nat} {s : State} {e : Engine} {f : Fault} {op : Instr} {n : Nat}

/-- An unwritten element of RAM `m` inside the source region, where `m` is the RAM the command reads. -/
theorem stopsOnlyUnwritten_of_ramRead {m : List (Nat × BitVec w)} {a : Nat} (hop : e.op = op)
    (hm : ∀ a, s.element (sourceRam op) a = (ramRead m a).map (·.setWidth 32))
    (hf : f = .unwrittenRead op (sourceRam op) a) (hlo : e.sb ≤ a) (hhi : a < e.sb + e.sl) (hnone : ramRead m a = none) :
    StopsOnlyUnwritten s e f := by
  subst hop
  exact ⟨a, hf, hlo, hhi, by rw [hm, hnone]; rfl⟩

/-- A walk of the command over source elements, from a later state `e'` of its engine, stops inside the source region. -/
theorem HitsUnwritten.stopsOnlyUnwritten {e' : Engine} {m : List (Nat × BitVec w)}
    (h : HitsUnwritten op (sourceRam op) (e'.sb + e'.i) (ramRange m (e'.sb + e'.i) n) f) (hop : e.op = op)
    (hm : ∀ a, s.element (sourceRam op) a = (ramRead m a).map (·.setWidth 32)) (hsnap : e'.snap = e.snap)
    (hn : n ≤ e'.sl - e'.i) : StopsOnlyUnwritten s e f := by
  obtain ⟨b, hf, hlo, hhi, hnone⟩ := h.ramRead_eq_none
  have hsb : e'.sb = e.sb := congrArg (·.sb.toNat) hsnap
  have hsl : e'.sl = e.sl := congrArg (·.sl.toNat) hsnap
  exact stopsOnlyUnwritten_of_ramRead hop hm hf (by omega) (by omega) hnone

theorem element_sym (a : Nat) : s.element .sym a = (ramRead s.sym a).map (·.setWidth 32) := rfl

theorem element_code (a : Nat) : s.element .code a = (ramRead s.code a).map (·.setWidth 32) := rfl

theorem element_stream (a : Nat) : s.element .stream a = (ramRead s.stream a).map (·.setWidth 32) := rfl

/-! ### The six commands -/

theorem stopsOnlyUnwritten_encodeBody (he : EngineOk s.cfg e) (hcap : Config.literals ≤ s.cfg.maxEntries)
    (hop : e.op = .encode) (h : encodeBody s e = .fault f) : StopsOnlyUnwritten s e f := by
  rw [encodeBody, encodePart, encodeOpen_eq, Res.andThen_assoc] at h
  obtain ⟨z, hz, hzop, hsnap, hdict, hwalk⟩ :=
    codecOpen_fault he hcap (by rw [hop]; rfl) (by rw [hop]; rfl) (by rw [hop]; rfl) h
  rw [hop] at hzop
  have hlen := add_length_ramRange_le hz.progress s.sym (z.eng.sb + z.eng.i) e.sl
  rcases Res.andThen_eq_fault.1 hwalk with hloop | ⟨y, hloop, hclose⟩
  · exact (encodeLoop_fault hz hzop hdict hlen hloop).stopsOnlyUnwritten hop element_sym hsnap (Nat.min_le_right _ _)
  · refine absurd hclose (encodeClose_ne_fault (encodeLoop_keeps hz hzop hlen (.inl hloop)) ?_ ?_)
    · exact (grows_encodeLoop _ _ _ _ (.inl hloop)).op.trans hzop
    · have hpos := hz.nonEmpty hdict
      have hsl : z.eng.sl = e.sl := congrArg (·.sl.toNat) hsnap
      rw [encodeLoop_progress hloop, ramRange_length]
      omega

theorem stopsOnlyUnwritten_decodePart (he : EngineOk s.cfg e) (hcap : Config.literals ≤ s.cfg.maxEntries)
    (hop : e.op = .decode) (h : decodePart n s e = .fault f) : StopsOnlyUnwritten s e f := by
  rw [decodePart, decodeOpen_eq] at h
  obtain ⟨z, hz, hzop, hsnap, hdict, hloop⟩ :=
    codecOpen_fault he hcap (by rw [hop]; rfl) (by rw [hop]; rfl) (by rw [hop]; rfl) h
  have hlen := add_length_ramRange_le hz.progress s.code (z.eng.sb + z.eng.i) n
  exact (decodeLoop_fault hz (hzop.trans hop) hdict hlen hloop).stopsOnlyUnwritten hop element_code hsnap
    (Nat.min_le_right _ _)

/-- PACK and CWRITE over their source codes. -/
theorem stopsOnlyUnwritten_packCodes {x : Work 8} (hop : e.op = op) (hram : sourceRam op = .code)
    (hsnap : x.eng.snap = e.snap) (h : packCodes op n s x = .fault f) : StopsOnlyUnwritten s e f := by
  have hhit := packLoop_fault h
  rw [← hram] at hhit
  exact hhit.stopsOnlyUnwritten hop (by rw [hram]; exact element_code) hsnap (Nat.min_le_right _ _)

theorem stopsOnlyUnwritten_packPart (hop : e.op = .pack) (h : packPart n s e = .fault f) :
    StopsOnlyUnwritten s e f := by
  rw [packPart, packOpen, Res.andThen_assoc] at h
  have h := checkRegions_fault h
  split at h
  · cases h
  · exact stopsOnlyUnwritten_packCodes hop rfl rfl h

theorem stopsOnlyUnwritten_cwritePart (hop : e.op = .cwrite) (h : cwritePart n s e = .fault f) :
    StopsOnlyUnwritten s e f := by
  rw [cwritePart, cwriteOpen, Res.andThen_assoc] at h
  have h := checkRegions_fault h
  split at h
  · cases h
  · split at h
    · rcases Res.andThen_eq_fault.1 h with hput | ⟨z, hput, hcodes⟩
      · exact absurd hput (putAll_ne_fault _ _ _)
      · obtain ⟨o, hz⟩ := putAll_reaches (.inl hput)
        exact stopsOnlyUnwritten_packCodes hop rfl (by rw [hz]; rfl) hcodes
    · exact stopsOnlyUnwritten_packCodes hop rfl rfl h

theorem stopsOnlyUnwritten_unpackPart (hop : e.op = .unpack) (h : unpackPart n s e = .fault f) :
    StopsOnlyUnwritten s e f := by
  rw [unpackPart, unpackOpen, Res.andThen_assoc] at h
  have h := checkRegions_fault h
  split at h
  · cases h
  · split at h
    · cases h
    · rw [Res.andThen_ok, unpackLoop_eq] at h
      exact (groupLoop_fault h).stopsOnlyUnwritten hop element_stream rfl (Nat.min_le_right _ _)

/-- A header word that CREAD cannot read, inside a source region that holds a header. -/
theorem stopsOnlyUnwritten_le32Read {b : Nat} (hop : e.op = .cread) (hhdr : 8 ≤ e.sl) (hb : b ≤ 4)
    (h : le32Read .cread s.stream (e.sb + b) = .error f) : StopsOnlyUnwritten s e f := by
  obtain ⟨j, hj, hf, hnone⟩ := le32Read_error h
  exact stopsOnlyUnwritten_of_ramRead hop element_stream hf (by omega) (by omega) hnone

theorem stopsOnlyUnwritten_creadPart (hop : e.op = .cread) (h : creadPart n s e = .fault f) :
    StopsOnlyUnwritten s e f := by
  rw [creadPart_eq, creadOpen, Res.andThen_assoc] at h
  have h := checkRegions_fault h
  split at h
  · cases h
  rename_i hshort
  have hhdr : 8 ≤ e.sl := Nat.le_of_not_lt hshort
  split at h
  · rename_i hword
    cases h
    exact stopsOnlyUnwritten_le32Read (b := 0) hop hhdr (Nat.zero_le 4) hword
  split at h
  · rename_i hword
    cases h
    exact stopsOnlyUnwritten_le32Read hop hhdr le_rfl hword
  rcases Res.andThen_eq_fault.1 h with hcheck | ⟨z, hcheck, hgroups⟩
  · exact absurd hcheck creadCheck_ne_fault
  · have hz : z.eng = { e with i := max e.i 8 } := creadCheck_reaches (.inl hcheck)
    have hcount := packCount_of_creadCheck hcheck
    rw [Work.start_eng] at hcount
    have hsl : z.eng.sl = e.sl := by rw [hz]; rfl
    rw [creadGroups, creadLoop_eq] at hgroups
    exact (groupLoop_fault hgroups).stopsOnlyUnwritten hop element_stream (by rw [hz]) (by omega)

/-! ### The step -/

/-- A running command faults exactly where its body does. -/
theorem body_fault {store : Nat → List (BitVec w) → State → State} {body : State → Engine → Res (Work w)}
    (he : s.engine = some e) (h : runCommand op store body s = .fault f) : body s e = .fault f := by
  rw [runCommand_fault, State.engineFor_of_some op he, State.issued_of_busy op ((State.busy_iff s).2 ⟨e, he⟩)] at h
  exact h

/-- Complete of the running command stops only at an unwritten element of its source region. -/
theorem stopsOnlyUnwritten_exec (h : Inv s) (he : s.engine = some e) (hf : exec e.op s = .fault f) :
    StopsOnlyUnwritten s e f := by
  have hok := (h.running e he).engine
  have hcap := h.cap.1
  cases hop : e.op <;> rw [hop] at hf
  case encode => exact stopsOnlyUnwritten_encodeBody hok hcap hop (body_fault he hf)
  case decode => exact stopsOnlyUnwritten_decodePart hok hcap hop (body_fault he hf)
  case pack => exact stopsOnlyUnwritten_packPart hop (body_fault he hf)
  case unpack => exact stopsOnlyUnwritten_unpackPart hop (body_fault he hf)
  case cwrite => exact stopsOnlyUnwritten_cwritePart hop (body_fault he hf)
  case cread => exact stopsOnlyUnwritten_creadPart hop (body_fault he hf)

/-- Only the engine's own turn can stop, on the command it runs. -/
theorem takeTurn_fault {tu : Turn} (h : takeTurn tu s = .fault f) : ∃ e, s.engine = some e ∧ exec e.op s = .fault f := by
  cases tu with
  | host | advance | reset => cases h
  | engine =>
    cases he : s.engine with
    | none => rw [takeTurn_engine, engineTurn_of_idle he] at h; cases h
    | some e => rw [takeTurn_engine, engineTurn, he] at h; exact ⟨e, rfl, h⟩

theorem takeTurn_ne_refused (tu : Turn) (s : State) (r : Refusal) : takeTurn tu s ≠ .refused r := by
  cases tu with
  | host | advance | reset => nofun
  | engine =>
    rw [takeTurn_engine, engineTurn]
    split
    · exact exec_ne_refused _ _ _
    · nofun

/-- Settles O24: only the engine's turn can stop, and its command's body stops only at an unwritten source element. -/
theorem stopsOnlyOnUnwrittenSource : Obligations.StopsOnlyOnUnwrittenSource := by
  unfold Obligations.StopsOnlyOnUnwrittenSource
  refine ⟨fun s f h hf => ?stop, fun s r hr => ?refusal⟩
  case stop =>
    cases hts : s.turns with
    | nil =>
      rw [step_of_turns_nil hts] at hf
      obtain ⟨e, he, hf⟩ := takeTurn_fault hf
      exact ⟨e, he, stopsOnlyUnwritten_exec h he hf⟩
    | cons tu ts =>
      rw [step_of_turns_cons hts] at hf
      obtain ⟨e, he, hf⟩ := takeTurn_fault hf
      have hinv := h.withHost s.pos s.hostData ts s.draws
      have hstop := stopsOnlyUnwritten_exec hinv he hf
      exact ⟨e, he, hstop⟩
  case refusal =>
    cases hts : s.turns with
    | nil => exact takeTurn_ne_refused _ _ _ (step_of_turns_nil hts ▸ hr)
    | cons tu ts => exact takeTurn_ne_refused _ _ _ (step_of_turns_cons hts ▸ hr)

end Sys2Proof.Machine
end

section
/-! The RAM windows (R53, R59, R61, R64): what a host access does to the element it reaches. -/

namespace Sys2Proof.Machine

variable {s : State}

/-! ### Addresses (R61) -/

theorem decodeAddr_congr {a b : Word} (h : a.toNat / 4 = b.toNat / 4) : decodeAddr a = decodeAddr b := by
  rw [decodeAddr_eq, decodeAddr_eq, h]

/-- Settles O14: both accesses see an address only through what it reaches. -/
theorem addressLowBitsIgnored : Obligations.AddressLowBitsIgnored := by
  unfold Obligations.AddressLowBitsIgnored
  intro s a b d h
  have hreach := decodeAddr_congr h
  exact ⟨by rw [hostRead, hostRead, hreach], by rw [hostWrite, hostWrite, hreach]⟩

/-! ### Reads -/

theorem readElement_of_busy (m : RamId) (i : Nat) (h : s.busy = true) :
    s.readElement m i = (drawElement m s.draws i, { s with draws := s.draws + 1 }) := if_pos h

theorem readElement_of_written {m : RamId} {i : Nat} {v : Word} (hidle : s.busy = false)
    (h : s.element m i = some v) : s.readElement m i = (v, s) := by
  simp [State.readElement, hidle, h]

theorem readElement_of_unwritten {m : RamId} {i : Nat} (hidle : s.busy = false) (h : s.element m i = none) :
    s.readElement m i = (drawElement m s.draws i, s) := by
  simp [State.readElement, hidle, h]

theorem hostRead_of_ram {a : Word} {m : RamId} {i : Nat} (h : decodeAddr a = .ram m i) (hi : i < ramDepth s.cfg m) :
    hostRead a s = s.readElement m i := by
  simp [hostRead, h, hi]

/-- An address reaches a register, an element in range, or nothing. -/
theorem decodeAddr_cases (s : State) (a : Word) :
    (∃ r, decodeAddr a = .reg r) ∨ (∃ m i, decodeAddr a = .ram m i ∧ i < ramDepth s.cfg m) ∨ ReachesNothing s a := by
  cases h : decodeAddr a with
  | reg r => exact .inl ⟨r, rfl⟩
  | ram m i =>
    rcases Nat.lt_or_ge i (ramDepth s.cfg m) with hi | hi
    · exact .inr (.inl ⟨m, i, rfl, hi⟩)
    · exact .inr (.inr (.inr ⟨m, i, h, hi⟩))
  | reserved => exact .inr (.inr (.inl h))

theorem readElement_state_of_idle (m : RamId) (i : Nat) (hidle : s.busy = false) : (s.readElement m i).2 = s := by
  cases h : s.element m i with
  | none => rw [readElement_of_unwritten hidle h]
  | some v => rw [readElement_of_written hidle h]

/-- An idle read changes nothing (R64). -/
theorem hostRead_state_of_idle (hidle : s.busy = false) (a : Word) : (hostRead a s).2 = s := by
  rcases decodeAddr_cases s a with ⟨r, h⟩ | ⟨m, i, h, hi⟩ | h
  · rw [hostRead_of_reg h]
  · rw [hostRead_of_ram h hi, readElement_state_of_idle m i hidle]
  · rw [hostRead_of_reachesNothing h]

/-! ### The width of an element (R50, R59) -/

/-- The number of values an element of a RAM can have. -/
def elementValues (m : RamId) : Nat :=
  match m with
  | .sym    => 256
  | .code   => 4096
  | .stream => 256

theorem toNat_zeroExtend_lt {w : Nat} (v : BitVec w) (h : w ≤ 32) : (v.setWidth 32).toNat < 2 ^ w := by
  rw [BitVec.toNat_setWidth_of_le h]
  exact v.isLt

theorem drawElement_lt (m : RamId) (n i : Nat) : (drawElement m n i).toNat < elementValues m := by
  cases m <;> exact toNat_zeroExtend_lt _ (by decide)

theorem element_lt {m : RamId} {i : Nat} {v : Word} (h : s.element m i = some v) : v.toNat < elementValues m := by
  cases m <;> obtain ⟨u, -, rfl⟩ := Option.map_eq_some_iff.1 h <;> exact toNat_zeroExtend_lt u (by decide)

/-- A read of an element shows no bit above its width, busy or idle, written or not (R59). -/
theorem readElement_lt (m : RamId) (i : Nat) (s : State) : (s.readElement m i).1.toNat < elementValues m := by
  cases hb : s.busy with
  | true => rw [readElement_of_busy m i hb]; exact drawElement_lt m _ i
  | false =>
    cases h : s.element m i with
    | none => rw [readElement_of_unwritten hb h]; exact drawElement_lt m _ i
    | some v => rw [readElement_of_written hb h]; exact element_lt h

theorem hostRead_window_lt (m : RamId) {a : Word} (h : windowBase m ≤ a.toNat)
    (h' : a.toNat < windowBase m + 0x01000000) (s : State) : (hostRead a s).1.toNat < elementValues m := by
  rcases Nat.lt_or_ge ((a.toNat - windowBase m) / 4) (ramDepth s.cfg m) with hi | hi
  · rw [hostRead_of_ram (decodeAddr_window m h h') hi]
    exact readElement_lt m _ s
  · rw [hostRead_of_reachesNothing (reachesNothing_window m h h' hi)]
    show 0 < elementValues m
    cases m <;> decide

/-- Settles O16: the state by what the address reaches, the width by the window it lies in. -/
theorem readsHaveNoSideEffect : Obligations.ReadsHaveNoSideEffect := by
  unfold Obligations.ReadsHaveNoSideEffect
  refine fun s a => ⟨fun hidle => hostRead_state_of_idle hidle a, hostRead_state a s, fun hlo hhi => ?_⟩
  rcases Nat.lt_or_ge a.toNat 0x02000000 with hsym | hge
  · have hread : _ < 256 := hostRead_window_lt .sym hlo hsym s
    exact ⟨by omega, fun _ => hread⟩
  rcases Nat.lt_or_ge a.toNat 0x03000000 with hcode | hge'
  · have hread : _ < 4096 := hostRead_window_lt .code hge hcode s
    exact ⟨hread, fun hout => by omega⟩
  · have hread : _ < 256 := hostRead_window_lt .stream hge' hhi s
    exact ⟨by omega, fun _ => hread⟩

/-! ### Writes (R53, R59) -/

theorem hostWrite_of_ram {a : Word} {m : RamId} {i : Nat} (h : decodeAddr a = .ram m i) (hidle : s.busy = false)
    (hi : i < ramDepth s.cfg m) (d : Word) : hostWrite a d s = s.writeElement m i d := by
  simp [hostWrite, hidle, h, hi]

theorem setWidth_zeroExtend {w : Nat} (d : Word) (h : w ≤ 32) :
    (d.setWidth w).setWidth 32 = BitVec.ofNat 32 (d.toNat % 2 ^ w) := by
  apply BitVec.eq_of_toNat_eq
  have := Nat.mod_lt d.toNat (Nat.two_pow_pos w)
  rw [BitVec.toNat_setWidth_of_le h, BitVec.toNat_setWidth, BitVec.toNat_ofNat,
    Nat.mod_eq_of_lt (Nat.lt_of_lt_of_le this (Nat.pow_le_pow_right (by decide) h))]

/-- A written element holds the datum cut to the element's width. -/
theorem element_writeElement_self (m : RamId) (i : Nat) (d : Word) (s : State) :
    (s.writeElement m i d).element m i = some (BitVec.ofNat 32 (d.toNat % elementValues m)) := by
  cases m <;> simp only [State.writeElement, State.element, ramRead_ramWrite_self, Option.map_some] <;>
    exact congrArg some (setWidth_zeroExtend d (by decide))

theorem writeElement_busy (m : RamId) (i : Nat) (d : Word) (s : State) : (s.writeElement m i d).busy = s.busy := by
  cases m <;> rfl

theorem writeElement_cfg (m : RamId) (i : Nat) (d : Word) (s : State) : (s.writeElement m i d).cfg = s.cfg := by
  cases m <;> rfl

/-- An idle write to an element in range is that element's write, and a read then gives the cut datum. -/
theorem hostWrite_elementAddr {m : RamId} {i : Nat} (hidle : s.busy = false) (hmax : i < Config.maxDepth)
    (hi : i < ramDepth s.cfg m) (d : Word) :
    hostWrite (elementAddr m i) d s = s.writeElement m i d ∧
      (hostRead (elementAddr m i) (hostWrite (elementAddr m i) d s)).1 = BitVec.ofNat 32 (d.toNat % elementValues m) := by
  have ha := decodeAddr_elementAddr m i hmax
  have hidle' : (s.writeElement m i d).busy = false := (writeElement_busy m i d s).trans hidle
  have hi' : i < ramDepth (s.writeElement m i d).cfg m := by rwa [writeElement_cfg]
  have hwrite := hostWrite_of_ram ha hidle hi d
  refine ⟨hwrite, ?_⟩
  rw [hwrite, hostRead_of_ram ha hi', readElement_of_written hidle' (element_writeElement_self m i d s)]

/-- What is asked of the RAM that holds the written element: the cut datum there, every other element as before. -/
theorem ramRead_ramWrite_setWidth {w : Nat} (m : List (Nat × BitVec w)) (i : Nat) (d : Word) :
    ramRead (ramWrite m i (d.setWidth w)) i = some (BitVec.ofNat w d.toNat) ∧
      ∀ j, j ≠ i → ramRead (ramWrite m i (d.setWidth w)) j = ramRead m j :=
  ⟨by rw [ramRead_ramWrite_self, BitVec.ofNat_toNat], fun _ hj => ramRead_ramWrite_ne m _ hj⟩

/-- Settles O15, window by window: the element's address reaches it, the write is the element's, the read gives it. -/
theorem windowWriteThenRead : Obligations.WindowWriteThenRead := by
  unfold Obligations.WindowWriteThenRead
  refine fun s i d hidle hmax => ⟨fun hi => ?sym, fun hi => ?code, fun hi => ?stream⟩
  case sym =>
    obtain ⟨hwrite, hread⟩ := hostWrite_elementAddr (m := .sym) hidle hmax hi d
    obtain ⟨hself, hother⟩ := ramRead_ramWrite_setWidth s.sym i d
    exact ⟨_, _, hwrite, hself, hother, hread⟩
  case code =>
    obtain ⟨hwrite, hread⟩ := hostWrite_elementAddr (m := .code) hidle hmax hi d
    obtain ⟨hself, hother⟩ := ramRead_ramWrite_setWidth s.code i d
    exact ⟨_, _, hwrite, hself, hother, hread⟩
  case stream =>
    obtain ⟨hwrite, hread⟩ := hostWrite_elementAddr (m := .stream) hidle hmax hi d
    obtain ⟨hself, hother⟩ := ramRead_ramWrite_setWidth s.stream i d
    exact ⟨_, _, hwrite, hself, hother, hread⟩

end Sys2Proof.Machine
end

section
/-! The command decoder by the two fields of the word (R75, R79, R80), and the CMD write of a word that is no command
(R100, R101). -/

namespace Sys2Proof.Machine

variable {s : State} {v : Word}

/-! ### Which words are commands -/

/-- A word decodes to the one command whose word it is (R80). -/
theorem decodeCmd_eq_ok_iff {op : Instr} : decodeCmd v = .ok op ↔ v = encode op :=
  ⟨encode_of_decodeCmd, fun h => h ▸ decodeCmd_encode_of op⟩

/-- The decoder is total: what is no command's word is rejected (R80). -/
theorem decodeCmd_error_iff : (∃ r, decodeCmd v = .error r) ↔ ∀ op, v ≠ encode op := by
  simp only [ne_eq, ← decodeCmd_eq_ok_iff]
  cases decodeCmd v <;> simp

/-- Settles O2: decoding and encoding are inverse, and each word is its opcode. -/
theorem decodeExactlyEncodedWords : Obligations.DecodeExactlyEncodedWords := by
  unfold Obligations.DecodeExactlyEncodedWords
  exact ⟨fun _ _ => decodeCmd_eq_ok_iff, fun _ => decodeCmd_error_iff, rfl, rfl, rfl, rfl, rfl, rfl⟩

theorem toNat_rsvdField (v : Word) : (rsvdField v).toNat = v.toNat / 16 := by
  have := v.isLt
  rw [rsvdField, BitVec.extractLsb'_toNat, Nat.shiftRight_eq_div_pow, Nat.mod_eq_of_lt (by omega)]

theorem toNat_opcodeField (v : Word) : (opcodeField v).toNat = v.toNat % 16 := by
  rw [opcodeField, BitVec.extractLsb'_toNat, Nat.shiftRight_zero]

/-- The reserved OPCODE values (R78). -/
theorem opcodeMap_error_iff {n : Nat} : (∃ r, opcodeMap n = .error r) ↔ n = 0 ∨ 7 ≤ n := by
  match n with
  | 0 | 1 | 2 | 3 | 4 | 5 | 6 | _ + 7 => simp [opcodeMap]

/-- The two illegal cases of R79, by the fields of the word. -/
theorem decodeCmd_error_iff_fields :
    (∃ r, decodeCmd v = .error r) ↔ rsvdField v ≠ 0#28 ∨ ∃ r, opcodeMap (opcodeField v).toNat = .error r := by
  unfold decodeCmd
  split
  next hrsvd => simp [hrsvd]
  next hrsvd => simp [not_not.1 hrsvd]

/-- The illegal words of R79 by division. -/
theorem decodeCmd_error_iff_toNat :
    (∃ r, decodeCmd v = .error r) ↔ v.toNat / 16 ≠ 0 ∨ v.toNat % 16 = 0 ∨ 7 ≤ v.toNat % 16 := by
  rw [decodeCmd_error_iff_fields, opcodeMap_error_iff, toNat_opcodeField, ne_eq, ← BitVec.toNat_inj, toNat_rsvdField]
  rfl

/-- Settles O3: the two fields are quotient and remainder by 16. -/
theorem illegalWordsRejected : Obligations.IllegalWordsRejected := by
  unfold Obligations.IllegalWordsRejected
  exact fun _ => decodeCmd_error_iff_toNat

/-- Settles O1: six of the words are commands' words, five have a reserved field. -/
theorem tableWordsDecode : Obligations.TableWordsDecode := by
  unfold Obligations.TableWordsDecode
  exact ⟨decodeCmd_encode_of .encode, decodeCmd_encode_of .decode, decodeCmd_encode_of .pack,
    decodeCmd_encode_of .unpack, decodeCmd_encode_of .cwrite, decodeCmd_encode_of .cread, rfl, rfl, rfl, rfl, rfl⟩

/-! ### BAD_COMMAND -/

theorem writeCmd_of_error {r : CmdReject} (h : decodeCmd v = .error r) (s : State) :
    s.writeCmd v =
      { s with
        cmd := v, done := false, error := true, errCode := 1#4, resultLen := 0#32, errIndex := 0#32
        draws := s.draws + 1 } := by
  rw [State.writeCmd, h]
  rfl

theorem statusWord_errCode (s : State) : s.statusWord.extractLsb' 8 4 = s.errCode := by
  obtain ⟨-, -, -, -, hcode, -⟩ := statusFields s
  exact hcode

/-- BUSY, DONE and ERROR as STATUS shows them after a command that ended in error (R33). -/
theorem statusWord_flags_of_error (hbusy : s.busy = false) (hdone : s.done = false) (herror : s.error = true) :
    s.statusWord.extractLsb' 0 3 = 0b100#3 := by
  ext i hi
  rw [BitVec.getElem_extractLsb', getLsbD_statusWord]
  interval_cases i
  · simpa using hbusy
  · simpa using hdone
  · simpa using herror

/-- Settles O8: the rejected write ends in BAD_COMMAND, and STATUS shows its flags and its code. -/
theorem badCommandEndsAtOnce : Obligations.BadCommandEndsAtOnce := by
  unfold Obligations.BadCommandEndsAtOnce
  intro s v hidle hv
  obtain ⟨r, hr⟩ := decodeCmd_error_iff_toNat.2 hv
  have hwrite : hostWrite 0x00000004#32 v s = s.writeCmd v := hostWrite_of_reg (decodeAddr_regAddr .cmd) hidle v
  have hread (t : State) : (hostRead 0x00000008#32 t).1 = t.statusWord :=
    congrArg Prod.fst (hostRead_regAddr .status t)
  rw [hread, hwrite, writeCmd_of_error hr]
  exact ⟨⟨_, rfl⟩, hidle, statusWord_flags_of_error hidle rfl rfl, statusWord_errCode _⟩

end Sys2Proof.Machine
end

section
/-! The host's script (R86, R87): its position in a program, and the run of the commands' expansions and of poll. -/

namespace Sys2Proof.Reference

open Sys2Proof.Machine

variable {prog : List HostStmt} {p : Nat} {st : HostStmt} {l l' : List HostStmt}

/-! ### Where a script stands -/

theorem StandsAt.left (h : StandsAt prog p (l ++ l')) : StandsAt prog p l := (List.prefix_append l l').trans h

theorem StandsAt.right (h : StandsAt prog p (l ++ l')) : StandsAt prog (p + l.length) l' := by
  obtain ⟨rest, hrest⟩ := h
  refine ⟨rest, ?_⟩
  rw [← List.drop_drop, ← hrest, List.append_assoc, List.drop_left]

theorem StandsAt.tail (h : StandsAt prog p (st :: l)) : StandsAt prog (p + 1) l := StandsAt.right (l := [st]) h

theorem StandsAt.head (h : StandsAt prog p (st :: l)) : prog[p]? = some st := by
  obtain ⟨rest, hrest⟩ := h
  rw [← Nat.add_zero p, ← List.getElem?_drop, ← hrest]
  rfl

end Sys2Proof.Reference

namespace Sys2Proof.Machine

open Sys2Proof.Reference

variable {s : State} {l : List HostStmt}

/-! ### Single statements -/

/-- The host's next statement, then the others. -/
theorem hostTurns_succ {st : HostStmt} {n : Nat} (h : StandsAt s.prog s.pos (st :: l)) :
    hostTurns (n + 1) s = hostTurns n (hostStatement st s) := by
  rw [hostTurns, hostTurn_of_statement h.head]

@[simp] theorem hostValue_imm (v : Word) (s : State) : hostValue (.imm v) s = v := rfl

/-- The block is idle and the host stands at the statements `l`. -/
structure IdleAt (s : State) (l : List HostStmt) : Prop where
  idle   : s.engine = none
  stands : StandsAt s.prog s.pos l

/-- The state after the host's write of `v` to register `r` of an idle block (R86). -/
def State.afterWrite (r : Reg) (v : Word) (s : State) : State := { s.writeReg r v with pos := s.pos + 1 }

@[simp] theorem pos_afterWrite (r : Reg) (v : Word) (s : State) : (s.afterWrite r v).pos = s.pos + 1 := rfl

@[simp] theorem hostData_afterWrite (r : Reg) (v : Word) (s : State) : (s.afterWrite r v).hostData = s.hostData := by
  cases r
  case cmd =>
    simp only [State.afterWrite, State.writeReg, State.writeCmd]
    split <;> rfl
  all_goals rfl

@[simp] theorem hostValue_afterWrite (x : HostVal) (r : Reg) (v : Word) (s : State) :
    hostValue x (s.afterWrite r v) = hostValue x s := by
  cases x
  case imm => rfl
  case d => exact hostData_afterWrite r v s

@[simp] theorem operands_afterWrite_srcBase (v : Word) (s : State) :
    (s.afterWrite .srcBase v).operands = { s.operands with sb := v } := rfl

@[simp] theorem operands_afterWrite_srcLen (v : Word) (s : State) :
    (s.afterWrite .srcLen v).operands = { s.operands with sl := v } := rfl

@[simp] theorem operands_afterWrite_dstBase (v : Word) (s : State) :
    (s.afterWrite .dstBase v).operands = { s.operands with db := v } := rfl

@[simp] theorem operands_afterWrite_dstCap (v : Word) (s : State) :
    (s.afterWrite .dstCap v).operands = { s.operands with dc := v } := rfl

@[simp] theorem operands_afterWrite_rowWidth (v : Word) (s : State) :
    (s.afterWrite .rowWidth v).operands = { s.operands with rw := v } := rfl

/-- The CMD write of a command's word takes the operand registers as its snapshot (R103, R104). -/
theorem startedBy_afterWrite_cmd (op : Instr) (s : State) :
    StartedBy (s.afterWrite .cmd (encode op)) op s.operands := by
  rw [State.afterWrite, State.writeReg, State.writeCmd, decodeCmd_encode_of]
  exact ⟨rfl, rfl, rfl, rfl, rfl, rfl, rfl⟩

theorem hostTurns_wrReg {r : Reg} {v : HostVal} {n : Nat} (h : IdleAt s (wrReg r v :: l)) :
    hostTurns (n + 1) s = hostTurns n (s.afterWrite r (hostValue v s)) := by
  obtain ⟨hidle, hstands⟩ := h
  rw [hostTurns_succ hstands, wrReg, hostStatement,
    hostWrite_of_reg (decodeAddr_regAddr r) ((State.busy_false_iff s).2 hidle), State.afterWrite]

/-- A write to an operand register starts nothing and moves the host on by one statement. -/
theorem IdleAt.afterWrite {r : Reg} {st : HostStmt} (h : IdleAt s (st :: l)) (hr : r.isOperand) (v : Word) :
    IdleAt (s.afterWrite r v) l := by
  obtain ⟨hidle, hstands⟩ := h
  rcases hr with rfl | rfl | rfl | rfl | rfl <;> exact ⟨hidle, hstands.tail⟩

/-- The state after the host's read of register `r` (R86). -/
def State.afterRead (r : Reg) (s : State) : State := { s with hostData := s.readReg r, pos := s.pos + 1 }

theorem hostTurns_rdReg {r : Reg} {n : Nat} (h : StandsAt s.prog s.pos (rdReg r :: l)) :
    hostTurns (n + 1) s = hostTurns n (s.afterRead r) := by
  rw [hostTurns_succ h, rdReg, hostStatement, hostRead_regAddr, State.afterRead]

theorem IdleAt.afterRead {r : Reg} {st : HostStmt} (h : IdleAt s (st :: l)) : IdleAt (s.afterRead r) l :=
  ⟨h.idle, h.stands.tail⟩

/-! ### poll -/

/-- STATUS bit 0, which poll tests, is BUSY (R33, R87). -/
theorem statusWord_and_one_ne_zero : s.statusWord &&& 0x1#32 ≠ 0#32 ↔ s.busy = true := by
  have hbit : s.statusWord.getLsbD 0 = s.busy := getLsbD_statusWord s 0
  rw [BitVec.and_one_eq_setWidth_ofBool_getLsbD, hbit]
  cases s.busy <;> decide

theorem polls_of_poll (h : StandsAt s.prog s.pos (poll s.pos)) : Polls s := by
  have hturns : hostTurns 2 s = hostStatement (.bnz 0x1#32 s.pos) (s.afterRead .status) :=
    (hostTurns_rdReg h).trans (hostTurns_succ h.tail)
  rw [Polls, hturns]
  exact ⟨rfl, if_congr statusWord_and_one_ne_zero rfl rfl⟩

/-! ### The commands' expansions -/

/-- The first `n` statements at the host's position start command `op` with snapshot `sn`, and read nothing. -/
def ScriptStarts (n : Nat) (s : State) (op : Instr) (sn : Snapshot) : Prop :=
  StartedBy (hostTurns n s) op sn ∧ (hostTurns n s).hostData = s.hostData ∧ (hostTurns n s).pos = s.pos + n

/-- The state after the four operand writes of a command's expansion (R87). -/
def State.loaded (sb sl db dc : Word) (s : State) : State :=
  (((s.afterWrite .srcBase sb).afterWrite .srcLen sl).afterWrite .dstBase db).afterWrite .dstCap dc

theorem operands_loaded (sb sl db dc : Word) (s : State) :
    (s.loaded sb sl db dc).operands = { s.operands with sb := sb, sl := sl, db := db, dc := dc } := by
  simp [State.loaded]

/-- The five writes of a command's expansion, wherever they stand: its poll's labels do not matter to them (R87). -/
theorem hostTurns_runMacro {op : Instr} {q : Nat} {sb : Word} {sl : HostVal} {db dc : Word}
    (h : IdleAt s (runMacro op q sb sl db dc)) :
    hostTurns 5 s = (s.loaded sb (hostValue sl s) db dc).afterWrite .cmd (encode op) := by
  have h1 := h.afterWrite (r := .srcBase) (by simp [Reg.isOperand]) sb
  have h2 := h1.afterWrite (r := .srcLen) (by simp [Reg.isOperand]) (hostValue sl s)
  have h3 := h2.afterWrite (r := .dstBase) (by simp [Reg.isOperand]) db
  have h4 := h3.afterWrite (r := .dstCap) (by simp [Reg.isOperand]) dc
  rw [hostTurns_wrReg h, hostValue_imm, hostTurns_wrReg h1, hostValue_afterWrite, hostTurns_wrReg h2, hostValue_imm,
    hostTurns_wrReg h3, hostValue_imm, hostTurns_wrReg h4, hostValue_imm, hostTurns, State.loaded]

theorem scriptStarts_runMacro {op : Instr} {q : Nat} {sb : Word} {sl : HostVal} {db dc : Word}
    (h : IdleAt s (runMacro op q sb sl db dc)) :
    ScriptStarts 5 s op { s.operands with sb := sb, sl := hostValue sl s, db := db, dc := dc } := by
  rw [ScriptStarts, hostTurns_runMacro h, ← operands_loaded]
  exact ⟨startedBy_afterWrite_cmd op _, by simp [State.loaded], by simp [State.loaded]⟩

/-- The six writes of CWRITE's expansion. -/
theorem scriptStarts_cwriteMacro {q : Nat} {sb : Word} {sl : HostVal} {db dc rw : Word}
    (h : IdleAt s (cwriteMacro q sb sl db dc rw)) :
    ScriptStarts 6 s .cwrite { sb := sb, sl := hostValue sl s, db := db, dc := dc, rw := rw } := by
  have hrest := scriptStarts_runMacro (h.afterWrite (r := .rowWidth) (by simp [Reg.isOperand]) rw)
  rw [hostValue_afterWrite, operands_afterWrite_rowWidth, ScriptStarts, hostData_afterWrite, pos_afterWrite] at hrest
  rw [ScriptStarts, hostTurns_wrReg h, hostValue_imm]
  exact hrest

/-- A command's expansion at position `p` leaves the host at its poll. -/
theorem startedBy_runMacro {p q : Nat} {op : Instr} {sb : Word} {sl : HostVal} {db dc : Word}
    (h : StandsAt s.prog p (runMacro op q sb sl db dc)) (hidle : s.engine = none) (hpos : s.pos = p) :
    StartedBy (hostTurns 5 s) op { s.operands with sb := sb, sl := hostValue sl s, db := db, dc := dc } ∧
      (hostTurns 5 s).pos = p + 5 := by
  subst hpos
  obtain ⟨hstarted, -, hend⟩ := scriptStarts_runMacro ⟨hidle, h⟩
  exact ⟨hstarted, hend⟩

/-- Settles O57: the expansions' writes from idle, and poll in any state. -/
theorem commandMacroStartsAndPolls : Obligations.CommandMacroStartsAndPolls := by
  unfold Obligations.CommandMacroStartsAndPolls
  refine fun s sb sl db dc rw =>
    ⟨fun op _ hidle h => startedBy_runMacro h hidle rfl, fun hidle h => ?cwrite, polls_of_poll⟩
  case cwrite =>
    obtain ⟨hstarted, -, hend⟩ := scriptStarts_cwriteMacro ⟨hidle, h⟩
    exact ⟨hstarted, hend⟩

/-! ### COMPRESS and DECOMPRESS -/

/-- The poll of a command's expansion stands behind its five writes. -/
theorem standsAt_poll {prog : List HostStmt} {p q : Nat} {op : Instr} {sb : Word} {sl : HostVal} {db dc : Word}
    (h : StandsAt prog p (runMacro op q sb sl db dc)) : StandsAt prog (p + 5) (poll (q + 5)) := h.right

/-- The two parts of a script that runs a command and goes on with the statement `st` behind its poll. -/
theorem standsAt_runMacro_append {prog : List HostStmt} {p q : Nat} {op : Instr} {sb : Word} {sl : HostVal}
    {db dc : Word} {st : HostStmt} (h : StandsAt prog p (runMacro op q sb sl db dc ++ [st] ++ l)) :
    StandsAt prog p (runMacro op q sb sl db dc) ∧ StandsAt prog (p + 7) (st :: l) := by
  rw [List.append_assoc] at h
  exact ⟨h.left, h.right⟩

theorem polls_at {q : Nat} (h : StandsAt s.prog q (poll q)) (hpos : s.pos = q) : Polls s :=
  polls_of_poll (hpos.symm ▸ h)

/-- A command started behind a read of register `r` at position `p`: the datum read is there for its expansion. -/
theorem startedBy_rdReg {p n : Nat} {r : Reg} {op : Instr} {sn : Snapshot}
    (h : StandsAt s.prog p (rdReg r :: l)) (hrest : IdleAt (s.afterRead r) l → ScriptStarts n (s.afterRead r) op sn)
    (hidle : s.engine = none) (hpos : s.pos = p) :
    StartedBy (hostTurns (n + 1) s) op sn ∧ (hostTurns (n + 1) s).hostData = s.readReg r ∧
      (hostTurns (n + 1) s).pos = p + 1 + n := by
  subst hpos
  rw [hostTurns_rdReg h]
  exact hrest (IdleAt.afterRead ⟨hidle, h⟩)

/-- Settles O58: each runs a command's expansion, reads RESULT_LEN, and runs another with the datum read as length. -/
theorem compressAndDecompressMacros : Obligations.CompressAndDecompressMacros := by
  unfold Obligations.CompressAndDecompressMacros
  refine fun s p a1 a2 a3 a4 a5 a6 rw => ⟨fun h => ?compress, fun h => ?decompress⟩
  case compress =>
    obtain ⟨hencode, hread⟩ := standsAt_runMacro_append h
    have hcwrite := hread.tail.tail
    refine ⟨startedBy_runMacro hencode, startedBy_rdReg hread scriptStarts_cwriteMacro, ?_⟩
    rintro (hpos | hpos)
    · exact polls_at (standsAt_poll hencode) hpos
    · exact polls_at (standsAt_poll hcwrite) hpos
  case decompress =>
    obtain ⟨hcread, hread⟩ := standsAt_runMacro_append h
    have hdecode := hread.tail
    refine ⟨startedBy_runMacro hcread, startedBy_rdReg hread scriptStarts_runMacro, ?_⟩
    rintro (hpos | hpos)
    · exact polls_at (standsAt_poll hcread) hpos
    · exact polls_at (standsAt_poll hdecode) hpos

end Sys2Proof.Machine
end

section
/-! A piece of a command's work and the rest of it (R109): what remains after a piece is the same walk, which looks
neither at the output before it nor at the header words. -/

namespace Sys2Proof.Machine

variable {w v : Nat}

/-! ### Work put behind earlier output -/

/-- The work `x` behind output `l` written earlier, with the header words `h`. -/
def Work.behind (l : List (BitVec w)) (h : Option (Word × Word)) (x : Work w) : Work w :=
  { x with out := l ++ x.out, hdr := h }

@[simp] theorem Work.behind_eng (l : List (BitVec w)) (h : Option (Word × Word)) (x : Work w) :
    (x.behind l h).eng = x.eng := rfl

/-- The outcome of a body with its work behind output `l`, with the header words `h`. -/
def Res.behind (l : List (BitVec w)) (h : Option (Word × Word)) (r : Res (Work w)) : Res (Work w) :=
  match r with
  | .ok x => .ok (x.behind l h)
  | .err E i x => .err E i (x.behind l h)
  | .fault f => .fault f

/-- A body step that looks neither at the output before it nor at the header words. -/
def Oblivious (k : Work w → Res (Work w)) : Prop := ∀ l h x, k (x.behind l h) = (k x).behind l h

theorem oblivious_ok : Oblivious (Res.ok (α := Work w)) := fun _ _ _ => rfl

theorem Oblivious.andThen_behind {k : Work w → Res (Work w)} (hk : Oblivious k) (l : List (BitVec w))
    (h : Option (Word × Word)) (r : Res (Work w)) : (r.behind l h).andThen k = (r.andThen k).behind l h := by
  cases r with
  | ok x => exact hk l h x
  | err E i x => rfl
  | fault f => rfl

theorem Oblivious.andThen {j k : Work w → Res (Work w)} (hj : Oblivious j) (hk : Oblivious k) :
    Oblivious fun x => (j x).andThen k := by
  intro l h x
  show (j (x.behind l h)).andThen k = _
  rw [hj, hk.andThen_behind]

/-- Such a step keeps the header words. -/
theorem Oblivious.hdr_eq {k : Work w → Res (Work w)} (hk : Oblivious k) {x y : Work w} (h : Reaches (k x) y) :
    y.hdr = x.hdr := by
  have hx : k x = (k x).behind [] x.hdr := hk [] x.hdr x
  rcases h with h | ⟨E, i, h⟩ <;> rw [h] at hx
  · have hy : y = y.behind [] x.hdr := Res.ok.inj hx
    rw [hy]
    rfl
  · obtain ⟨-, -, hy⟩ := Res.err.inj hx
    rw [hy]
    rfl

/-! ### The operations and the walks of the bodies -/

theorem oblivious_put (u : BitVec w) (idx : Nat) : Oblivious (put u idx) := by
  intro l h x
  unfold put
  rw [Work.behind_eng]
  split
  · rfl
  · simp only [Res.behind, Work.behind, List.append_assoc]

theorem oblivious_putAll (us : List (BitVec w)) (idx : Nat) : Oblivious (putAll us idx) := by
  induction us with
  | nil => exact oblivious_ok
  | cons u rest ih => exact (oblivious_put u idx).andThen ih

theorem oblivious_putSeq (t : List (BitVec w)) (idx : Nat) : Oblivious (putSeq t idx) := by
  intro l h x
  unfold putSeq
  rw [Work.behind_eng]
  split
  · rfl
  · simp only [Res.behind, Work.behind, List.append_assoc]

/-- The elements of a group written, then the progress moved on over it. -/
theorem oblivious_putAll_advance (us : List (BitVec w)) (idx n : Nat) :
    Oblivious fun x => (putAll us idx x).andThen fun y => .ok (y.advance n) :=
  (oblivious_putAll us idx).andThen fun _ _ _ => rfl

theorem oblivious_encodeWalk (c : Config) (sy : Symbol) : Oblivious (encodeWalk c sy) := by
  intro l h x
  unfold encodeWalk
  rw [Work.behind_eng]
  split
  · rfl
  · rfl
  · split
    · rfl
    · split
      · rfl
      · rw [oblivious_put]
        exact Oblivious.andThen_behind (fun _ _ _ => rfl) l h _

theorem oblivious_encodeLoop (c : Config) (src : List (Option Symbol)) : Oblivious (encodeLoop c src) := by
  induction src with
  | nil => exact oblivious_ok
  | cons a rest ih =>
    cases a with
    | none => exact fun _ _ _ => rfl
    | some sy => exact (oblivious_encodeWalk c sy).andThen ih

theorem oblivious_encodeClose : Oblivious encodeClose := by
  intro l h x
  unfold encodeClose
  rw [Work.behind_eng]
  split
  · rfl
  · exact oblivious_put _ _ l h x

theorem oblivious_decodeWalk (c : Config) (k : Code) : Oblivious (decodeWalk c k) := by
  intro l h x
  unfold decodeWalk
  rw [Work.behind_eng]
  split
  · rfl
  · unfold decodeFirst
    rw [Work.behind_eng]
    split
    · rfl
    · split
      · rfl
      · rw [oblivious_putSeq]
        exact Oblivious.andThen_behind (fun _ _ _ => rfl) l h _
  · split
    · rfl
    · unfold decodeLater
      split
      · rfl
      · unfold decodeEmit
        split
        · rfl
        · rw [Work.behind_eng, oblivious_putSeq]
          exact Oblivious.andThen_behind (fun _ _ _ => rfl) l h _

theorem oblivious_decodeLoop (c : Config) (src : List (Option Code)) : Oblivious (decodeLoop c src) := by
  induction src with
  | nil => exact oblivious_ok
  | cons a rest ih =>
    cases a with
    | none => exact fun _ _ _ => rfl
    | some k => exact (oblivious_decodeWalk c k).andThen ih

theorem oblivious_packLoop (op : Instr) : ∀ src : List (Option Code), Oblivious (packLoop op src)
  | [] => oblivious_ok
  | none :: _ => fun _ _ _ => rfl
  | [some c1] => fun l h x => oblivious_putAll_advance (pack c1 0#12) x.eng.i 1 l h x
  | some _ :: none :: _ => fun _ _ _ => rfl
  | some c1 :: some c2 :: rest =>
    Oblivious.andThen (fun l h x => oblivious_putAll_advance (pack c1 c2) x.eng.i 2 l h x) (oblivious_packLoop op rest)

theorem oblivious_readGroup (op : Instr) (codes : Nat → Byte → Byte → Byte → List Code) (o0 o1 o2 : Option Byte) :
    Oblivious (readGroup op codes o0 o1 o2) := by
  intro l h x
  unfold readGroup
  rw [Work.behind_eng]
  split
  · rfl
  · exact oblivious_putAll_advance _ _ 3 l h x

theorem oblivious_groupLoop (op : Instr) (codes : Nat → Byte → Byte → Byte → List Code) :
    ∀ src : List (Option Byte), Oblivious (groupLoop op codes src)
  | [] | [_] | [_, _] => oblivious_ok
  | o0 :: o1 :: o2 :: rest => (oblivious_readGroup op codes o0 o1 o2).andThen (oblivious_groupLoop op codes rest)

/-! ### A walk over a range of source elements, cut after its first piece -/

/-- What a body does over a list of source elements. -/
abbrev Walk (v w : Nat) := List (Option (BitVec v)) → Work w → Res (Work w)

/-- The walk over at most `n` source elements from the progress index up to `stop`. -/
def walkRange (walk : Walk v w) (m : List (Nat × BitVec v)) (stop n : Nat) (x : Work w) : Res (Work w) :=
  walk (ramRange m (x.eng.sb + x.eng.i) (min n (stop - x.eng.i))) x

theorem oblivious_walkRange {walk : Walk v w} (h : ∀ src, Oblivious (walk src))
    (m : List (Nat × BitVec v)) (stop n : Nat) : Oblivious (walkRange walk m stop n) :=
  fun l hdr x => h _ l hdr x

/-- The walk can be cut behind its first `n` elements, or where it ends before that. -/
structure CutAfter (n : Nat) (walk : Walk v w) : Prop where
  append : ∀ l r x, l.length = n ∨ r = [] → walk (l ++ r) x = (walk l x).andThen (walk r)
  snap : ∀ src x y, walk src x = .ok y → y.eng.snap = x.eng.snap
  progress : ∀ src x y, src.length ≤ n → walk src x = .ok y → y = x ∨ y.eng.i = x.eng.i + src.length

/-- A piece of a walk moves the progress index on. -/
theorem CutAfter.le_of_piece {walk : Walk v w} {n : Nat} (h : CutAfter n walk)
    {m : List (Nat × BitVec v)} {stop : Nat} {x y : Work w} (hpiece : walkRange walk m stop n x = .ok y) :
    x.eng.i ≤ y.eng.i := by
  obtain rfl | hi := h.progress _ x y (by rw [ramRange_length]; exact Nat.min_le_left _ _) hpiece
  · exact le_rfl
  · omega

/-- What follows the first piece of a walk is the same walk from there. -/
theorem CutAfter.walkRange_eq {walk : Walk v w} {n : Nat} (h : CutAfter n walk) {m : List (Nat × BitVec v)}
    {stop N : Nat} (hN : stop ≤ N) {x y : Work w} (hpiece : walkRange walk m stop n x = .ok y) :
    walkRange walk m stop N x = walkRange walk m stop N y := by
  have hsb : y.eng.sb = x.eng.sb := congrArg (·.sb.toNat) (h.snap _ x y hpiece)
  obtain rfl | hi := h.progress _ x y (by rw [ramRange_length]; exact Nat.min_le_left _ _) hpiece
  · rfl
  rw [ramRange_length] at hi
  have hsplit : min N (stop - x.eng.i) = min n (stop - x.eng.i) + min N (stop - y.eng.i) := by omega
  have hcut : (ramRange m (x.eng.sb + x.eng.i) (min n (stop - x.eng.i))).length = n ∨
      ramRange m (y.eng.sb + y.eng.i) (min N (stop - y.eng.i)) = [] := by
    rw [ramRange_length, ← List.length_eq_zero_iff, ramRange_length]
    omega
  have hrest : x.eng.sb + x.eng.i + min n (stop - x.eng.i) = y.eng.sb + y.eng.i := by omega
  calc walkRange walk m stop N x
      = walk (ramRange m (x.eng.sb + x.eng.i) (min n (stop - x.eng.i)) ++
          ramRange m (y.eng.sb + y.eng.i) (min N (stop - y.eng.i))) x := by
        rw [walkRange, hsplit, ramRange_append, hrest]
    _ = (walkRange walk m stop n x).andThen (walk (ramRange m (y.eng.sb + y.eng.i) (min N (stop - y.eng.i)))) :=
        h.append _ _ _ hcut
    _ = walkRange walk m stop N y := by rw [hpiece]; rfl

theorem cutAfter_encodeLoop (c : Config) (n : Nat) : CutAfter n (encodeLoop c) where
  append l r x _ := encodeLoop_append c l r x
  snap src x y h := (grows_encodeLoop c src x y (.inl h)).snap
  progress _ _ _ _ h := .inr (encodeLoop_progress h)

theorem decodeLoop_progress {c : Config} {src : List (Option Code)} {x y : Work 8} (h : decodeLoop c src x = .ok y) :
    y.eng.i = x.eng.i + src.length := by
  induction src generalizing x with
  | nil => cases h; rfl
  | cons o rest ih =>
    cases o with
    | none => cases h
    | some k =>
      obtain ⟨z, hz, hrest⟩ := Res.andThen_eq_ok.1 h
      obtain ⟨-, -, hi⟩ := (decodeWalk_ok hz).progress
      rw [ih hrest, hi, List.length_cons, Nat.add_assoc, Nat.add_comm 1]

theorem cutAfter_decodeLoop (c : Config) (n : Nat) : CutAfter n (decodeLoop c) where
  append l r x _ := decodeLoop_append c l r x
  snap src x y h := (grows_decodeLoop c src x y (.inl h)).snap
  progress _ _ _ _ h := .inr (decodeLoop_progress h)

theorem Res.andThen_ok_right {α : Type} (r : Res α) : r.andThen .ok = r := by cases r <;> rfl

/-- PACK and CWRITE can be cut behind a CodePack. -/
theorem cutAfter_packLoop (op : Instr) : CutAfter 2 (packLoop op) where
  append l r x hcut := by
    rcases hcut with hl | rfl
    · match l, hl with
      | [none, _], _ => rfl
      | [some _, none], _ => rfl
      | [some c1, some c2], _ =>
        simp only [List.cons_append, List.nil_append, packLoop, Res.andThen_assoc, Res.andThen_ok]
    · rw [List.append_nil]
      exact (Res.andThen_ok_right _).symm
  snap src x y h := (grows_packLoop op src x y (.inl h)).snap
  progress src x y hlen h := by
    match src, hlen with
    | [], _ => cases h; exact .inl rfl
    | [some c1], _ =>
      obtain ⟨o, hy⟩ := putAll_advance_eq_ok h
      exact .inr (congrArg (·.i) hy)
    | [some c1, some c2], _ =>
      obtain ⟨z, hz, hlast⟩ := Res.andThen_eq_ok.1 h
      obtain ⟨o, hz⟩ := putAll_advance_eq_ok hz
      cases hlast
      exact .inr (congrArg (·.i) hz)

/-- UNPACK and CREAD can be cut behind a CodePack. -/
theorem cutAfter_groupLoop (op : Instr) (codes : Nat → Byte → Byte → Byte → List Code) :
    CutAfter 3 (groupLoop op codes) where
  append l r x hcut := by
    rcases hcut with hl | rfl
    · match l, hl with
      | [o0, o1, o2], _ => simp only [List.cons_append, List.nil_append, groupLoop, Res.andThen_assoc, Res.andThen_ok]
    · rw [List.append_nil]
      exact (Res.andThen_ok_right _).symm
  snap src x y h := by
    induction src, x using groupLoop.induct with
    | case1 x o0 o1 o2 rest ih =>
      obtain ⟨z, hz, hrest⟩ := Res.andThen_eq_ok.1 h
      obtain ⟨o, hz⟩ := readGroup_ok hz
      rw [ih z hrest, hz]
    | case2 src x hne =>
      rw [groupLoop.eq_2 _ _ _ _ hne] at h
      cases h
      rfl
  progress src x y hlen h := by
    match src, hlen with
    | [], _ | [_], _ | [_, _], _ => cases h; exact .inl rfl
    | [o0, o1, o2], _ =>
      obtain ⟨z, hz, hlast⟩ := Res.andThen_eq_ok.1 h
      obtain ⟨o, hz⟩ := readGroup_ok hz
      cases hlast
      exact .inr (congrArg (·.i) hz)

end Sys2Proof.Machine
end

section
/-! Complete after a piece of work (R109). -/

namespace Sys2Proof.Machine

variable {w v : Nat} {s : State} {e : Engine} {n : Nat}

/-- After the piece of work `x` the body does, from the engine `x` has come to, what it had still to do (R109). -/
def Resumes (body : Engine → Res (Work w)) (e : Engine) (x : Work w) : Prop :=
  ∃ k, Oblivious k ∧ body e = k x ∧ body x.eng = k { x with out := [] }

/-- A body that walks over source elements resumes after the first of them. -/
theorem resumes_of_walk {body : Engine → Res (Work w)} {walk : Walk v w}
    {m : List (Nat × BitVec v)} {stop N : Nat} {z x : Work w} (hwalk : ∀ src, Oblivious (walk src))
    (hcut : CutAfter n walk) (hN : stop ≤ N) (hpiece : walkRange walk m stop n z = .ok x)
    (hbody : body e = walkRange walk m stop N z) (hrest : body x.eng = walkRange walk m stop N { x with out := [] }) :
    Resumes body e x :=
  ⟨walkRange walk m stop N, oblivious_walkRange hwalk m stop N, hbody.trans (hcut.walkRange_eq hN hpiece), hrest⟩

theorem Resumes.andThen {body : Engine → Res (Work w)} {x : Work w} (h : Resumes body e x)
    {close : Work w → Res (Work w)} (hclose : Oblivious close) : Resumes (fun e => (body e).andThen close) e x := by
  obtain ⟨k, hk, hbody, hrest⟩ := h
  exact ⟨fun x => (k x).andThen close, hk.andThen hclose, congrArg (·.andThen close) hbody,
    congrArg (·.andThen close) hrest⟩

theorem Work.start_eq_of_hdr {x : Work w} (h : x.hdr = none) : Work.start w x.eng = { x with out := [] } := by
  rw [Work.start, ← h]

theorem Engine.sl_eq_of_snap {e e' : Engine} (h : e'.snap = e.snap) : e'.sl = e.sl := congrArg (·.sl.toNat) h

/-! ### ENCODE and DECODE -/

theorem encodeLoop_hasDict {c : Config} {src : List (Option Symbol)} {x y : Work 12} (hx : x.eng.dict.isSome = true)
    (h : encodeLoop c src x = .ok y) : y.eng.dict.isSome = true := by
  induction src generalizing x with
  | nil => cases h; exact hx
  | cons o rest ih =>
    cases o with
    | none => cases h
    | some sy =>
      obtain ⟨z, hz, hrest⟩ := Res.andThen_eq_ok.1 h
      exact ih (encodeWalk_ok hz).hasDict hrest

theorem decodeLoop_hasDict {c : Config} {src : List (Option Code)} {x y : Work 8} (hx : x.eng.dict.isSome = true)
    (h : decodeLoop c src x = .ok y) : y.eng.dict.isSome = true := by
  induction src generalizing x with
  | nil => cases h; exact hx
  | cons o rest ih =>
    cases o with
    | none => cases h
    | some k =>
      obtain ⟨z, hz, hrest⟩ := Res.andThen_eq_ok.1 h
      exact ih (decodeWalk_ok hz).hasDict hrest

/-- The start of a command that has begun goes on where it is. -/
theorem codecOpen_of_begun {a b : Nat} {x : Work w} (h : x.eng.dict.isSome = true) : codecOpen a b x = .ok x := if_pos h

theorem codecOpen_hdr {a b : Nat} {x y : Work w} (h : codecOpen a b x = .ok y) : y.hdr = x.hdr := by
  rcases codecOpen_ok h with ⟨-, rfl⟩ | ⟨-, -, -, -, rfl⟩ <;> rfl

/-- ENCODE or DECODE over at most `n` source elements: its start, then its walk. -/
def codecPart (a b : Nat) (walk : Walk v w) (m : List (Nat × BitVec v)) (n : Nat) (e : Engine) : Res (Work w) :=
  (codecOpen a b (Work.start w e)).andThen fun x => walkRange walk m x.eng.sl n x

theorem encodePart_eq (n : Nat) (s : State) :
    encodePart n s = codecPart s.cfg.symDepth s.cfg.codeDepth (encodeLoop s.cfg) s.sym n := rfl

theorem decodePart_eq (n : Nat) (s : State) :
    decodePart n s = codecPart s.cfg.codeDepth s.cfg.symDepth (decodeLoop s.cfg) s.code n := rfl

theorem codecPart_of_open {a b : Nat} {walk : Walk v w} {m : List (Nat × BitVec v)} {z : Work w}
    (h : codecOpen a b (Work.start w e) = .ok z) (n : Nat) :
    codecPart a b walk m n e = walkRange walk m e.sl n z := by
  have hsl : z.eng.sl = e.sl := Engine.sl_eq_of_snap (codecOpen_begun h).2
  rw [codecPart, h, Res.andThen_ok, hsl]

/-- ENCODE and DECODE resume after a piece of their walk: the table shows that they have begun. -/
theorem resumes_codecPart {a b : Nat} {walk : Walk v w} {m : List (Nat × BitVec v)} {x : Work w}
    (hwalk : ∀ src, Oblivious (walk src)) (hcut : CutAfter n walk)
    (hdict : ∀ src x y, x.eng.dict.isSome = true → walk src x = .ok y → y.eng.dict.isSome = true)
    (h : codecPart a b walk m n e = .ok x) : Resumes (fun e => codecPart a b walk m e.sl e) e x := by
  obtain ⟨z, hopen, -⟩ := Res.andThen_eq_ok.1 h
  rw [codecPart_of_open hopen] at h
  obtain ⟨hzdict, hzsnap⟩ := codecOpen_begun hopen
  have hhdr : x.hdr = none := ((oblivious_walkRange hwalk m e.sl n).hdr_eq (.inl h)).trans (codecOpen_hdr hopen)
  have hsl : x.eng.sl = e.sl := Engine.sl_eq_of_snap ((hcut.snap _ z x h).trans hzsnap)
  refine resumes_of_walk hwalk hcut le_rfl h (codecPart_of_open hopen _) ?_
  rw [codecPart_of_open (codecOpen_of_begun (hdict _ z x hzdict h)), hsl, Work.start_eq_of_hdr hhdr]

theorem resumes_encodeBody {x : Work 12} (h : encodePart n s e = .ok x) : Resumes (encodeBody s) e x := by
  rw [encodePart_eq] at h
  exact (resumes_codecPart (oblivious_encodeLoop s.cfg) (cutAfter_encodeLoop s.cfg n) (fun _ _ _ => encodeLoop_hasDict)
    h).andThen oblivious_encodeClose

theorem resumes_decodeBody {x : Work 8} (h : decodePart n s e = .ok x) : Resumes (decodeBody s) e x := by
  rw [decodePart_eq] at h
  exact resumes_codecPart (oblivious_decodeLoop s.cfg) (cutAfter_decodeLoop s.cfg n) (fun _ _ _ => decodeLoop_hasDict) h

/-! ### PACK and UNPACK: checks of the operands alone -/

/-- Checks that change nothing and whose passing the operands decide. -/
def Gate (check : Work w → Res (Work w)) : Prop :=
  ∀ x z, check x = .ok z → z = x ∧ ∀ y : Work w, y.eng.snap = x.eng.snap → check y = .ok y

theorem gate_ok : Gate (Res.ok (α := Work w)) := fun _ _ h => ⟨(Res.ok.inj h).symm, fun _ _ => rfl⟩

theorem Gate.andThen {j k : Work w → Res (Work w)} (hj : Gate j) (hk : Gate k) : Gate fun x => (j x).andThen k := by
  intro x z h
  obtain ⟨y, hjx, hky⟩ := Res.andThen_eq_ok.1 h
  obtain ⟨rfl, hj'⟩ := hj x y hjx
  obtain ⟨rfl, hk'⟩ := hk y z hky
  exact ⟨rfl, fun y hy => Res.andThen_eq_ok.2 ⟨y, hj' y hy, hk' y hy⟩⟩

/-- A check of the operands in front of others. -/
theorem Gate.ite {k : Work w → Res (Work w)} (hk : Gate k) (P : Snapshot → Prop) [DecidablePred P]
    (r : Work w → ErrCode × Nat) :
    Gate fun x => if P x.eng.snap then .err (r x).1 (r x).2 x else k x := by
  intro x z h
  dsimp only at h
  split at h
  · cases h
  · rename_i hP
    obtain ⟨rfl, hk'⟩ := hk x z h
    refine ⟨rfl, fun y hy => ?_⟩
    dsimp only
    rw [hy, if_neg hP, hk' y hy]

theorem gate_checkRegions (a b : Nat) : Gate (checkRegions (w := w) a b) :=
  (gate_ok.ite (fun sn => sn.db.toNat + sn.dc.toNat > b) fun _ => (.range, 0)).ite
    (fun sn => sn.sb.toNat + sn.sl.toNat > a) fun _ => (.range, 0)

theorem gate_packOpen (c : Config) : Gate (packOpen c) :=
  (gate_checkRegions _ _).andThen
    (gate_ok.ite (fun sn => 3 * packCount sn.sl.toNat > sn.dc.toNat) fun _ => (.dstOverflow, 0))

theorem gate_unpackOpen (c : Config) : Gate (unpackOpen c) :=
  (gate_checkRegions _ _).andThen
    ((gate_ok.ite (fun sn => 2 * (sn.sl.toNat / 3) > sn.dc.toNat) fun _ => (.dstOverflow, 0)).ite
      (fun sn => sn.sl.toNat % 3 ≠ 0) fun x => (.truncatedFrame, x.eng.sl - x.eng.sl % 3))

/-- Behind checks of the operands alone, the walk resumes: the checks pass again. -/
theorem resumes_of_gate {check : Work w → Res (Work w)} {walk : Walk v w} {m : List (Nat × BitVec v)} {x : Work w}
    (hcheck : Gate check) (hwalk : ∀ src, Oblivious (walk src))
    (hcut : CutAfter n walk)
    (h : ((check (Work.start w e)).andThen fun z => walkRange walk m z.eng.sl n z) = .ok x) :
    Resumes (fun e => (check (Work.start w e)).andThen fun z => walkRange walk m z.eng.sl e.sl z) e x := by
  obtain ⟨z, hz, hpiece⟩ := Res.andThen_eq_ok.1 h
  obtain ⟨rfl, hagain⟩ := hcheck _ z hz
  have hhdr : x.hdr = none := (oblivious_walkRange hwalk m _ n).hdr_eq (.inl hpiece)
  have hsnap : x.eng.snap = e.snap := hcut.snap _ _ x hpiece
  refine resumes_of_walk hwalk hcut le_rfl hpiece ?_ ?_
  · rw [hz, Res.andThen_ok, Work.start_eng]
  · rw [hagain (Work.start w x.eng) hsnap, Res.andThen_ok, Work.start_eng, Engine.sl_eq_of_snap hsnap,
      Work.start_eq_of_hdr hhdr, Work.start_eng]

theorem resumes_packBody {x : Work 8} (h : packPart 2 s e = .ok x) : Resumes (packBody s) e x :=
  resumes_of_gate (gate_packOpen s.cfg) (oblivious_packLoop .pack) (cutAfter_packLoop .pack) h

theorem unpackPart_eq (n : Nat) (s : State) (e : Engine) :
    unpackPart n s e = (unpackOpen s.cfg (Work.start 12 e)).andThen fun z =>
      walkRange (groupLoop .unpack unpackedPair) s.stream z.eng.sl n z := by
  simp only [unpackPart, unpackLoop_eq]
  rfl

theorem resumes_unpackBody {x : Work 12} (h : unpackPart 3 s e = .ok x) : Resumes (unpackBody s) e x := by
  have hbody : unpackBody s = fun e => (unpackOpen s.cfg (Work.start 12 e)).andThen fun z =>
      walkRange (groupLoop .unpack unpackedPair) s.stream z.eng.sl e.sl z := funext fun e => unpackPart_eq e.sl s e
  rw [unpackPart_eq] at h
  rw [hbody]
  exact resumes_of_gate (gate_unpackOpen s.cfg) (oblivious_groupLoop _ _) (cutAfter_groupLoop _ _) h

/-! ### CWRITE: its header is written where nothing is -/

/-- CWRITE's checks (R188). -/
def cwriteChecks (c : Config) (x : Work 8) : Res (Work 8) :=
  (checkRegions c.codeDepth c.streamDepth x).andThen fun x =>
    if 8 + 3 * packCount x.eng.sl > x.eng.dc then .err .dstOverflow 0 x else .ok x

/-- CWRITE's header, where nothing is written yet (R188). -/
def cwriteHeader (x : Work 8) : Res (Work 8) :=
  if x.eng.o = 0 then putAll (le32Bytes x.eng.snap.sl ++ le32Bytes x.eng.snap.rw) 0 x else .ok x

theorem cwriteOpen_eq (c : Config) (x : Work 8) : cwriteOpen c x = (cwriteChecks c x).andThen cwriteHeader := by
  rw [cwriteOpen, cwriteChecks, Res.andThen_assoc]
  congr 1
  funext y
  split <;> rfl

theorem gate_cwriteChecks (c : Config) : Gate (cwriteChecks c) :=
  (gate_checkRegions _ _).andThen
    (gate_ok.ite (fun sn => 8 + 3 * packCount sn.sl.toNat > sn.dc.toNat) fun _ => (.dstOverflow, 0))

theorem putAll_eq_ok {us : List (BitVec w)} {idx : Nat} {x y : Work w} (h : putAll us idx x = .ok y) :
    y = { x with eng := { x.eng with o := x.eng.o + us.length }, out := x.out ++ us } := by
  induction us generalizing x with
  | nil => cases h; simp
  | cons u rest ih =>
    obtain ⟨z, hz, hrest⟩ := Res.andThen_eq_ok.1 h
    obtain ⟨-, rfl⟩ := put_eq_ok.1 hz
    rw [ih hrest]
    simp [Nat.add_comm, Nat.add_left_comm]

/-- Behind its header CWRITE has output, and its operands are those it began with. -/
theorem cwriteHeader_ok {x z : Work 8} (h : cwriteHeader x = .ok z) :
    z.eng.o ≠ 0 ∧ z.eng.snap = x.eng.snap ∧ z.hdr = x.hdr := by
  unfold cwriteHeader at h
  split at h
  · rw [putAll_eq_ok h]
    exact ⟨Nat.succ_ne_zero _, rfl, rfl⟩
  · cases h
    exact ⟨by assumption, rfl, rfl⟩

theorem cwritePart_eq (n : Nat) (s : State) (e : Engine) :
    cwritePart n s e =
      ((cwriteChecks s.cfg (Work.start 8 e)).andThen cwriteHeader).andThen (packCodes .cwrite n s) := by
  rw [cwritePart, cwriteOpen_eq]

theorem packCodes_eq (op : Instr) (n : Nat) (s : State) (x : Work 8) :
    packCodes op n s x = walkRange (packLoop op) s.code x.eng.sl n x := rfl

theorem resumes_cwriteBody {x : Work 8} (h : cwritePart 2 s e = .ok x) : Resumes (cwriteBody s) e x := by
  rw [cwritePart_eq] at h
  obtain ⟨z, hopen, hpiece⟩ := Res.andThen_eq_ok.1 h
  obtain ⟨y, hy, hheader⟩ := Res.andThen_eq_ok.1 hopen
  obtain ⟨rfl, hagain⟩ := gate_cwriteChecks _ _ y hy
  obtain ⟨hzo, hzsnap, hzhdr⟩ := cwriteHeader_ok hheader
  obtain ⟨-, hxsnap, l, -, hxo, -⟩ := grows_packLoop _ _ z x (.inl hpiece)
  have hsnap : x.eng.snap = e.snap := hxsnap.trans hzsnap
  have hhdr : x.hdr = none :=
    ((oblivious_walkRange (oblivious_packLoop .cwrite) _ _ _).hdr_eq (.inl hpiece)).trans hzhdr
  have hskip : cwriteHeader (Work.start 8 x.eng) = .ok (Work.start 8 x.eng) := if_neg (by rw [Work.start_eng]; omega)
  have hzsl : z.eng.sl = e.sl := Engine.sl_eq_of_snap hzsnap
  have hxsl : x.eng.sl = e.sl := Engine.sl_eq_of_snap hsnap
  rw [packCodes_eq, hzsl] at hpiece
  refine resumes_of_walk (oblivious_packLoop .cwrite) (cutAfter_packLoop .cwrite) le_rfl hpiece ?_ ?_
  · rw [cwriteBody, cwritePart_eq, hopen, Res.andThen_ok, packCodes_eq, hzsl]
  · rw [cwriteBody, cwritePart_eq, hagain (Work.start 8 x.eng) hsnap, Res.andThen_ok, hskip, Res.andThen_ok,
      packCodes_eq, Work.start_eng, hxsl, Work.start_eq_of_hdr hhdr]

/-! ### CREAD: its header is read again -/

/-- CREAD's checks of the operands (R192). -/
def creadChecks (c : Config) (x : Work 12) : Res (Work 12) :=
  (checkRegions c.streamDepth c.codeDepth x).andThen fun x => if x.eng.sl < 8 then .err .truncatedFrame 0 x else .ok x

/-- The two header words of CREAD and its checks on them (R192). -/
def creadWords (m : List (Nat × BitVec 8)) (x : Work 12) : Res (Work 12) :=
  match le32Read .cread m x.eng.sb with
  | .error f => .fault f
  | .ok cw => match le32Read .cread m (x.eng.sb + 4) with
    | .error f => .fault f
    | .ok rwd => creadCheck cw rwd x

theorem creadOpen_eq (c : Config) (m : List (Nat × BitVec 8)) (x : Work 12) :
    creadOpen c m x = (creadChecks c x).andThen (creadWords m) := by
  rw [creadOpen, creadChecks, Res.andThen_assoc]
  congr 1
  funext y
  split <;> rfl

theorem gate_creadChecks (c : Config) : Gate (creadChecks c) :=
  (gate_checkRegions _ _).andThen (gate_ok.ite (fun sn => sn.sl.toNat < 8) fun _ => (.truncatedFrame, 0))

theorem le_of_creadChecks {c : Config} {x z : Work 12} (h : creadChecks c x = .ok z) : 8 ≤ x.eng.sl := by
  obtain ⟨y, hy, hlong⟩ := Res.andThen_eq_ok.1 h
  obtain ⟨rfl, -⟩ := gate_checkRegions _ _ x y hy
  split at hlong
  · cases hlong
  · omega

/-- The work behind a header whose words are `h` (R192). -/
def Work.headed (h : Word × Word) (x : Work 12) : Work 12 :=
  { x with hdr := some h, eng := { x.eng with i := max x.eng.i 8 } }

/-- A header that passes its checks passes them for every engine with the same operands. -/
theorem creadCheck_ok {cw rwd : Word} {x z : Work 12} (h : creadCheck cw rwd x = .ok z) :
    z = x.headed (cw, rwd) ∧
      ∀ y : Work 12, y.eng.snap = x.eng.snap → creadCheck cw rwd y = .ok (y.headed (cw, rwd)) := by
  unfold creadCheck at h
  dsimp only at h
  split at h
  · cases h
  · rename_i hcount
    split at h
    · cases h
    · rename_i hroom
      cases h
      refine ⟨rfl, fun y hy => ?_⟩
      have hsl : y.eng.sl = x.eng.sl := Engine.sl_eq_of_snap hy
      have hdc : y.eng.dc = x.eng.dc := congrArg (·.dc.toNat) hy
      exact (if_neg (hsl ▸ hcount)).trans (if_neg (hdc ▸ hroom))

theorem creadWords_ok {m : List (Nat × BitVec 8)} {x z : Work 12} (h : creadWords m x = .ok z) :
    ∃ hd, z = x.headed hd ∧ packCount (declaredCount z) ≤ (x.eng.sl - 8) / 3 ∧
      ∀ y : Work 12, y.eng.snap = x.eng.snap → creadWords m y = .ok (y.headed hd) := by
  unfold creadWords at h
  split at h
  · cases h
  · rename_i cw hcw
    split at h
    · cases h
    · rename_i rwd hrwd
      obtain ⟨hz, hagain⟩ := creadCheck_ok h
      refine ⟨(cw, rwd), hz, packCount_of_creadCheck h, fun y hy => ?_⟩
      have hsb : y.eng.sb = x.eng.sb := congrArg (·.sb.toNat) hy
      rw [creadWords, hsb, hcw, hrwd]
      exact hagain y hy

theorem declaredCount_congr {x y : Work 12} (h : x.hdr = y.hdr) : declaredCount x = declaredCount y := by
  rw [declaredCount, declaredCount, h]

theorem creadGroups_eq (n : Nat) (s : State) (x : Work 12) :
    creadGroups n s x = walkRange (groupLoop .cread (declaredCodes (declaredCount x))) s.stream
      (8 + 3 * packCount (declaredCount x)) n x := by
  rw [creadGroups, creadLoop_eq]
  rfl

theorem creadPart_eq_checks (n : Nat) (s : State) (e : Engine) :
    creadPart n s e =
      ((creadChecks s.cfg (Work.start 12 e)).andThen (creadWords s.stream)).andThen (creadGroups n s) := by
  rw [creadPart_eq, creadOpen_eq]

theorem resumes_creadBody {x : Work 12} (h : creadPart 3 s e = .ok x) : Resumes (creadBody s) e x := by
  rw [creadPart_eq_checks] at h
  obtain ⟨z, hopen, hpiece⟩ := Res.andThen_eq_ok.1 h
  obtain ⟨y, hy, hwords⟩ := Res.andThen_eq_ok.1 hopen
  have hlong := le_of_creadChecks hy
  obtain ⟨rfl, hchecks⟩ := gate_creadChecks _ _ y hy
  obtain ⟨hd, rfl, hcount, hwords'⟩ := creadWords_ok hwords
  rw [creadGroups_eq] at hpiece
  have hcut := cutAfter_groupLoop .cread (declaredCodes (declaredCount ((Work.start 12 e).headed hd)))
  have hsnap : x.eng.snap = e.snap := hcut.snap _ _ x hpiece
  have hhdr : x.hdr = some hd := (oblivious_walkRange (oblivious_groupLoop _ _) _ _ _).hdr_eq (.inl hpiece)
  have hi : 8 ≤ x.eng.i := (Nat.le_max_right e.i 8).trans (hcut.le_of_piece hpiece)
  have hheaded : (Work.start 12 x.eng).headed hd = { x with out := [] } := by
    rw [Work.headed, Work.start_eng, Nat.max_eq_left hi, ← hhdr]
    rfl
  have hcnt : declaredCount { x with out := [] } = declaredCount ((Work.start 12 e).headed hd) :=
    declaredCount_congr hhdr
  refine resumes_of_walk (N := e.sl) (oblivious_groupLoop _ _) hcut ?_ hpiece ?_ ?_
  · rw [Work.start_eng] at hcount hlong
    omega
  · rw [creadBody, creadPart_eq_checks, hopen, Res.andThen_ok, creadGroups_eq]
  · rw [creadBody, creadPart_eq_checks, hchecks (Work.start 12 x.eng) hsnap, Res.andThen_ok,
      hwords' (Work.start 12 x.eng) hsnap, Res.andThen_ok, hheaded, creadGroups_eq, hcnt, Engine.sl_eq_of_snap hsnap]

/-! ### Complete after the piece -/

/-- A store of destination elements from an index on. -/
abbrev Store (w : Nat) := Nat → List (BitVec w) → State → State

/-- The state with the engine's record replaced. -/
def State.withEngine (g : Option Engine) (s : State) : State := { s with engine := g }

/-- A store that writes a sequence in two parts as it writes it whole, whatever the engine has come to in between. -/
def StoresInOrder (store : Store w) : Prop :=
  ∀ a l l' s g, store (a + l.length) l' ((store a l s).withEngine g) = (store a (l ++ l') s).withEngine g

theorem storesInOrder_storeSym : StoresInOrder storeSym := fun a l l' s g => by
  simp only [storeSym, State.withEngine, ramWriteSeq_append]

theorem storesInOrder_storeCode : StoresInOrder storeCode := fun a l l' s g => by
  simp only [storeCode, State.withEngine, ramWriteSeq_append]

theorem storesInOrder_storeStream : StoresInOrder storeStream := fun a l l' s g => by
  simp only [storeStream, State.withEngine, ramWriteSeq_append]

/-- An end drops the engine's record and looks at the work's engine and header words alone. -/
theorem complete_withEngine (op : Instr) (l : List (BitVec w)) (y : Work w) (g : Option Engine) (s : State) :
    (s.withEngine g).complete op y = s.complete op (y.behind l y.hdr) := rfl

theorem raiseErr_withEngine (op : Instr) (E : ErrCode) (i : Nat) (l : List (BitVec w)) (y : Work w) (g : Option Engine)
    (s : State) : (s.withEngine g).raiseErr op E i y = s.raiseErr op E i (y.behind l y.hdr) := rfl

/-- The end of a command is the same whether its output is stored whole or in two parts. -/
theorem finish_behind {op : Instr} {store : Store w} (hstore : StoresInOrder store)
    {x : Work w} (hx : Grows (Work.start w e) x) {r : Res (Work w)} (hr : ∀ y, Reaches r y → y.hdr = x.hdr) :
    ((store (e.db + e.o) x.out s).withEngine (some x.eng)).finish op store x.eng r =
      s.finish op store e (r.behind x.out x.hdr) := by
  obtain ⟨-, hsnap, l, hout, ho, -⟩ := hx
  rw [Work.start_out, List.nil_append] at hout
  have hindex : x.eng.db + x.eng.o = e.db + e.o + x.out.length := by
    rw [ho, hout, Engine.db, hsnap, Work.start_eng, Nat.add_assoc]
    rfl
  cases r with
  | fault f => rfl
  | ok y =>
    rw [← hr y (.inl rfl), State.finish, hindex, hstore, complete_withEngine op x.out]
    rfl
  | err E i y =>
    rw [← hr y (.inr ⟨E, i, rfl⟩), State.finish, hindex, hstore, raiseErr_withEngine op E i x.out]
    rfl

/-- A running command ends as its body does from where its engine is. -/
theorem runCommand_of_running {op : Instr} {store : Store w} {body : State → Engine → Res (Work w)}
    (he : s.engine = some e) :
    runCommand op store body s = s.finish op store e (body s e) := by
  rw [runCommand, State.engineFor_of_some op he, State.issued_of_busy op ((State.busy_iff s).2 ⟨e, he⟩)]

/-- Complete after a piece of work is Complete without it, where the body resumes and does not read what it writes. -/
theorem runCommand_workOn {op : Instr} {store : Store w} {body : State → Engine → Res (Work w)} {r : Res (Work w)}
    (he : s.engine = some e) (hstore : StoresInOrder store)
    (hbody : ∀ a l g e', body ((store a l s).withEngine g) e' = body s e')
    (hgrow : ∀ x, Reaches r x → Grows (Work.start w e) x) (hresume : ∀ x, r = .ok x → Resumes (body s) e x) :
    runCommand op store body (s.workOn store e r) = runCommand op store body s := by
  cases r with
  | err => rfl
  | fault => rfl
  | ok x =>
    obtain ⟨k, hk, hwhole, hrest⟩ := hresume x rfl
    have hbehind : k x = (k { x with out := [] }).behind x.out x.hdr := by
      rw [← hk]
      simp [Work.behind]
    have hpiece : s.workOn store e (.ok x) = (store (e.db + e.o) x.out s).withEngine (some x.eng) := rfl
    rw [hpiece, runCommand_of_running rfl, runCommand_of_running he, hbody, hwhole, hrest, hbehind]
    exact finish_behind hstore (hgrow x (.inl rfl)) fun _ hy => (hk.hdr_eq hy :)

/-- Settles O26: each body resumes after a piece of its work. -/
theorem workingOnIsUnobservableInResult : Obligations.WorkingOnIsUnobservableInResult := by
  unfold Obligations.WorkingOnIsUnobservableInResult
  intro s e he
  simp only [advanceEngine, he]
  cases hop : e.op with
  | encode =>
    exact runCommand_workOn he storesInOrder_storeCode (fun _ _ _ _ => rfl) (grows_encodePart 1 s e)
      fun _ => resumes_encodeBody
  | decode =>
    exact runCommand_workOn he storesInOrder_storeSym (fun _ _ _ _ => rfl) (grows_decodePart 1 s e)
      fun _ => resumes_decodeBody
  | pack =>
    exact runCommand_workOn he storesInOrder_storeStream (fun _ _ _ _ => rfl) (grows_packPart 2 s e)
      fun _ => resumes_packBody
  | unpack =>
    exact runCommand_workOn he storesInOrder_storeCode (fun _ _ _ _ => rfl) (grows_unpackPart 3 s e)
      fun _ => resumes_unpackBody
  | cwrite =>
    exact runCommand_workOn he storesInOrder_storeStream (fun _ _ _ _ => rfl) (grows_cwritePart 2 s e)
      fun _ => resumes_cwriteBody
  | cread =>
    exact runCommand_workOn he storesInOrder_storeCode (fun _ _ _ _ => rfl) (grows_creadPart 3 s e)
      fun _ => resumes_creadBody

end Sys2Proof.Machine
end

section
/-! The outcome of a command depends on its operands and its source region alone (R110). -/

namespace Sys2Proof.Machine

open Sys2Proof.Reference

variable {w v : Nat} {s u : State} {e : Engine} {n : Nat}

/-! ### What a body reads -/

/-- Two RAMs agree on the source region of a command. -/
def AgreeOnSource (e : Engine) (m m' : List (Nat × BitVec v)) : Prop :=
  ∀ a, e.sb ≤ a → a < e.sb + e.sl → ramRead m a = ramRead m' a

theorem setWidth_word_injective (h : v ≤ 32) : Function.Injective (BitVec.setWidth 32 : BitVec v → Word) := by
  intro a b hab
  have hback := congrArg (BitVec.setWidth v) hab
  rwa [BitVec.setWidth_setWidth_of_le _ h, BitVec.setWidth_setWidth_of_le _ h, BitVec.setWidth_eq, BitVec.setWidth_eq]
    at hback

/-- RAMs that hold the same host words in the source region agree there. -/
theorem agreeOnSource_of_words {m m' : List (Nat × BitVec v)} (hv : v ≤ 32)
    (h : ∀ a, e.sb ≤ a → a < e.sb + e.sl → (ramRead m a).map (·.setWidth 32) = (ramRead m' a).map (·.setWidth 32)) :
    AgreeOnSource e m m' :=
  fun a hlo hhi => Option.map_injective (setWidth_word_injective hv) (h a hlo hhi)

theorem andThen_congr {r : Res (Work w)} {k k' : Work w → Res (Work w)} (h : ∀ z, r = .ok z → k z = k' z) :
    r.andThen k = r.andThen k' := by
  cases r with
  | ok z => exact h z rfl
  | err => rfl
  | fault => rfl

/-- A walk that ends inside the source region reads nothing else. -/
theorem walkRange_congr {m m' : List (Nat × BitVec v)} (h : AgreeOnSource e m m') (walk : Walk v w)
    {x : Work w} (hsnap : x.eng.snap = e.snap) {stop : Nat} (hstop : stop ≤ e.sl) (n : Nat) :
    walkRange walk m stop n x = walkRange walk m' stop n x := by
  have hsb : x.eng.sb = e.sb := congrArg (·.sb.toNat) hsnap
  rw [walkRange, walkRange, ramRange_congr fun a hlo hhi => h a (by omega) (by omega)]

theorem codecPart_congr {m m' : List (Nat × BitVec v)} (h : AgreeOnSource e m m') (a b : Nat)
    (walk : Walk v w) (n : Nat) : codecPart a b walk m n e = codecPart a b walk m' n e :=
  andThen_congr fun z hz => by
    have hsnap : z.eng.snap = e.snap := (codecOpen_begun hz).2
    exact walkRange_congr h walk hsnap (Engine.sl_eq_of_snap hsnap).le n

theorem encodeBody_congr (hcfg : s.cfg = u.cfg) (h : AgreeOnSource e s.sym u.sym) :
    encodeBody s e = encodeBody u e := by
  rw [encodeBody, encodeBody, encodePart_eq, encodePart_eq, hcfg, codecPart_congr h]

theorem decodeBody_congr (hcfg : s.cfg = u.cfg) (h : AgreeOnSource e s.code u.code) :
    decodeBody s e = decodeBody u e := by
  rw [decodeBody, decodeBody, decodePart_eq, decodePart_eq, hcfg, codecPart_congr h]

/-- A walk behind checks of the operands alone. -/
theorem gate_andThen_congr {m m' : List (Nat × BitVec v)} (h : AgreeOnSource e m m') {check : Work w → Res (Work w)}
    (hcheck : Gate check) (walk : Walk v w) (n : Nat) :
    ((check (Work.start w e)).andThen fun z => walkRange walk m z.eng.sl n z) =
      (check (Work.start w e)).andThen fun z => walkRange walk m' z.eng.sl n z :=
  andThen_congr fun z hz => by
    obtain ⟨rfl, -⟩ := hcheck _ z hz
    exact walkRange_congr h walk rfl le_rfl n

theorem packBody_congr (hcfg : s.cfg = u.cfg) (h : AgreeOnSource e s.code u.code) : packBody s e = packBody u e := by
  have hpart := gate_andThen_congr h (gate_packOpen u.cfg) (packLoop .pack) e.sl
  rw [packBody, packBody, packPart, packPart, hcfg]
  exact hpart

theorem unpackBody_congr (hcfg : s.cfg = u.cfg) (h : AgreeOnSource e s.stream u.stream) :
    unpackBody s e = unpackBody u e := by
  rw [unpackBody, unpackBody, unpackPart_eq, unpackPart_eq, hcfg, gate_andThen_congr h (gate_unpackOpen u.cfg)]

theorem cwriteBody_congr (hcfg : s.cfg = u.cfg) (h : AgreeOnSource e s.code u.code) :
    cwriteBody s e = cwriteBody u e := by
  rw [cwriteBody, cwriteBody, cwritePart_eq, cwritePart_eq, hcfg]
  refine andThen_congr fun z hz => ?_
  obtain ⟨y, hy, hheader⟩ := Res.andThen_eq_ok.1 hz
  obtain ⟨rfl, -⟩ := gate_cwriteChecks _ _ y hy
  obtain ⟨-, hsnap, -⟩ := cwriteHeader_ok hheader
  exact walkRange_congr h _ hsnap (Engine.sl_eq_of_snap hsnap).le _

theorem le32Read_congr {m m' : List (Nat × BitVec 8)} {a : Nat}
    (h : ∀ b, a ≤ b → b < a + 4 → ramRead m b = ramRead m' b) (op : Instr) : le32Read op m a = le32Read op m' a := by
  have hbyte : ∀ b, a ≤ b → b < a + 4 → streamByte op m b = streamByte op m' b := fun b hlo hhi => by
    rw [streamByte, streamByte, h b hlo hhi]
  rw [le32Read, le32Read, hbyte a (by omega) (by omega), hbyte (a + 1) (by omega) (by omega),
    hbyte (a + 2) (by omega) (by omega), hbyte (a + 3) (by omega) (by omega)]

theorem creadBody_congr (hcfg : s.cfg = u.cfg) (h : AgreeOnSource e s.stream u.stream) :
    creadBody s e = creadBody u e := by
  rw [creadBody, creadBody, creadPart_eq_checks, creadPart_eq_checks, hcfg, Res.andThen_assoc, Res.andThen_assoc]
  refine andThen_congr fun y hy => ?_
  have hlong := le_of_creadChecks hy
  obtain ⟨rfl, -⟩ := gate_creadChecks _ _ y hy
  rw [Work.start_eng] at hlong
  have hwords : creadWords s.stream (Work.start 12 e) = creadWords u.stream (Work.start 12 e) := by
    rw [creadWords, creadWords, Work.start_eng, le32Read_congr fun b hlo hhi => h b (by omega) (by omega),
      le32Read_congr (a := e.sb + 4) fun b hlo hhi => h b (by omega) (by omega)]
  rw [hwords]
  refine andThen_congr fun z hz => ?_
  obtain ⟨hd, rfl, hcount, -⟩ := creadWords_ok hz
  rw [Work.start_eng] at hcount
  rw [creadGroups_eq, creadGroups_eq]
  exact walkRange_congr h _ rfl (by omega) _

/-! ### What CREAD has read of its header -/

theorem creadCheck_hdr {cw rwd : Word} {x y : Work 12} (h : Reaches (creadCheck cw rwd x) y) :
    y.hdr = some (cw, rwd) := by
  unfold creadCheck at h
  dsimp only at h
  split at h
  · rw [h.of_err]
  · split at h
    · rw [h.of_err]
    · rw [h.of_ok]

theorem creadWords_hdr {m : List (Nat × BitVec 8)} {x y : Work 12} (h : Reaches (creadWords m x) y) :
    y.hdr.isSome = true := by
  unfold creadWords at h
  split at h
  · exact h.of_fault.elim
  · split at h
    · exact h.of_fault.elim
    · rw [creadCheck_hdr h]
      rfl

/-- Regions that fit pass the region checks (R105). -/
theorem checkRegions_of_fits {a b : Nat} {x : Work w} (h : x.eng.sb + x.eng.sl ≤ a ∧ x.eng.db + x.eng.dc ≤ b) :
    checkRegions a b x = .ok x := by
  rcases checkRegions_cases a b x with ⟨hc, -⟩ | ⟨-, hnot⟩
  · exact hc
  · exact absurd h hnot

/-- A CREAD with regions that fit and room for a header has read the header by its end (R192). -/
theorem creadBody_hdr {y : Work 12} (hfit : e.sb + e.sl ≤ s.cfg.streamDepth ∧ e.db + e.dc ≤ s.cfg.codeDepth)
    (hlong : 8 ≤ e.sl) (h : Reaches (creadBody s e) y) : y.hdr.isSome = true := by
  have hchecks : creadChecks s.cfg (Work.start 12 e) = .ok (Work.start 12 e) := by
    rw [creadChecks, checkRegions_of_fits hfit]
    exact if_neg (Nat.not_lt.2 hlong)
  rw [creadBody, creadPart_eq_checks, hchecks, Res.andThen_ok] at h
  rcases h.andThen with h | ⟨z, hz, h⟩
  · exact creadWords_hdr h
  · rw [creadGroups_eq] at h
    rw [(oblivious_walkRange (oblivious_groupLoop _ _) _ _ _).hdr_eq h]
    exact creadWords_hdr (.inl hz)

/-! ### Two ends of one outcome -/

/-- A store into RAM `m`: it changes no flag, and what it wrote is what the RAM then holds. -/
structure StoresInto (m : RamId) (store : Store w) : Prop where
  flags : ∀ a l s, (store a l s).done = s.done ∧ (store a l s).error = s.error ∧ (store a l s).errCode = s.errCode ∧
    (store a l s).errIndex = s.errIndex
  reads : ∀ a l s j, (hj : j < l.length) → (store a l s).element m (a + j) = some (l[j].setWidth 32)

theorem storesInto_storeSym : StoresInto .sym storeSym where
  flags _ _ _ := ⟨rfl, rfl, rfl, rfl⟩
  reads a l s j hj := by rw [element_sym, storeSym, ramRead_ramWriteSeq_in _ _ _ _ hj]; rfl

theorem storesInto_storeCode : StoresInto .code storeCode where
  flags _ _ _ := ⟨rfl, rfl, rfl, rfl⟩
  reads a l s j hj := by rw [element_code, storeCode, ramRead_ramWriteSeq_in _ _ _ _ hj]; rfl

theorem storesInto_storeStream : StoresInto .stream storeStream where
  flags _ _ _ := ⟨rfl, rfl, rfl, rfl⟩
  reads a l s j hj := by rw [element_stream, storeStream, ramRead_ramWriteSeq_in _ _ _ _ hj]; rfl

/-- The record of a command that has ended is clear (R100). -/
def State.RecordClear (s : State) : Prop :=
  s.done = false ∧ s.error = false ∧ s.errCode = 0#4 ∧ s.errIndex = 0#32

/-- While a command runs the record of the command before it is clear (R100, R239). -/
theorem Inv.recordClear (h : Inv s) (he : s.engine = some e) : s.RecordClear := by
  have hbusy : s.busy = true := (State.busy_iff s).2 ⟨e, he⟩
  have herror := h.status.busyNotError hbusy
  refine ⟨h.status.busyNotDone hbusy, herror, ?_, (h.running e he).indexZero⟩
  by_contra hcode
  cases herror.symm.trans (h.status.codeIffError.1 hcode)

theorem StoresInto.recordClear {m : RamId} {store : Store w} (h : StoresInto m store)
    (hs : s.RecordClear) (a : Nat) (l : List (BitVec w)) : (store a l s).RecordClear := by
  obtain ⟨hdone, herror, hcode, hindex⟩ := h.flags a l s
  rw [State.RecordClear, hdone, herror, hcode, hindex]
  exact hs

theorem State.RecordClear.complete_eq (h : s.RecordClear) (op : Instr) (y : Work w) :
    s.complete op y = { s.settle op y with done := true, error := false, errCode := 0#4, errIndex := 0#32 } := by
  obtain ⟨-, herror, hcode, hindex⟩ := h
  rw [← herror, ← hcode, ← hindex]
  rfl

theorem State.RecordClear.raiseErr_eq (h : s.RecordClear) (op : Instr) (E : ErrCode) (i : Nat) (y : Work w) :
    s.raiseErr op E i y =
      { s.settle op y with done := false, error := true, errCode := E.code, errIndex := BitVec.ofNat 32 i } := by
  obtain ⟨hdone, -⟩ := h
  rw [← hdone]
  rfl

/-- What two ends of command `op` share where its outcome is the same (R110); `header` says that it read a header. -/
structure SameEnd (op : Instr) (db : Nat) (header : Prop) (t t' : State) : Prop where
  done      : t.done = t'.done
  error     : t.error = t'.error
  errCode   : t.errCode = t'.errCode
  resultLen : t.resultLen = t'.resultLen
  errIndex  : t.errIndex = t'.errIndex
  dictSize  : usesDictionary op = true → t.dictSize = t'.dictSize
  headers   : header → t.hdrCount = t'.hdrCount ∧ t.rowWidth = t'.rowWidth
  written   : ∀ j, j < t.resultLen.toNat → t.element (destRam op) (db + j) = t'.element (destRam op) (db + j)

/-- The same work settled with the same flags in two states. -/
theorem sameEnd_settled {op : Instr} {store : Store w} {header : Prop}
    (hstore : StoresInto (destRam op) store) {y : Work w} (hout : y.eng.o = y.out.length)
    (hhdr : header → y.hdr.isSome = true) (s u : State) (a : Nat) (done error : Bool) (code : BitVec 4) (idx : Word) :
    SameEnd op a header
      { (store a y.out s).settle op y with done := done, error := error, errCode := code, errIndex := idx }
      { (store a y.out u).settle op y with done := done, error := error, errCode := code, errIndex := idx } where
  done := rfl
  error := rfl
  errCode := rfl
  resultLen := rfl
  errIndex := rfl
  dictSize hop := by simp only [State.settle, hop, if_true]
  headers hh := by
    obtain ⟨hd, hsome⟩ := Option.isSome_iff_exists.1 (hhdr hh)
    simp only [State.settle, hsome, and_self]
  written j hj := by
    have hlt : j < y.out.length := by
      have hj : j < (BitVec.ofNat 32 y.eng.o).toNat := hj
      have := Nat.mod_le y.eng.o (2 ^ 32)
      rw [BitVec.toNat_ofNat] at hj
      omega
    have hread := fun s => hstore.reads a y.out s j hlt
    cases hm : destRam op <;> rw [hm] at hread <;> exact (hread s).trans (hread u).symm

section
variable (op : Instr) (store : Store w) (e : Engine) (s : State)

theorem finish_ok (x : Work w) :
    s.finish op store e (.ok x) = .next ((store (e.db + e.o) x.out s).complete op x) := rfl

theorem finish_err (E : ErrCode) (i : Nat) (x : Work w) :
    s.finish op store e (.err E i x) = .next ((store (e.db + e.o) x.out s).raiseErr op E i x) := rfl

theorem finish_fault (f : Fault) : s.finish op store e (.fault f) = .fault f := rfl

end

/-- Two states in which a command runs from the start, with one outcome of its body, end alike (R110). -/
theorem sameEnd_of_body {op : Instr} {sn : Snapshot} {store : Store w}
    {body : State → Engine → Res (Work w)} {header : Prop} (hstore : StoresInto (destRam op) store)
    (hs : Inv s) (hu : Inv u) (hse : s.engine = some (Engine.fresh op sn)) (hue : u.engine = some (Engine.fresh op sn))
    (hgrow : ∀ y, Reaches (body u (Engine.fresh op sn)) y → Grows (Work.start w (Engine.fresh op sn)) y)
    (hbody : body s (Engine.fresh op sn) = body u (Engine.fresh op sn))
    (hhdr : header → ∀ y, Reaches (body u (Engine.fresh op sn)) y → y.hdr.isSome = true) :
    (∀ f, runCommand op store body s = .fault f ↔ runCommand op store body u = .fault f) ∧
    ∀ t t', runCommand op store body s = .next t → runCommand op store body u = .next t' →
      SameEnd op sn.db.toNat header t t' := by
  have hsc := hs.recordClear hse
  have huc := hu.recordClear hue
  have hout {y : Work w} (hy : Reaches (body u (Engine.fresh op sn)) y) : y.eng.o = y.out.length := by
    obtain ⟨-, -, l, hl, ho, -⟩ := hgrow y hy
    rw [Work.start_out, List.nil_append] at hl
    rw [ho, hl]
    exact Nat.zero_add _
  rw [runCommand_of_running hse, runCommand_of_running hue, hbody]
  cases hr : body u (Engine.fresh op sn) with
  | fault f =>
    rw [finish_fault, finish_fault]
    exact ⟨fun _ => Iff.rfl, fun _ _ ht => by cases ht⟩
  | ok y =>
    have hy : Reaches (body u (Engine.fresh op sn)) y := .inl hr
    rw [finish_ok, finish_ok]
    refine ⟨fun _ => iff_of_false nofun nofun, fun t t' ht ht' => ?_⟩
    cases ht
    cases ht'
    rw [(hstore.recordClear hsc _ _).complete_eq, (hstore.recordClear huc _ _).complete_eq]
    exact sameEnd_settled hstore (hout hy) (fun hh => hhdr hh y hy) s u _ _ _ _ _
  | err E i y =>
    have hy : Reaches (body u (Engine.fresh op sn)) y := .inr ⟨E, i, hr⟩
    rw [finish_err, finish_err]
    refine ⟨fun _ => iff_of_false nofun nofun, fun t t' ht ht' => ?_⟩
    cases ht
    cases ht'
    rw [(hstore.recordClear hsc _ _).raiseErr_eq, (hstore.recordClear huc _ _).raiseErr_eq]
    exact sameEnd_settled hstore (hout hy) (fun hh => hhdr hh y hy) s u _ _ _ _ _

/-- A command that runs from the start in two states of one part which agree on its source region. -/
theorem sameEnd_exec {op : Instr} {sn : Snapshot} (hs : Inv s) (hu : Inv u) (hcfg : s.cfg = u.cfg)
    (hse : s.engine = some (Engine.fresh op sn)) (hue : u.engine = some (Engine.fresh op sn))
    (hsrc : ∀ a, sn.sb.toNat ≤ a → a < sn.sb.toNat + sn.sl.toNat →
      s.element (sourceRam op) a = u.element (sourceRam op) a) :
    (∀ f, exec op s = .fault f ↔ exec op u = .fault f) ∧
    ∀ t t', exec op s = .next t → exec op u = .next t' →
      SameEnd op sn.db.toNat (op = .cread ∧ Fits s.cfg op sn ∧ 8 ≤ sn.sl.toNat) t t' := by
  cases op with
  | encode =>
    exact sameEnd_of_body storesInto_storeCode hs hu hse hue (grows_encodeBody u _)
      (encodeBody_congr hcfg (agreeOnSource_of_words (by decide) hsrc)) nofun
  | decode =>
    exact sameEnd_of_body storesInto_storeSym hs hu hse hue (grows_decodeBody u _)
      (decodeBody_congr hcfg (agreeOnSource_of_words (by decide) hsrc)) nofun
  | pack =>
    exact sameEnd_of_body storesInto_storeStream hs hu hse hue (grows_packBody u _)
      (packBody_congr hcfg (agreeOnSource_of_words (by decide) hsrc)) nofun
  | unpack =>
    exact sameEnd_of_body storesInto_storeCode hs hu hse hue (grows_unpackBody u _)
      (unpackBody_congr hcfg (agreeOnSource_of_words (by decide) hsrc)) nofun
  | cwrite =>
    exact sameEnd_of_body storesInto_storeStream hs hu hse hue (grows_cwriteBody u _)
      (cwriteBody_congr hcfg (agreeOnSource_of_words (by decide) hsrc)) nofun
  | cread =>
    refine sameEnd_of_body storesInto_storeCode hs hu hse hue (grows_creadBody u _)
      (creadBody_congr hcfg (agreeOnSource_of_words (by decide) hsrc)) ?_
    rintro ⟨-, hfit, hlong⟩ y hy
    exact creadBody_hdr (e := Engine.fresh .cread sn) (hcfg ▸ hfit) hlong hy

/-- Settles O29: the body's outcome depends on nothing else, and the ends show that outcome. -/
theorem outcomeDependsOnlyOnOperandsAndSource : Obligations.OutcomeDependsOnlyOnOperandsAndSource := by
  unfold Obligations.OutcomeDependsOnlyOnOperandsAndSource
  intro s u op sn hs hu hcfg hse hue hsrc
  obtain ⟨hfault, hnext⟩ := sameEnd_exec hs hu hcfg hse hue hsrc
  refine ⟨hfault, fun t v ht hv => ?_⟩
  have hend := hnext t v ht hv
  exact ⟨hend.done, hend.error, hend.errCode, hend.resultLen, hend.errIndex, hend.dictSize,
    fun hop hfit hlong => hend.headers ⟨hop, hfit, hlong⟩, hend.written⟩

end Sys2Proof.Machine
end

section
/-! Acceptance of a command (R100 to R104) and the engine's turn at the step (R109). -/

namespace Sys2Proof.Machine

variable {s : State} {v : Word} {op : Instr}

/-- A CMD write of a command's word, as one change of the state (R100, R103, R104). -/
theorem writeCmd_of_ok (h : decodeCmd v = .ok op) (s : State) :
    s.writeCmd v =
      { s with
        cmd := v, done := false, error := false, errCode := 0#4, resultLen := 0#32, errIndex := 0#32
        engine := some (Engine.fresh op s.operands), draws := s.draws + 1 } := by
  rw [State.writeCmd, h]
  rfl

/-- Settles O7: the write reaches CMD, where the decoder decides between acceptance and BAD_COMMAND. -/
theorem cmdWriteProcessing : Obligations.CmdWriteProcessing := by
  unfold Obligations.CmdWriteProcessing
  intro s v
  have hwrite (hidle : s.busy = false) : hostWrite 0x00000004#32 v s = s.writeCmd v :=
    hostWrite_of_reg (decodeAddr_regAddr .cmd) hidle v
  refine ⟨fun hidle op hop => ?accepted, fun hidle r hr => ?rejected, fun hbusy => hostWrite_of_busy hbusy _ _⟩
  case accepted =>
    rw [hwrite hidle, writeCmd_of_ok hop]
    exact ⟨_, rfl⟩
  case rejected =>
    rw [hwrite hidle, writeCmd_of_error hr]
    exact ⟨_, rfl⟩

theorem engineTurn_of_running {e : Engine} (h : s.engine = some e) : engineTurn s = exec e.op s := by rw [engineTurn, h]

theorem defaultTurn_of_running {e : Engine} (h : s.engine = some e) : defaultTurn s = .engine := by
  simp [defaultTurn, (State.busy_iff s).2 ⟨e, h⟩]

/-- Where the schedule names nobody the engine of a running command moves (R236, log entry 6). -/
theorem step_of_default {e : Engine} (h : s.engine = some e) (hturns : s.turns = []) : step s = exec e.op s := by
  rw [step_of_turns_nil hturns, defaultTurn_of_running h, takeTurn_engine, engineTurn_of_running h]

theorem step_of_engine {e : Engine} {ts : List Turn} (h : s.engine = some e) (hturns : s.turns = .engine :: ts) :
    step s = exec e.op { s with turns := ts } := by
  have h' : ({ s with turns := ts } : State).engine = some e := h
  rw [step_of_turns_cons hturns, takeTurn_engine, engineTurn_of_running h']

/-- With the engine put next in the schedule `ts`, a running command is completed and `ts` is what is left. -/
theorem step_of_engineNext {e : Engine} {ts : List Turn} (h : s.engine = some e) (hturns : s.turns = engineNext ts) :
    step s = exec e.op { s with turns := ts } := by
  cases ts with
  | nil =>
    have hs : s = { s with turns := [] } := by rw [← show s.turns = [] from hturns]
    rw [← hs]
    exact step_of_default h hturns
  | cons t rest => exact step_of_engine h hturns

theorem decodeCmd_of_tableWord {n w : Nat} (h : decodeTableWord n w = some op) :
    decodeCmd (BitVec.ofNat 32 (w % 2 ^ n)) = .ok op := by
  unfold decodeTableWord at h
  split at h
  · rename_i hop
    cases h
    exact hop
  · cases h

/-- Settles O22: the engine's turn, named or by default, runs the accepted command; a placed word has been accepted. -/
theorem stepRunsAcceptedCommand : Obligations.StepRunsAcceptedCommand := by
  unfold Obligations.StepRunsAcceptedCommand
  refine ⟨fun s e ts he hts => step_of_engine he hts, fun s e he hts => step_of_default he hts, fun s w i hw => ?_⟩
  have hplaced : s.withFetchWord 32 w = _ := writeCmd_of_ok (decodeCmd_of_tableWord hw) _
  have hengine : (s.withFetchWord 32 w).engine = some (Engine.fresh i s.operands) := by rw [hplaced]; rfl
  refine ⟨hengine, ?_, step_of_engineNext hengine (by rw [hplaced])⟩
  rw [hplaced]
  exact BitVec.eq_of_toNat_eq (by simp)

end Sys2Proof.Machine
end

section
/-! Commands that end in an error before they have done anything: RANGE (R105). -/

namespace Sys2Proof.Machine

open Sys2Proof.Reference

variable {w : Nat} {s : State} {op : Instr} {sn : Snapshot}

/-- The body of command `op`, from the start, begins with the region checks (R105). -/
def ChecksRegionsFirst (op : Instr) (body : State → Engine → Res (Work w)) : Prop :=
  ∀ s sn, ∃ k, body s (Engine.fresh op sn) =
    (checkRegions (ramDepth s.cfg (sourceRam op)) (ramDepth s.cfg (destRam op))
      (Work.start w (Engine.fresh op sn))).andThen k

theorem checksRegionsFirst_encodeBody : ChecksRegionsFirst .encode encodeBody := fun s _ =>
  ⟨_, (Res.andThen_assoc (encodeOpen s.cfg _) _ _).trans (Res.andThen_assoc _ _ _)⟩

theorem checksRegionsFirst_decodeBody : ChecksRegionsFirst .decode decodeBody := fun _ _ => ⟨_, Res.andThen_assoc _ _ _⟩

theorem checksRegionsFirst_packBody : ChecksRegionsFirst .pack packBody := fun _ _ => ⟨_, Res.andThen_assoc _ _ _⟩

theorem checksRegionsFirst_unpackBody : ChecksRegionsFirst .unpack unpackBody := fun _ _ => ⟨_, Res.andThen_assoc _ _ _⟩

theorem checksRegionsFirst_cwriteBody : ChecksRegionsFirst .cwrite cwriteBody := fun _ _ => ⟨_, Res.andThen_assoc _ _ _⟩

theorem checksRegionsFirst_creadBody : ChecksRegionsFirst .cread creadBody := fun _ _ => ⟨_, Res.andThen_assoc _ _ _⟩

/-- A region beyond its RAM ends such a body with nothing done. -/
theorem body_of_not_fits {body : State → Engine → Res (Work w)} (h : ChecksRegionsFirst op body)
    (hfit : ¬ Fits s.cfg op sn) :
    body s (Engine.fresh op sn) = .err .range 0 (Work.start w (Engine.fresh op sn)) := by
  obtain ⟨k, hk⟩ := h s sn
  rcases checkRegions_cases (ramDepth s.cfg (sourceRam op)) (ramDepth s.cfg (destRam op))
    (Work.start w (Engine.fresh op sn)) with ⟨-, hfits⟩ | ⟨hc, -⟩
  · exact absurd hfits hfit
  · rw [hk, hc, Res.andThen_err]

/-- A command in state `s` ended with error `E` at once: no element and no header is written, and the commands that own
a dictionary leave DICT_SIZE 0 (R203, R35). -/
def EndsUntouched (op : Instr) (E : ErrCode) (s t : State) : Prop :=
  EndsErr t E.code 0 0 ∧ t.dictSize = (if usesDictionary op then 0#13 else s.dictSize) ∧
    t.hdrCount = s.hdrCount ∧ t.rowWidth = s.rowWidth ∧ t.sym = s.sym ∧ t.code = s.code ∧ t.stream = s.stream

theorem endsUntouched_of_body {store : Store w} {body : State → Engine → Res (Work w)}
    {E : ErrCode} (hs : Inv s) (he : s.engine = some (Engine.fresh op sn)) (hstore : ∀ a s, store a [] s = s)
    (hbody : body s (Engine.fresh op sn) = .err E 0 (Work.start w (Engine.fresh op sn))) :
    ∃ t, runCommand op store body s = .next t ∧ EndsUntouched op E s t := by
  rw [runCommand_of_running he, hbody, finish_err, Work.start_out, hstore, (hs.recordClear he).raiseErr_eq]
  exact ⟨_, rfl, ⟨rfl, rfl, rfl, rfl, rfl, rfl⟩, rfl, rfl, rfl, rfl, rfl, rfl⟩

theorem endsUntouched_range (hs : Inv s) (he : s.engine = some (Engine.fresh op sn)) (hfit : ¬ Fits s.cfg op sn) :
    ∃ t, exec op s = .next t ∧ EndsUntouched op .range s t := by
  cases op with
  | encode => exact endsUntouched_of_body hs he (fun _ _ => rfl) (body_of_not_fits checksRegionsFirst_encodeBody hfit)
  | decode => exact endsUntouched_of_body hs he (fun _ _ => rfl) (body_of_not_fits checksRegionsFirst_decodeBody hfit)
  | pack => exact endsUntouched_of_body hs he (fun _ _ => rfl) (body_of_not_fits checksRegionsFirst_packBody hfit)
  | unpack => exact endsUntouched_of_body hs he (fun _ _ => rfl) (body_of_not_fits checksRegionsFirst_unpackBody hfit)
  | cwrite => exact endsUntouched_of_body hs he (fun _ _ => rfl) (body_of_not_fits checksRegionsFirst_cwriteBody hfit)
  | cread => exact endsUntouched_of_body hs he (fun _ _ => rfl) (body_of_not_fits checksRegionsFirst_creadBody hfit)

theorem usesDictionary_iff : usesDictionary op = true ↔ op = .encode ∨ op = .decode := by cases op <;> decide

/-- Settles O31: every body begins with the region checks. -/
theorem rangeEndsEveryCommand : Obligations.RangeEndsEveryCommand := by
  unfold Obligations.RangeEndsEveryCommand
  intro s op sn hs he hfit
  obtain ⟨t, ht, hend⟩ := endsUntouched_range hs he hfit
  simp only [EndsUntouched, usesDictionary_iff] at hend
  exact ⟨t, ht, hend⟩

end Sys2Proof.Machine
end

section
/-! The translation of a code stream without a table (`Reference.trans`), and the table DECODE builds from the same
stream (R136, R157 to R161). -/

namespace Sys2Proof.Reference

open Sys2Proof.Machine

variable {M : Nat} {cs : List Code} {i n : Nat}

/-! ### The translation by the code's value -/

/-- Every code up to code `i` of the stream is accepted. -/
def AcceptedTo (M : Nat) (cs : List Code) (i : Nat) : Prop := ∀ j, j ≤ i → Accepted M cs j

theorem AcceptedTo.mono (h : AcceptedTo M cs i) (hn : n ≤ i) : AcceptedTo M cs n := fun j hj => h j (hj.trans hn)

/-- An accepted code above the seeds refers to an earlier code of the stream. -/
theorem Accepted.refers_back (h : Accepted M cs i) (hk : ¬ (cs.getD i 0#12).toNat < 256) :
    (cs.getD i 0#12).toNat - 256 < i := by
  have := Nat.lt_of_lt_of_le h (Nat.min_le_right _ _)
  omega

/-- Any fuel above its position gives a code's translation. -/
theorem transFrom_fuel {f g : Nat} (h : AcceptedTo M cs i) (hf : i < f) (hg : i < g) :
    transFrom cs f i = transFrom cs g i := by
  induction f generalizing i g with
  | zero => omega
  | succ f ih =>
    cases g with
    | zero => omega
    | succ g =>
      rw [transFrom, transFrom]
      split
      · rfl
      · rename_i hk
        have hback := (h i le_rfl).refers_back hk
        rw [ih (h.mono hback.le) (g := g) (by omega) (by omega)]

theorem headAt_fuel {f g : Nat} (h : AcceptedTo M cs i) (hf : i < f) (hg : i < g) : headAt cs f i = headAt cs g i := by
  induction f generalizing i g with
  | zero => omega
  | succ f ih =>
    cases g with
    | zero => omega
    | succ g =>
      rw [headAt, headAt]
      split
      · rfl
      · rename_i hk
        have hback := (h i le_rfl).refers_back hk
        exact ih (h.mono hback.le) (by omega) (by omega)

/-- The first symbol of the translation of code `i`. -/
def headSymbol (cs : List Code) (i : Nat) : Symbol := headAt cs (cs.length + 1) i

/-- What code 256 + `j` stands for: the translation of code `j` and the first symbol of the next (R161). -/
def learnedEntry (cs : List Code) (j : Nat) : List Symbol := trans cs j ++ [headSymbol cs (j + 1)]

theorem trans_eq (h : AcceptedTo M cs i) (hi : i ≤ cs.length) :
    trans cs i = if (cs.getD i 0#12).toNat < 256 then [BitVec.ofNat 8 (cs.getD i 0#12).toNat]
      else learnedEntry cs ((cs.getD i 0#12).toNat - 256) := by
  rw [trans, transFrom]
  split
  · rfl
  · rename_i hk
    have hback := (h i le_rfl).refers_back hk
    rw [learnedEntry, trans, headSymbol,
      transFrom_fuel (h.mono hback.le) (f := cs.length) (g := cs.length + 1) (by omega) (by omega)]

theorem headSymbol_eq (h : AcceptedTo M cs i) (hi : i ≤ cs.length) :
    headSymbol cs i = if (cs.getD i 0#12).toNat < 256 then BitVec.ofNat 8 (cs.getD i 0#12).toNat
      else headSymbol cs ((cs.getD i 0#12).toNat - 256) := by
  rw [headSymbol, headAt]
  split
  · rfl
  · rename_i hk
    have hback := (h i le_rfl).refers_back hk
    rw [headSymbol, headAt_fuel (h.mono hback.le) (f := cs.length) (g := cs.length + 1) (by omega) (by omega)]

theorem head?_trans (h : AcceptedTo M cs i) (hi : i ≤ cs.length) : (trans cs i).head? = some (headSymbol cs i) := by
  induction i using Nat.strong_induction_on with
  | _ i ih =>
    rw [trans_eq h hi, headSymbol_eq h hi]
    split
    · rfl
    · rename_i hk
      have hback := (h i le_rfl).refers_back hk
      rw [learnedEntry, List.head?_append, ih _ hback (h.mono hback.le) (by omega)]
      rfl

theorem transAll_succ (cs : List Code) (n : Nat) : transAll cs (n + 1) = transAll cs n ++ trans cs n := by
  simp [transAll, List.range_succ]

/-! ### The table -/

/-- The table when code `n` of the stream is looked at (R136). -/
def tableAt (M : Nat) (cs : List Code) (n : Nat) : Dict :=
  { learned := (List.range (min (M - 256) (n - 1))).map (learnedEntry cs) }

theorem dictCount_tableAt (hM : 256 ≤ M) (cs : List Code) (n : Nat) : dictCount (tableAt M cs n) = entriesAt M n := by
  simp only [dictCount, tableAt, Config.literals, List.length_map, List.length_range, entriesAt]
  split <;> omega

/-- The codes the table has when code `n` is looked at stand for their translations (R159). -/
theorem lookupCode_tableAt (hM : 256 ≤ M) (h : AcceptedTo M cs i) (hi : i ≤ cs.length)
    (hk : (cs.getD i 0#12).toNat < entriesAt M n) :
    lookupCode (tableAt M cs n) (cs.getD i 0#12).toNat = some (trans cs i) := by
  rw [trans_eq h hi, lookupCode, Config.literals]
  split
  · rfl
  · rw [← dictCount_tableAt hM cs n] at hk
    simp only [dictCount, tableAt, Config.literals, List.length_map, List.length_range] at hk
    rw [tableAt, List.getElem?_map, List.getElem?_range (by omega)]
    rfl

/-- The insert behind code `n + 1` (R161). -/
theorem dictInsert_tableAt (hM : 256 ≤ M) (cs : List Code) (n : Nat) :
    dictInsert M (tableAt M cs (n + 1)) (learnedEntry cs n) = tableAt M cs (n + 2) := by
  have hcount := dictCount_tableAt hM cs (n + 1)
  rw [entriesAt, if_neg (Nat.succ_ne_zero n)] at hcount
  by_cases hroom : dictCount (tableAt M cs (n + 1)) < M
  · rw [dictInsert_of_room hroom, tableAt, tableAt, show min (M - 256) (n + 1 - 1) = n by omega,
      show min (M - 256) (n + 2 - 1) = n + 1 by omega, List.range_succ, List.map_append]
    rfl
  · rw [dictInsert_of_full hroom, tableAt, tableAt, show min (M - 256) (n + 2 - 1) = min (M - 256) (n + 1 - 1) by omega]

/-- An accepted code behind code `n` is translated as without a table: it is known, or it is the next to be learned
(R158 to R160). -/
theorem translate_tableAt (hM : 256 ≤ M) (h : AcceptedTo M cs (n + 1)) (hn : n + 1 ≤ cs.length) :
    Machine.translate M (tableAt M cs (n + 1)) (trans cs n) (cs.getD (n + 1) 0#12).toNat = some (trans cs (n + 1)) := by
  have hcount := dictCount_tableAt hM cs (n + 1)
  have haccepted : (cs.getD (n + 1) 0#12).toNat < min M (256 + (n + 1)) := h (n + 1) le_rfl
  unfold Machine.translate
  split
  · rename_i hk
    exact lookupCode_tableAt hM h hn (hcount ▸ hk)
  · rename_i hk
    rw [hcount, entriesAt, if_neg (Nat.succ_ne_zero n)] at hk ⊢
    have hnext : (cs.getD (n + 1) 0#12).toNat - 256 = n := by omega
    rw [if_pos (by omega), trans_eq h hn, if_neg (by omega), hnext, learnedEntry, headSymbol_eq h hn, if_neg (by omega),
      hnext, head?_trans (h.mono (Nat.le_succ n)) (by omega)]
    rfl

end Sys2Proof.Reference
end

section
/-! DECODE of accepted codes, code by code (R157 to R161), and its end where a translation does not fit (R107, R163). -/

namespace Sys2Proof.Machine

open Sys2Proof.Reference

variable {c : Config} {sn : Snapshot} {cs : List Code} {n : Nat}

/-! ### One code whose translation is known -/

/-- The first code, known to the table (R157). -/
theorem decodeFirst_of_known {d : Dict} {k : Code} {t : List Symbol} (ht : lookupCode d k.toNat = some t) (x : Work 8) :
    decodeFirst d k x = (putSeq t x.eng.i x).andThen fun x =>
      .ok ({ x with eng := { x.eng with prev := some k } }.advance 1) := by
  rw [decodeFirst, if_neg (Nat.not_le.2 (lookupCode_lt ht)), ht]

/-- A later code with a translation: it is put, then the entry it completes is inserted (R161). -/
theorem decodeWalk_of_translate {k p : Code} {d : Dict} {m t : List Symbol} {a : Symbol} {x : Work 8}
    (hd : x.eng.dict = some d) (hprev : x.eng.prev = some p) (hm : lookupCode d p.toNat = some m)
    (ht : translate c.maxEntries d m k.toNat = some t) (ha : t.head? = some a) :
    decodeWalk c k x = (putSeq t x.eng.i x).andThen fun x =>
      .ok ({ x with eng := { x.eng with
        dict := some (dictInsert c.maxEntries d (m ++ [a]))
        prev := some k } }.advance 1) := by
  obtain ⟨rest, rfl⟩ := List.head?_eq_some_iff.1 ha
  simp only [decodeWalk, hd, hprev, hm, decodeLater, ht, decodeEmit]

/-! ### DECODE behind the first codes of the stream -/

/-- The code before code `n` of the stream. -/
def prevCode (cs : List Code) (n : Nat) : Option Code :=
  match n with
  | 0 => none
  | k + 1 => some (cs.getD k 0#12)

/-- DECODE when it looks at code `n` of the stream, all earlier ones accepted and their translations written. -/
def decodedTo (M : Nat) (sn : Snapshot) (cs : List Code) (n : Nat) : Work 8 :=
  { eng := { Engine.fresh .decode sn with
      i := n, o := (transAll cs n).length, dict := some (tableAt M cs n), prev := prevCode cs n }
    out := transAll cs n
    hdr := none }

/-- The same with the translation of code `n` written too, before the insert. -/
def decodedOut (M : Nat) (sn : Snapshot) (cs : List Code) (n : Nat) : Work 8 :=
  { decodedTo M sn cs n with
    eng := { (decodedTo M sn cs n).eng with o := (transAll cs (n + 1)).length }
    out := transAll cs (n + 1) }

theorem putSeq_decodedTo {M : Nat} (hfit : (transAll cs (n + 1)).length ≤ sn.dc.toNat) (idx : Nat) :
    putSeq (trans cs n) idx (decodedTo M sn cs n) = .ok (decodedOut M sn cs n) := by
  have hlen := congrArg List.length (transAll_succ cs n)
  rw [List.length_append] at hlen
  rw [putSeq_ok _ _ _ (hlen ▸ hfit), decodedOut, transAll_succ, List.length_append]
  rfl

/-- An accepted code is one translation to put, and then the next state of the walk (R157 to R161). -/
theorem decodeWalk_decodedTo (hM : 256 ≤ c.maxEntries) (h : AcceptedTo c.maxEntries cs n) (hn : n ≤ cs.length) :
    ∃ k, decodeWalk c (cs.getD n 0#12) (decodedTo c.maxEntries sn cs n) =
        (putSeq (trans cs n) n (decodedTo c.maxEntries sn cs n)).andThen k ∧
      k (decodedOut c.maxEntries sn cs n) = .ok (decodedTo c.maxEntries sn cs (n + 1)) := by
  have hcode : (cs.getD n 0#12).toNat < min c.maxEntries (256 + n) := h n le_rfl
  cases n with
  | zero =>
    have hlookup := lookupCode_tableAt (n := 0) hM h hn (Nat.lt_of_lt_of_le hcode (Nat.min_le_right _ _))
    exact ⟨_, decodeFirst_of_known hlookup (decodedTo c.maxEntries sn cs 0), rfl⟩
  | succ n =>
    have hbefore := h.mono (Nat.le_succ n)
    have hprev := lookupCode_tableAt (n := n + 1) hM hbefore (by omega) (hbefore n le_rfl)
    refine ⟨_, decodeWalk_of_translate rfl rfl hprev (translate_tableAt hM h hn) (head?_trans h hn), ?_⟩
    rw [← learnedEntry, dictInsert_tableAt hM]
    rfl

/-- An accepted code whose translation fits. -/
theorem decodeWalk_fits (hM : 256 ≤ c.maxEntries) (h : AcceptedTo c.maxEntries cs n) (hn : n ≤ cs.length)
    (hfit : (transAll cs (n + 1)).length ≤ sn.dc.toNat) :
    decodeWalk c (cs.getD n 0#12) (decodedTo c.maxEntries sn cs n) = .ok (decodedTo c.maxEntries sn cs (n + 1)) := by
  obtain ⟨k, hwalk, hk⟩ := decodeWalk_decodedTo (sn := sn) hM h hn
  rw [hwalk, putSeq_decodedTo hfit, Res.andThen_ok, hk]

/-- An accepted code whose translation does not fit ends DECODE with nothing of it written and nothing inserted (R107,
R161). -/
theorem decodeWalk_overflows (hM : 256 ≤ c.maxEntries) (h : AcceptedTo c.maxEntries cs n) (hn : n ≤ cs.length)
    (hover : sn.dc.toNat < (transAll cs (n + 1)).length) :
    decodeWalk c (cs.getD n 0#12) (decodedTo c.maxEntries sn cs n) =
      .err .dstOverflow n (decodedTo c.maxEntries sn cs n) := by
  obtain ⟨k, hwalk, -⟩ := decodeWalk_decodedTo (sn := sn) hM h hn
  rw [transAll_succ, List.length_append] at hover
  rw [hwalk, putSeq_err _ _ (decodedTo c.maxEntries sn cs n) hover, Res.andThen_err]

theorem take_succ_code (hn : n < cs.length) : cs.take (n + 1) = cs.take n ++ [cs.getD n 0#12] := by
  rw [List.take_succ_eq_append_getElem hn, List.getD_eq_getElem _ _ hn]

/-- DECODE over the first `n` codes of the stream, all accepted and with translations that fit. -/
theorem decodeLoop_decodedTo (hM : 256 ≤ c.maxEntries) (h : ∀ j, j < n → Accepted c.maxEntries cs j)
    (hn : n ≤ cs.length) (hfit : (transAll cs n).length ≤ sn.dc.toNat) :
    decodeLoop c ((cs.take n).map some) (decodedTo c.maxEntries sn cs 0) = .ok (decodedTo c.maxEntries sn cs n) := by
  induction n with
  | zero => rfl
  | succ n ih =>
    have hshorter : (transAll cs n).length ≤ sn.dc.toNat := by
      rw [transAll_succ, List.length_append] at hfit
      omega
    rw [take_succ_code hn, List.map_append, decodeLoop_append, ih (fun j hj => h j (by omega)) (by omega) hshorter,
      Res.andThen_ok]
    show (decodeWalk c _ _).andThen (decodeLoop c []) = _
    rw [decodeWalk_fits hM (fun j hj => h j (by omega)) (by omega) hfit]
    rfl

/-! ### The whole command -/

/-- The start of ENCODE or DECODE where its checks pass: dict_init (R141, R156). -/
theorem codecOpen_fresh {w a b : Nat} {op : Instr}
    (hfit : sn.sb.toNat + sn.sl.toNat ≤ a ∧ sn.db.toNat + sn.dc.toNat ≤ b) (hlen : 0 < sn.sl.toNat) :
    codecOpen a b (Work.start w (Engine.fresh op sn)) =
      .ok (Work.start w { Engine.fresh op sn with dict := some dictInit }) := by
  rw [codecOpen, if_neg (by simp [Engine.fresh]), checkRegions_of_fits hfit]
  exact if_neg (Nat.pos_iff_ne_zero.1 hlen)

theorem decodedTo_zero (M : Nat) (sn : Snapshot) (cs : List Code) :
    decodedTo M sn cs 0 = Work.start 8 { Engine.fresh .decode sn with dict := some dictInit } := by
  have htable : tableAt M cs 0 = dictInit := by simp [tableAt, dictInit]
  rw [decodedTo, htable]
  rfl

/-- DECODE from its start, where its checks pass, is its walk over the whole source region (R156). -/
theorem decodeBody_of_fits {s : State} (hfit : Fits s.cfg .decode sn) (hlen : 0 < sn.sl.toNat) (cs : List Code) :
    decodeBody s (Engine.fresh .decode sn) =
      decodeLoop s.cfg (ramRange s.code sn.sb.toNat sn.sl.toNat) (decodedTo s.cfg.maxEntries sn cs 0) := by
  have hopen : codecOpen s.cfg.codeDepth s.cfg.symDepth (Work.start 8 (Engine.fresh .decode sn)) = .ok _ :=
    codecOpen_fresh hfit hlen
  have hrange : min sn.sl.toNat (sn.sl.toNat - 0) = sn.sl.toNat := by omega
  rw [decodeBody, decodePart_eq, codecPart_of_open hopen, decodedTo_zero]
  show decodeLoop s.cfg (ramRange s.code (sn.sb.toNat + 0) (min sn.sl.toNat (sn.sl.toNat - 0))) _ = _
  rw [hrange, Nat.add_zero]

/-- DECODE of a stream whose first code that does not fit is code `i` (R107, R161). -/
theorem decodeBody_overflows {s : State} {i : Nat} (hM : 256 ≤ s.cfg.maxEntries) (hfit : Fits s.cfg .decode sn)
    (hlen : cs.length = i + 1) (hi : i < sn.sl.toNat) (hsrc : ramRange s.code sn.sb.toNat cs.length = cs.map some)
    (h : AcceptedTo s.cfg.maxEntries cs i) (hbefore : (transAll cs i).length ≤ sn.dc.toNat)
    (hover : sn.dc.toNat < (transAll cs (i + 1)).length) :
    decodeBody s (Engine.fresh .decode sn) = .err .dstOverflow i (decodedTo s.cfg.maxEntries sn cs i) := by
  have hlast : cs = cs.take i ++ [cs.getD i 0#12] := by
    rw [← take_succ_code (by omega), List.take_of_length_le (by omega)]
  have hsplit : sn.sl.toNat = cs.length + (sn.sl.toNat - cs.length) := by omega
  have hcodes : cs.map some = (cs.take i).map some ++ [some (cs.getD i 0#12)] := by
    conv_lhs => rw [hlast]
    rw [List.map_append]
    rfl
  rw [decodeBody_of_fits hfit (by omega) cs, hsplit, ramRange_append, hsrc, hcodes, decodeLoop_append,
    decodeLoop_append, decodeLoop_decodedTo hM (fun j hj => h j hj.le) (by omega) hbefore, Res.andThen_ok, decodeLoop,
    decodeWalk_overflows hM h (by omega) hover]
  rfl

/-! ### The end of a command from its start -/

theorem runCommand_of_starts {w : Nat} {op : Instr} {s : State} {store : Store w}
    {body : State → Engine → Res (Work w)} (h : Starts op s sn) :
    runCommand op store body s =
      (s.issued op).finish op store (Engine.fresh op sn) (body (s.issued op) (Engine.fresh op sn)) := by
  rw [runCommand, h]

/-- Where a command runs, or has just been issued, the record of the one before it is clear (R100). -/
theorem Inv.recordClear_issued {s : State} (hs : Inv s) (op : Instr) : (s.issued op).RecordClear := by
  cases he : s.engine with
  | none =>
    rw [State.issued_of_idle op he]
    exact ⟨rfl, rfl, rfl, rfl⟩
  | some e =>
    rw [State.issued_of_busy op ((State.busy_iff s).2 ⟨e, he⟩)]
    exact hs.recordClear he

/-- DICT_SIZE of an end whose table is the one before code `i` (R35, R136). -/
theorem endDictSize_decodedTo {M : Nat} (hM : 256 ≤ M ∧ M ≤ 4096) (sn : Snapshot) (cs : List Code) (i : Nat) :
    (endDictSize (decodedTo M sn cs i).eng).toNat = entriesAt M i := by
  show (BitVec.ofNat 13 (dictCount (tableAt M cs i))).toNat = _
  rw [dictCount_tableAt hM.1, BitVec.toNat_ofNat, entriesAt]
  split <;> omega

/-- Settles O42: the walk comes to code `i` with the translations before it written, and the put of its translation
fails. -/
theorem decodeOverflowsWholeTranslation : Obligations.DecodeOverflowsWholeTranslation := by
  unfold Obligations.DecodeOverflowsWholeTranslation
  intro s sn cs i hs hstarts hfit hlen hi hsrc haccepted hbefore hover
  obtain ⟨hcfg, -, hcode, -⟩ := State.issued_kept .decode s
  have hbody : decodeBody (s.issued .decode) (Engine.fresh .decode sn) =
      .err .dstOverflow i (decodedTo s.cfg.maxEntries sn cs i) := by
    rw [decodeBody_congr (u := s) hcfg fun _ _ _ => by rw [hcode]]
    exact decodeBody_overflows hs.cap.1 hfit hlen hi hsrc haccepted hbefore hover
  have hrun : exec .decode s = _ := runCommand_of_starts hstarts
  rw [hbody, finish_err, (storesInto_storeSym.recordClear (hs.recordClear_issued .decode) _ _).raiseErr_eq] at hrun
  exact ⟨_, hrun, ⟨rfl, rfl, rfl, rfl, rfl, rfl⟩, ramRange_ramWriteSeq _ _ _, endDictSize_decodedTo hs.cap sn cs i⟩

end Sys2Proof.Machine
end

section
/-! The DictionaryTable's lookups as inverses of each other, and what an insert makes of them (R122 to R125, R127). -/

namespace Sys2Proof.Machine

variable {d : Dict} {k M : Nat} {q : List Symbol}

theorem lookupCode_of_seed (hk : k < 256) : lookupCode d k = some [BitVec.ofNat 8 k] := if_pos hk

theorem lookupCode_of_learned (hk : 256 ≤ k) : lookupCode d k = d.learned[k - 256]? := if_neg (Nat.not_lt.2 hk)

theorem getElem?_of_seqIndex {l : List (List Symbol)} {j : Nat} (h : seqIndex l q = some j) : l[j]? = some q := by
  induction l generalizing j with
  | nil => cases h
  | cons t rest ih =>
    rw [seqIndex] at h
    split at h
    · rename_i heq
      cases h
      rw [List.getElem?_cons_zero, heq]
    · obtain ⟨i, hi, rfl⟩ := Option.map_eq_some_iff.1 h
      rw [List.getElem?_cons_succ, ih hi]

/-- The code of a sequence stands for the sequence (R124). -/
theorem lookupCode_of_lookupSeq (h : lookupSeq d q = some k) : lookupCode d k = some q := by
  unfold lookupSeq at h
  split at h
  · rename_i x
    cases h
    rw [lookupCode_of_seed x.isLt, BitVec.ofNat_toNat, BitVec.setWidth_eq]
  · obtain ⟨j, hj, rfl⟩ := Option.map_eq_some_iff.1 h
    rw [Config.literals, lookupCode_of_learned (Nat.le_add_left _ _), Nat.add_sub_cancel, getElem?_of_seqIndex hj]

/-- A symbol as a code is its own seed (R122). -/
theorem lookupCode_symbol (d : Dict) (sy : Symbol) : lookupCode d (sy.setWidth 12).toNat = some [sy] := by
  have : sy.toNat < 256 := sy.isLt
  rw [BitVec.toNat_setWidth, Nat.mod_eq_of_lt (by omega)]
  exact lookupCode_of_lookupSeq rfl

/-- A sequence without a code is the sequence of no code (R124). -/
theorem lookupCode_ne_of_lookupSeq (h : lookupSeq d q = none) (k : Nat) : lookupCode d k ≠ some q := by
  intro hk
  rcases Nat.lt_or_ge k 256 with hseed | hlearned
  · rw [lookupCode_of_seed hseed] at hk
    cases hk
    cases h
  · rw [lookupCode_of_learned hlearned] at hk
    exact lookupSeq_eq_none h (List.mem_of_getElem? hk)

theorem lookupCode_insert_self (hroom : dictCount d < M) (q : List Symbol) :
    lookupCode (dictInsert M d q) (dictCount d) = some q := by
  rw [dictInsert_of_room hroom, dictCount, Config.literals, lookupCode_of_learned (Nat.le_add_right _ _),
    Nat.add_sub_cancel_left, List.getElem?_concat_length]

theorem lookupCode_insert_of_some {m : List Symbol} (h : lookupCode d k = some m) (M : Nat) (q : List Symbol) :
    lookupCode (dictInsert M d q) k = some m := by
  by_cases hroom : dictCount d < M
  · rw [dictInsert_of_room hroom]
    exact lookupCode_append h [q]
  · rwa [dictInsert_of_full hroom]

theorem dictCount_insert_le (h : dictCount d ≤ M) (q : List Symbol) : dictCount (dictInsert M d q) ≤ M := by
  by_cases hroom : dictCount d < M
  · rw [dictInsert_of_room hroom, dictCount_append]
    exact hroom
  · rwa [dictInsert_of_full hroom]

/-- Settles O46, operation by operation. -/
theorem dictionaryOperations : Obligations.DictionaryOperations := by
  unfold Obligations.DictionaryOperations
  refine ⟨rfl, fun k => lookupCode_of_seed, fun d k => ⟨fun h => ?found, fun h => ?inTable⟩, fun d x => rfl,
    fun d q k => lookupCode_of_lookupSeq, fun d q => lookupCode_ne_of_lookupSeq,
    fun n d q hroom => ⟨?size, lookupCode_insert_self hroom q, fun k hk => ?kept⟩,
    fun n d q hfull => dictInsert_of_full (Nat.not_lt.2 hfull) q⟩
  case found =>
    obtain ⟨m, hm⟩ := Option.ne_none_iff_exists'.1 h
    exact lookupCode_lt hm
  case inTable => exact Option.ne_none_iff_exists'.2 (exists_lookupCode h)
  case size => rw [dictInsert_of_room hroom, dictCount_append]
  case kept =>
    obtain ⟨m, hm⟩ := exists_lookupCode hk
    rw [hm, lookupCode_insert_of_some hm]

end Sys2Proof.Machine
end

section
/-! The entries of a running command's table are distinct and bounded (R128, R130), and the table only grows at its end
(R126). -/

namespace Sys2Proof.Machine

variable {w : Nat} {c : Config} {d : Dict} {e e' e'' : Engine} {M n : Nat} {s : State}

/-! ### Lengths and distinctness of the entries -/

/-- Entry `256 + j` extends an entry below it by one symbol, so it has at most `j + 2` symbols (R129, R130). -/
theorem DictOk.length_learned (h : DictOk M d) {j : Nat} {q : List Symbol} (hq : d.learned[j]? = some q) :
    2 ≤ q.length ∧ q.length ≤ j + 2 := by
  induction j using Nat.strong_induction_on generalizing q with
  | _ j ih =>
    obtain ⟨p, m, x, hp, hm, rfl⟩ := h.prefixed j q hq
    rw [Config.literals] at hp
    rw [List.length_append, List.length_singleton]
    rcases Nat.lt_or_ge p 256 with hseed | hlearned
    · rw [lookupCode_of_seed hseed] at hm
      cases hm
      exact ⟨le_rfl, Nat.le_add_left _ _⟩
    · rw [lookupCode_of_learned hlearned] at hm
      have hlen := ih (p - 256) (by omega) hm
      omega

/-- The entries of one symbol are the seeds (R122, R130). -/
theorem DictOk.length_eq_one_iff (h : DictOk M d) {k : Nat} {q : List Symbol} (hk : lookupCode d k = some q) :
    q.length = 1 ↔ k < 256 := by
  rcases Nat.lt_or_ge k 256 with hseed | hlearned
  · rw [lookupCode_of_seed hseed] at hk
    cases hk
    exact iff_of_true rfl hseed
  · rw [lookupCode_of_learned hlearned] at hk
    have hlen := h.length_learned hk
    omega

/-- Where the learned entries are distinct no two codes stand for the same sequence (R128). -/
theorem DictOk.lookupCode_inj (h : DictOk M d) (hnodup : d.learned.Nodup) {k l : Nat} {q : List Symbol}
    (hk : lookupCode d k = some q) (hl : lookupCode d l = some q) : k = l := by
  have hboth : k < 256 ↔ l < 256 := (h.length_eq_one_iff hk).symm.trans (h.length_eq_one_iff hl)
  rcases Nat.lt_or_ge k 256 with hseed | hlearned
  · rw [lookupCode_of_seed hseed] at hk
    rw [lookupCode_of_seed (hboth.1 hseed), ← hk] at hl
    have hvalue := congrArg BitVec.toNat (List.cons.inj (Option.some_inj.1 hl)).1
    rw [BitVec.toNat_ofNat, BitVec.toNat_ofNat] at hvalue
    omega
  · have hlearned' : 256 ≤ l := by omega
    rw [lookupCode_of_learned hlearned] at hk
    rw [lookupCode_of_learned hlearned'] at hl
    have hindex := (List.getElem?_inj (List.getElem?_eq_some_iff.1 hk).1 hnodup).1 (hk.trans hl.symm)
    omega

/-- Settles O47: the invariant's table is prefix-closed, and ENCODE's learned entries are distinct. -/
theorem tableEntriesDistinctAndBounded : Obligations.TableEntriesDistinctAndBounded := by
  unfold Obligations.TableEntriesDistinctAndBounded
  intro s e d hs he hd
  have hok := (hs.running e he).engine
  have htable := hok.table d hd
  refine ⟨fun hop k l q => htable.lookupCode_inj (hok.distinct d hop hd), fun k q hk hq => ?_⟩
  exact htable.length_learned (lookupCode_of_learned hk ▸ hq)

/-! ### A piece of work appends to the table -/

theorem learned_prefix_insert (M : Nat) (d : Dict) (q : List Symbol) :
    d.learned <+: (dictInsert M d q).learned := by
  by_cases hroom : dictCount d < M
  · rw [dictInsert_of_room hroom]
    exact List.prefix_append _ _
  · rw [dictInsert_of_full hroom]

/-- The table of engine `e`, if it has one, is an initial part of that of engine `e'` (R126). -/
def TableExtends (e e' : Engine) : Prop :=
  ∀ d, e.dict = some d → ∃ d', e'.dict = some d' ∧ d.learned <+: d'.learned

theorem TableExtends.of_eq (h : e'.dict = e.dict) : TableExtends e e' :=
  fun d hd => ⟨d, h.trans hd, List.prefix_rfl⟩

theorem TableExtends.trans (h : TableExtends e e') (h' : TableExtends e' e'') : TableExtends e e'' := by
  intro d hd
  obtain ⟨d', hd', hprefix⟩ := h d hd
  obtain ⟨d'', hd'', hprefix'⟩ := h' d' hd'
  exact ⟨d'', hd'', hprefix.trans hprefix'⟩

theorem TableExtends.of_insert (hd : e.dict = some d) (q : List Symbol) (he' : e'.dict = some (dictInsert M d q)) :
    TableExtends e e' := by
  intro d' hd'
  cases hd.symm.trans hd'
  exact ⟨_, he', learned_prefix_insert M d q⟩

theorem MovesTo.tableExtends {b : Nat} (h : MovesTo b e e') : TableExtends e e' := by
  obtain ⟨i, o, -, rfl⟩ := h
  exact .of_eq rfl

theorem EncodeMove.tableExtends {sy : Symbol} (h : EncodeMove c sy e e') : TableExtends e e' := by
  cases h with
  | first | extend => exact .of_eq rfl
  | emit hd => exact .of_insert hd _ rfl

theorem DecodeMove.tableExtends {k : Code} (h : DecodeMove c k e e') : TableExtends e e' := by
  cases h with
  | first => exact .of_eq rfl
  | later hd => exact .of_insert hd _ rfl

theorem tableExtends_encodeLoop (src : List (Option Symbol)) (x y : Work 12) (h : encodeLoop c src x = .ok y) :
    TableExtends x.eng y.eng := by
  induction src generalizing x with
  | nil => cases h; exact .of_eq rfl
  | cons o rest ih =>
    cases o with
    | none => cases h
    | some sy =>
      obtain ⟨z, hz, hrest⟩ := Res.andThen_eq_ok.1 h
      exact (encodeWalk_ok hz).tableExtends.trans (ih z hrest)

theorem tableExtends_decodeLoop (src : List (Option Code)) (x y : Work 8) (h : decodeLoop c src x = .ok y) :
    TableExtends x.eng y.eng := by
  induction src generalizing x with
  | nil => cases h; exact .of_eq rfl
  | cons o rest ih =>
    cases o with
    | none => cases h
    | some k =>
      obtain ⟨z, hz, hrest⟩ := Res.andThen_eq_ok.1 h
      exact (decodeWalk_ok hz).tableExtends.trans (ih z hrest)

/-- The start of ENCODE and DECODE leaves a table that is there alone (R141, R156). -/
theorem tableExtends_codecPart {v a b : Nat} {walk : Walk v w} {m : List (Nat × BitVec v)} {y : Work w}
    (hwalk : ∀ src x y, walk src x = .ok y → TableExtends x.eng y.eng) (h : codecPart a b walk m n e = .ok y) :
    TableExtends e y.eng := by
  obtain ⟨z, hopen, hrest⟩ := Res.andThen_eq_ok.1 h
  have hstart : TableExtends e z.eng := by
    rcases codecOpen_ok hopen with ⟨-, rfl⟩ | ⟨hnone, -⟩
    · exact .of_eq rfl
    · exact fun d hd => nomatch hnone.symm.trans hd
  exact hstart.trans (hwalk _ z y hrest)

theorem tableExtends_packPart {y : Work 8} (h : packPart n s e = .ok y) : TableExtends e y.eng := by
  obtain ⟨z, hopen, hrest⟩ := Res.andThen_eq_ok.1 h
  obtain ⟨rfl, -⟩ := gate_packOpen s.cfg _ z hopen
  exact (movesTo_packLoop (.inl hrest)).tableExtends

theorem tableExtends_unpackPart {y : Work 12} (h : unpackPart n s e = .ok y) : TableExtends e y.eng := by
  obtain ⟨z, hopen, hrest⟩ := Res.andThen_eq_ok.1 h
  obtain ⟨rfl, -⟩ := gate_unpackOpen s.cfg _ z hopen
  exact (movesTo_unpackLoop (.inl hrest)).tableExtends

theorem tableExtends_cwriteHeader {x y : Work 8} (h : cwriteHeader x = .ok y) : TableExtends x.eng y.eng := by
  unfold cwriteHeader at h
  split at h
  · obtain ⟨o, hy⟩ := putAll_reaches (.inl h)
    exact .of_eq (congrArg (·.dict) hy)
  · cases h
    exact .of_eq rfl

theorem tableExtends_cwritePart {y : Work 8} (h : cwritePart n s e = .ok y) : TableExtends e y.eng := by
  rw [cwritePart_eq] at h
  obtain ⟨z, hopen, hrest⟩ := Res.andThen_eq_ok.1 h
  obtain ⟨z', hchecks, hheader⟩ := Res.andThen_eq_ok.1 hopen
  obtain ⟨rfl, -⟩ := gate_cwriteChecks s.cfg _ z' hchecks
  exact (tableExtends_cwriteHeader hheader).trans (movesTo_packLoop (.inl hrest)).tableExtends

theorem tableExtends_creadPart {y : Work 12} (h : creadPart n s e = .ok y) : TableExtends e y.eng := by
  rw [creadPart_eq_checks] at h
  obtain ⟨z, hopen, hrest⟩ := Res.andThen_eq_ok.1 h
  obtain ⟨z', hchecks, hwords⟩ := Res.andThen_eq_ok.1 hopen
  obtain ⟨rfl, -⟩ := gate_creadChecks s.cfg _ z' hchecks
  obtain ⟨hd, rfl, -⟩ := creadWords_ok hwords
  exact (movesTo_creadLoop (.inl hrest)).tableExtends

/-- Engine `e'` works on the command of engine `e`, with its table or an extension of it (R104, R126). -/
structure WorksOn (e e' : Engine) : Prop where
  op    : e'.op = e.op
  snap  : e'.snap = e.snap
  table : TableExtends e e'

/-- A piece of work leaves the engine it has come to, or the one before where it would end the command. -/
theorem worksOn_workOn {store : Store w} {r : Res (Work w)} (he : s.engine = some e)
    (hgrow : ∀ x, Reaches r x → Grows (Work.start w e) x) (htable : ∀ x, r = .ok x → TableExtends e x.eng) :
    ∃ e', (s.workOn store e r).engine = some e' ∧ WorksOn e e' := by
  cases r with
  | ok x => exact ⟨x.eng, rfl, (hgrow x (.inl rfl)).op, (hgrow x (.inl rfl)).snap, htable x rfl⟩
  | err | fault => exact ⟨e, he, rfl, rfl, .of_eq rfl⟩

theorem worksOn_advanceEngine (he : s.engine = some e) :
    ∃ e', (advanceEngine s).engine = some e' ∧ WorksOn e e' := by
  simp only [advanceEngine, he]
  cases e.op with
  | encode =>
    exact worksOn_workOn he (grows_encodePart 1 s e) fun _ => tableExtends_codecPart tableExtends_encodeLoop
  | decode =>
    exact worksOn_workOn he (grows_decodePart 1 s e) fun _ => tableExtends_codecPart tableExtends_decodeLoop
  | pack => exact worksOn_workOn he (grows_packPart 2 s e) fun _ => tableExtends_packPart
  | unpack => exact worksOn_workOn he (grows_unpackPart 3 s e) fun _ => tableExtends_unpackPart
  | cwrite => exact worksOn_workOn he (grows_cwritePart 2 s e) fun _ => tableExtends_cwritePart
  | cread => exact worksOn_workOn he (grows_creadPart 3 s e) fun _ => tableExtends_creadPart

/-- Settles O48: every piece of a command's work extends the table or leaves it alone. -/
theorem tableOnlyAppends : Obligations.TableOnlyAppends := by
  unfold Obligations.TableOnlyAppends
  intro s e d he hd
  obtain ⟨e', he', hwork⟩ := worksOn_advanceEngine he
  obtain ⟨d', hd', hprefix⟩ := hwork.table d hd
  exact ⟨e', d', he', hd', hprefix, hwork.op, hwork.snap⟩

end Sys2Proof.Machine
end

section
/-! The tables of ENCODE and DECODE side by side: DECODE's insert makes up for the entry it is behind (R135). -/

namespace Sys2Proof.Machine

/-- ENCODE, which has emitted some codes and works on its current match, and DECODE, which has translated these codes:
DECODE's table lacks the entry ENCODE learned last, the previous translation and the current match's head (R135). Before
the first code both tables are the seeded one. -/
structure Mirrors (M : Nat) (e e' : Engine) (d d' : Dict) : Prop where
  encoder : e.dict = some d
  decoder : e'.dict = some d'
  bounded : dictCount d ≤ M
  started : e'.prev = none → d' = d
  pending : ∀ p, e'.prev = some p → ∃ m k a t, lookupCode d' p.toNat = some m ∧ e.cur = some k ∧
    lookupCode d k.toNat = some (a :: t) ∧ d = dictInsert M d' (m ++ [a])

variable {c c' : Config} {M : Nat} {d d' : Dict} {e e' : Engine} {cs : List Code}

/-- DECODE's translation of a code begins as the entry it has after the insert, also where the code is the one that the
insert is about to assign (R158 to R160). -/
theorem head_eq_of_translate {m t t' : List Symbol} {a b : Symbol} {k : Nat}
    (hk : lookupCode (dictInsert M d (m ++ [a])) k = some (a :: t)) (ht : translate M d m k = some (b :: t')) :
    b = a := by
  unfold translate at ht
  split at ht
  · cases hk.symm.trans (lookupCode_insert_of_some ht M (m ++ [a]))
    rfl
  · split at ht
    · rename_i hnext
      obtain ⟨rfl, hroom⟩ := hnext
      have hentry := Option.some_inj.1 (hk.symm.trans (lookupCode_insert_self hroom _))
      cases m with
      | nil => cases ht
      | cons x m =>
        cases ht
        exact (List.cons.inj hentry).1.symm
    · cases ht

/-- DECODE's move on the code of ENCODE's current match brings its table up to ENCODE's (R135). -/
theorem Mirrors.decodeMove {k : Code} {e₂ : Engine} (h : Mirrors c.maxEntries e e' d d')
    (hcur : e.cur = some k) (hmove : DecodeMove c k e' e₂) : e₂.dict = some d ∧ e₂.prev = some k := by
  cases hmove with
  | first hd hprev => exact ⟨h.started hprev ▸ h.decoder, rfl⟩
  | later hd hprev hm ht =>
    obtain ⟨m, k', a, t, hm', hcur', hk, hins⟩ := h.pending _ hprev
    cases h.decoder.symm.trans hd
    cases hm'.symm.trans hm
    cases hcur'.symm.trans hcur
    subst hins
    rw [head_eq_of_translate hk ht]
    exact ⟨rfl, rfl⟩

/-- A symbol makes ENCODE emit nothing or the code of its current match (R142). -/
theorem encodeWalk_out {sy : Symbol} {x y : Work 12} (h : encodeWalk c sy x = .ok y) :
    y.out = x.out ++ if y.eng.o = x.eng.o then [] else x.eng.cur.toList := by
  unfold encodeWalk at h
  split at h
  · cases h
  · cases h
    simp
  · rename_i k _ hcur
    split at h
    · cases h
    · split at h
      · cases h
        simp
      · obtain ⟨z, hput, hz⟩ := Res.andThen_eq_ok.1 h
        obtain ⟨-, rfl⟩ := put_eq_ok.1 hput
        cases hz
        simp [hcur]

/-- The end of ENCODE emits the code of its current match and leaves the table alone (R143). -/
theorem encodeClose_ok {x y : Work 12} (h : encodeClose x = .ok y) :
    ∃ k, x.eng.cur = some k ∧ y.out = x.out ++ [k] ∧ y.eng.dict = x.eng.dict := by
  unfold encodeClose at h
  split at h
  · cases h
  · rename_i k hcur
    obtain ⟨-, rfl⟩ := put_eq_ok.1 h
    exact ⟨k, hcur, rfl, rfl⟩

theorem decodeLoop_singleton {k : Code} {x y : Work 8} (h : decodeLoop c [some k] x = .ok y) :
    DecodeMove c k x.eng y.eng := by
  obtain ⟨z, hz, hend⟩ := Res.andThen_eq_ok.1 h
  cases hend
  exact decodeWalk_ok hz

/-- ENCODE over one symbol and DECODE over the code it emits, if it emits one. -/
theorem Mirrors.walk {sy : Symbol} {x y : Work 12} {z z' : Work 8} (hM : c.maxEntries ≤ 4096)
    (hc : c'.maxEntries = c.maxEntries) (h : Mirrors c.maxEntries x.eng z.eng d d') (hwalk : encodeWalk c sy x = .ok y)
    (hcs : y.out = x.out ++ cs) (hdec : decodeLoop c' (cs.map some) z = .ok z') :
    ∃ d d', Mirrors c.maxEntries y.eng z'.eng d d' := by
  have hmove := encodeWalk_ok hwalk
  have hemit := List.append_cancel_left (hcs.symm.trans (encodeWalk_out hwalk))
  generalize y.eng = e₂ at hmove hemit ⊢
  cases hmove with
  | first hd hcur =>
    rw [if_pos rfl] at hemit
    subst hemit
    cases hdec
    refine ⟨d, d', h.encoder, h.decoder, h.bounded, h.started, fun p hp => ?_⟩
    obtain ⟨m, k, a, t, -, hcur', -⟩ := h.pending p hp
    cases hcur.symm.trans hcur'
  | @extend d₂ k m k' hd hcur hm hk' =>
    rw [if_pos rfl] at hemit
    subst hemit
    cases hdec
    refine ⟨d, d', h.encoder, h.decoder, h.bounded, h.started, fun p hp => ?_⟩
    obtain ⟨m', k₂, a, t, hm', hcur', hk, hins⟩ := h.pending p hp
    cases hcur.symm.trans hcur'
    cases h.encoder.symm.trans hd
    cases hm.symm.trans hk
    have hlt : k' < 4096 := (lookupSeq_lt hk').trans_le (h.bounded.trans hM)
    refine ⟨m', _, a, t ++ [sy], hm', rfl, ?_, hins⟩
    rw [BitVec.toNat_ofNat, Nat.mod_eq_of_lt hlt]
    exact lookupCode_of_lookupSeq hk'
  | @emit d₂ k m hd hcur hm hnew hroom =>
    rw [if_neg (Nat.succ_ne_self _), hcur] at hemit
    subst hemit
    cases h.encoder.symm.trans hd
    obtain ⟨hdict, hprev⟩ := (hc ▸ h).decodeMove hcur (decodeLoop_singleton hdec)
    refine ⟨_, d, rfl, hdict, dictCount_insert_le h.bounded _, fun hp => ?_, fun p hp => ?_⟩
    · cases hprev.symm.trans hp
    · cases hprev.symm.trans hp
      exact ⟨m, _, sy, [], hm, rfl, lookupCode_symbol _ sy, rfl⟩

/-- ENCODE over source symbols and DECODE over the codes it emits for them. -/
theorem Mirrors.loop {src : List (Option Symbol)} {x y : Work 12} {z z' : Work 8} (hM : c.maxEntries ≤ 4096)
    (hc : c'.maxEntries = c.maxEntries) (h : Mirrors c.maxEntries x.eng z.eng d d')
    (hloop : encodeLoop c src x = .ok y) (hcs : y.out = x.out ++ cs)
    (hdec : decodeLoop c' (cs.map some) z = .ok z') : ∃ d d', Mirrors c.maxEntries y.eng z'.eng d d' := by
  induction src generalizing x z cs d d' with
  | nil =>
    cases hloop
    obtain rfl : cs = [] := List.self_eq_append_right.1 hcs
    cases hdec
    exact ⟨d, d', h⟩
  | cons o rest ih =>
    cases o with
    | none => cases hloop
    | some sy =>
      obtain ⟨x₁, hwalk, hrest⟩ := Res.andThen_eq_ok.1 hloop
      obtain ⟨-, -, l, hl, -⟩ := grows_encodeWalk c sy x x₁ (.inl hwalk)
      obtain ⟨-, -, l', hl', -⟩ := grows_encodeLoop c rest x₁ y (.inl hrest)
      obtain rfl : cs = l ++ l' := by
        rw [hl', hl, List.append_assoc] at hcs
        exact (List.append_cancel_left hcs).symm
      rw [List.map_append, decodeLoop_append] at hdec
      obtain ⟨z₁, hdec₁, hdec₂⟩ := Res.andThen_eq_ok.1 hdec
      obtain ⟨d₁, d₁', h₁⟩ := h.walk hM hc hwalk hl hdec₁
      exact ih h₁ hrest hl' hdec₂

/-- ENCODE or DECODE that has gone on from its start has walked over its source region with the seeded table. -/
theorem codecPart_fresh_ok {v w a b : Nat} {walk : Walk v w} {m : List (Nat × BitVec v)} {op : Instr} {sn : Snapshot}
    {y : Work w} (h : codecPart a b walk m sn.sl.toNat (Engine.fresh op sn) = .ok y) :
    walk (ramRange m sn.sb.toNat sn.sl.toNat) (Work.start w { Engine.fresh op sn with dict := some dictInit }) =
      .ok y := by
  obtain ⟨z, hopen, hwalk⟩ := Res.andThen_eq_ok.1 h
  rcases codecOpen_ok hopen with ⟨hbegun, -⟩ | ⟨-, -, -, -, rfl⟩
  · cases hbegun
  · have hrange : min sn.sl.toNat (sn.sl.toNat - 0) = sn.sl.toNat := Nat.min_self _
    rw [← hwalk]
    show _ = walk (ramRange m (sn.sb.toNat + 0) (min sn.sl.toNat (sn.sl.toNat - 0))) _
    rw [hrange]
    rfl

/-- Settles O45: up to ENCODE's final emission the tables are one insert apart, and DECODE's move on the last code makes
that insert. -/
theorem mirroredTables : Obligations.MirroredTables := by
  unfold Obligations.MirroredTables
  intro s u sn sn' x y hs _ hcap henc hlen hcodes hdec
  obtain ⟨x₁, hpart, hclose⟩ := Res.andThen_eq_ok.1 henc
  obtain ⟨k, hcur, hout, hdict⟩ := encodeClose_ok hclose
  have hloop := codecPart_fresh_ok hpart
  have hwalk := codecPart_fresh_ok hdec
  rw [← hlen, hcodes, hout, List.map_append, decodeLoop_append] at hwalk
  obtain ⟨y₁, hbefore, hlast⟩ := Res.andThen_eq_ok.1 hwalk
  have hseeded : Mirrors s.cfg.maxEntries { Engine.fresh .encode sn with dict := some dictInit }
      { Engine.fresh .decode sn' with dict := some dictInit } dictInit dictInit :=
    ⟨rfl, rfl, hs.cap.1, fun _ => rfl, fun _ hp => by cases hp⟩
  obtain ⟨d, d', h⟩ := hseeded.loop hs.cap.2 hcap.symm hloop rfl hbefore
  rw [hcap] at h
  obtain ⟨hmirrored, -⟩ := h.decodeMove hcur (decodeLoop_singleton hlast)
  rw [hdict, h.encoder, hmirrored]

end Sys2Proof.Machine
end

section
/-! A command issued in an idle state (log entry 9), and ENCODE and DECODE of nothing (R145, R163). -/

namespace Sys2Proof.Machine

open Sys2Proof.Reference

variable {w : Nat} {s : State} {op : Instr} {sn : Snapshot}

/-! ### Issuing a command first -/

theorem State.issued_engine (op : Instr) (s : State) : (s.issued op).engine = some (s.engineFor op) := by
  cases he : s.engine with
  | none => rw [State.issued_of_idle op he, State.engineFor_of_none op he]
  | some e => rw [State.issued_of_busy op ((State.busy_iff s).2 ⟨e, he⟩), he, State.engineFor_of_some op he]

theorem Inv.issued (h : Inv s) (op : Instr) : Inv (s.issued op) := by
  cases he : s.engine with
  | none =>
    rw [State.issued, if_neg (by simp [(State.busy_false_iff s).2 he])]
    exact inv_writeCmd h he _
  | some e => rwa [State.issued_of_busy op ((State.busy_iff s).2 ⟨e, he⟩)]

theorem runCommand_issued (op : Instr) (store : Store w) (body : State → Engine → Res (Work w)) (s : State) :
    runCommand op store body (s.issued op) = runCommand op store body s := by
  have he := s.issued_engine op
  rw [runCommand, State.issued_of_busy op ((State.busy_iff _).2 ⟨_, he⟩), State.engineFor_of_some op he, runCommand]

/-- A command that can start, and whose body ends with error `E` at once. -/
theorem endsUntouched_of_starts {store : Store w} {body : State → Engine → Res (Work w)} {E : ErrCode} (hs : Inv s)
    (hstarts : Starts op s sn) (hstore : ∀ a s, store a [] s = s)
    (hbody : body (s.issued op) (Engine.fresh op sn) = .err E 0 (Work.start w (Engine.fresh op sn))) :
    ∃ t, runCommand op store body s = .next t ∧ EndsUntouched op E s t := by
  have he : (s.issued op).engine = some (Engine.fresh op sn) := (s.issued_engine op).trans (congrArg some hstarts)
  obtain ⟨t, ht, hend⟩ := endsUntouched_of_body (hs.issued op) he hstore hbody
  obtain ⟨-, hsym, hcode, hstream, -, -, -, -, hrow, hsize, hhdr, -⟩ := State.issued_kept op s
  rw [EndsUntouched, hsym, hcode, hstream, hrow, hsize, hhdr] at hend
  exact ⟨t, runCommand_issued op store body s ▸ ht, hend⟩

/-! ### No source element -/

/-- The start of ENCODE or DECODE of nothing, regions in range (R141, R156). -/
theorem codecOpen_of_empty {c : Config} (hfit : Fits c op sn) (hempty : sn.sl.toNat = 0) :
    codecOpen (ramDepth c (sourceRam op)) (ramDepth c (destRam op)) (Work.start w (Engine.fresh op sn)) =
      .err .emptyInput 0 (Work.start w (Engine.fresh op sn)) := by
  have hchecks : checkRegions (ramDepth c (sourceRam op)) (ramDepth c (destRam op))
      (Work.start w (Engine.fresh op sn)) = .ok _ := checkRegions_of_fits hfit
  rw [codecOpen, if_neg (by simp [Engine.fresh]), hchecks]
  exact if_pos hempty

theorem encodeBody_of_empty (hfit : Fits s.cfg .encode sn) (hempty : sn.sl.toNat = 0) :
    encodeBody s (Engine.fresh .encode sn) = .err .emptyInput 0 (Work.start 12 (Engine.fresh .encode sn)) := by
  rw [encodeBody, encodePart_eq, codecPart, Res.andThen_assoc]
  exact congrArg (Res.andThen · _) (codecOpen_of_empty hfit hempty)

theorem decodeBody_of_empty (hfit : Fits s.cfg .decode sn) (hempty : sn.sl.toNat = 0) :
    decodeBody s (Engine.fresh .decode sn) = .err .emptyInput 0 (Work.start 8 (Engine.fresh .decode sn)) := by
  rw [decodeBody, decodePart_eq, codecPart]
  exact congrArg (Res.andThen · _) (codecOpen_of_empty hfit hempty)

/-- Settles O32: the start of either command ends it before it has seeded its table. -/
theorem emptyInputEndsCodecCommands : Obligations.EmptyInputEndsCodecCommands := by
  unfold Obligations.EmptyInputEndsCodecCommands
  intro s op sn hs hop hstarts hfit hlen
  have hempty : sn.sl.toNat = 0 := congrArg BitVec.toNat hlen
  have hfit : Fits (s.issued op).cfg op sn := (State.issued_kept op s).1.symm ▸ hfit
  have hend : ∃ t, exec op s = .next t ∧ EndsUntouched op .emptyInput s t := by
    rcases hop with rfl | rfl
    · exact endsUntouched_of_starts hs hstarts (fun _ _ => rfl) (encodeBody_of_empty hfit hempty)
    · exact endsUntouched_of_starts hs hstarts (fun _ _ => rfl) (decodeBody_of_empty hfit hempty)
  obtain ⟨t, ht, hend, hsize, -, -, hrams⟩ := hend
  rw [if_pos (usesDictionary_iff.2 hop)] at hsize
  exact ⟨t, ht, hend, hsize, hrams⟩

end Sys2Proof.Machine
end

section
/-! The codes of the sequences a table knows (R124, R129), as the reference names them (`Reference.codeOf`). -/

namespace Sys2Proof.Machine

open Sys2Proof.Reference

variable {M k : Nat} {d : Dict} {t : List Symbol}

/-- What a code stands for is one symbol or a learned entry (R120). -/
theorem known_of_lookupCode (h : lookupCode d k = some t) : t.length = 1 ∨ t ∈ d.learned := by
  rcases Nat.lt_or_ge k 256 with hseed | hlearned
  · rw [lookupCode_of_seed hseed] at h
    cases h
    exact .inl rfl
  · rw [lookupCode_of_learned hlearned] at h
    exact .inr (List.mem_of_getElem? h)

theorem DictOk.length_of_mem (h : DictOk M d) (ht : t ∈ d.learned) : 2 ≤ t.length := by
  obtain ⟨j, hj⟩ := List.mem_iff_getElem?.1 ht
  exact (h.length_learned hj).1

/-- With an entry the table holds every beginning of it that is longer than one symbol (R129). -/
theorem DictOk.mem_of_append (h : DictOk M d) (ht : 2 ≤ t.length) {r : List Symbol} (hr : t ++ r ∈ d.learned) :
    t ∈ d.learned := by
  induction r using List.reverseRecOn with
  | nil => simpa using hr
  | append_singleton r z ih =>
    rw [← List.append_assoc] at hr
    obtain ⟨j, hj⟩ := List.mem_iff_getElem?.1 hr
    obtain ⟨p, m, x, -, hm, hsplit⟩ := h.prefixed j _ hj
    obtain ⟨rfl, -⟩ := List.append_inj' hsplit rfl
    rcases known_of_lookupCode hm with hone | hmem
    · rw [List.length_append] at hone
      omega
    · exact ih hmem

theorem seqIndex_of_mem {l : List (List Symbol)} (h : t ∈ l) : seqIndex l t = some (l.idxOf t) := by
  induction l with
  | nil => cases h
  | cons q rest ih =>
    rw [seqIndex]
    split
    · rename_i heq
      rw [List.idxOf_cons_eq rest heq]
    · rename_i hne
      rw [ih ((List.mem_cons.1 h).resolve_left (Ne.symm hne)), List.idxOf_cons_ne rest hne]
      rfl

theorem codeOf_singleton (l : List (List Symbol)) (x : Symbol) : codeOf l [x] = x.setWidth 12 :=
  BitVec.ofNat_toNat 12 x

/-- The model and the reference give a learned entry the same code (R124). -/
theorem DictOk.lookupSeq_of_mem (h : DictOk M d) (ht : t ∈ d.learned) :
    ∃ k, lookupSeq d t = some k ∧ codeOf d.learned t = BitVec.ofNat 12 k := by
  have hlen := h.length_of_mem ht
  have hindex := congrArg (Option.map (· + Config.literals)) (seqIndex_of_mem ht)
  match t, hlen with
  | _ :: _ :: _, _ => exact ⟨_, hindex, congrArg (BitVec.ofNat 12) (Nat.add_comm 256 _)⟩

/-- The code of a learned entry stands for it. -/
theorem DictOk.lookupCode_codeOf (h : DictOk M d) (hM : M ≤ 4096) (ht : t ∈ d.learned) :
    lookupCode d (codeOf d.learned t).toNat = some t := by
  obtain ⟨k, hk, hcode⟩ := h.lookupSeq_of_mem ht
  have hlt : k < 4096 := (lookupSeq_lt hk).trans_le (h.bounded.trans hM)
  rw [hcode, BitVec.toNat_ofNat, Nat.mod_eq_of_lt hlt]
  exact lookupCode_of_lookupSeq hk

end Sys2Proof.Machine
end

section
/-! The reference (`Reference.greedy`) symbol by symbol: its matches are those of a parse that extends
the current match while the table knows the longer one (R133, R141 to R143). -/

namespace Sys2Proof.Reference

open Sys2Proof.Machine

variable {M : Nat}

/-! ### One match of the reference -/

/-- The reference's choice is the known beginning of the rest that no longer known one exceeds. -/
theorem longestPrefix_eq {l : List (List Symbol)} {rest : List Symbol} {k n : Nat} (hk : 1 ≤ k) (hkn : k ≤ n)
    (hknown : k = 1 ∨ rest.take k ∈ l) (hmax : ∀ j, k < j → j ≤ n → rest.take j ∉ l) :
    longestPrefix l rest n = k := by
  induction n with
  | zero => omega
  | succ n ih =>
    cases n with
    | zero =>
      obtain rfl : k = 1 := by omega
      rfl
    | succ n =>
      rw [longestPrefix]
      rcases Nat.eq_or_lt_of_le hkn with rfl | hlt
      · exact if_pos (hknown.resolve_left (by omega))
      · rw [if_neg (hmax _ hlt le_rfl), ih (by omega) fun j hj hjn => hmax j hj (by omega)]

variable {l : List (List Symbol)} {m : List Symbol}

/-- The last match of an input is all that is left of it. -/
theorem greedyFrom_last (fuel : Nat) (hm : m ≠ []) (hlong : longestPrefix l m m.length = m.length) :
    greedyFrom M (fuel + 1) l m = [(m, codeOf l m)] := by
  obtain ⟨x, xs, rfl⟩ := List.exists_cons_of_ne_nil hm
  rw [greedyFrom, hlong, List.take_length, List.drop_length]
  cases fuel <;> rfl

/-- A match and the symbol behind it: the table learns both together (R142). -/
theorem greedyFrom_cons (fuel : Nat) {d : Dict} {y : Symbol} {ys : List Symbol} (hm : m ≠ [])
    (hlong : longestPrefix d.learned (m ++ y :: ys) (m ++ y :: ys).length = m.length) :
    greedyFrom M (fuel + 1) d.learned (m ++ y :: ys) =
      (m, codeOf d.learned m) :: greedyFrom M fuel (dictInsert M d (m ++ [y])).learned (y :: ys) := by
  have hlearn : (dictInsert M d (m ++ [y])).learned =
      if 256 + d.learned.length < M then d.learned ++ [m ++ [y]] else d.learned := by
    rw [dictInsert, apply_ite Dict.learned]
    rfl
  obtain ⟨x, xs, rfl⟩ := List.exists_cons_of_ne_nil hm
  rw [List.cons_append] at hlong ⊢
  rw [greedyFrom, hlong, ← List.cons_append, List.take_left, List.drop_left, hlearn]

/-! ### The parse -/

/-- The reference within an input: the matches it has emitted, with their codes, the table it has built,
and the current match. -/
structure Parse where
  emitted : List (List Symbol × Code)
  table   : Dict
  cur     : List Symbol

/-- The current match, with its code, as it will be emitted. -/
def Parse.pending (p : Parse) : List Symbol × Code := (p.cur, codeOf p.table.learned p.cur)

/-- All matches where the input ends here. -/
def Parse.emissions (p : Parse) : List (List Symbol × Code) := p.emitted ++ [p.pending]

/-- The symbols read so far. -/
def Parse.text (p : Parse) : List Symbol := (p.emissions.map (·.1)).flatten

/-- The parse of the first symbol (R141). -/
def Parse.start (x : Symbol) : Parse := { emitted := [], table := dictInit, cur := [x] }

/-- One further symbol: a longer match the table knows, or an emission and a new match (R142). -/
def Parse.next (M : Nat) (p : Parse) (y : Symbol) : Parse :=
  if p.cur ++ [y] ∈ p.table.learned then { p with cur := p.cur ++ [y] }
  else { emitted := p.emissions, table := dictInsert M p.table (p.cur ++ [y]), cur := [y] }

/-- The parse of further symbols. -/
def Parse.run (M : Nat) (p : Parse) (ys : List Symbol) : Parse := ys.foldl (Parse.next M) p

variable {p : Parse} {y : Symbol}

theorem Parse.next_of_known (h : p.cur ++ [y] ∈ p.table.learned) : p.next M y = { p with cur := p.cur ++ [y] } :=
  if_pos h

theorem Parse.next_of_new (h : p.cur ++ [y] ∉ p.table.learned) :
    p.next M y = { emitted := p.emissions, table := dictInsert M p.table (p.cur ++ [y]), cur := [y] } := if_neg h

@[simp] theorem Parse.run_nil (M : Nat) (p : Parse) : p.run M [] = p := rfl

@[simp] theorem Parse.run_cons (M : Nat) (p : Parse) (y : Symbol) (ys : List Symbol) :
    p.run M (y :: ys) = (p.next M y).run M ys := rfl

theorem Parse.text_eq (p : Parse) : p.text = (p.emitted.map (·.1)).flatten ++ p.cur := by
  simp [Parse.text, Parse.emissions, Parse.pending]

/-- The matches cover the symbols read, each once (R133). -/
theorem Parse.text_next (M : Nat) (p : Parse) (y : Symbol) : (p.next M y).text = p.text ++ [y] := by
  by_cases h : p.cur ++ [y] ∈ p.table.learned
  · rw [Parse.next_of_known h, Parse.text_eq, Parse.text_eq, List.append_assoc]
  · rw [Parse.next_of_new h, Parse.text_eq]
    rfl

theorem Parse.text_run (M : Nat) (p : Parse) (ys : List Symbol) : (p.run M ys).text = p.text ++ ys := by
  induction ys generalizing p with
  | nil => simp
  | cons y ys ih => rw [Parse.run_cons, ih, Parse.text_next, List.append_assoc, List.singleton_append]

theorem Parse.emitted_prefix_next (M : Nat) (p : Parse) (y : Symbol) : p.emitted <+: (p.next M y).emitted := by
  by_cases h : p.cur ++ [y] ∈ p.table.learned
  · rw [Parse.next_of_known h]
  · rw [Parse.next_of_new h]
    exact List.prefix_append _ _

/-- What has been emitted stays. -/
theorem Parse.emitted_prefix_run (M : Nat) (p : Parse) (ys : List Symbol) : p.emitted <+: (p.run M ys).emitted := by
  induction ys generalizing p with
  | nil => exact List.prefix_rfl
  | cons y ys ih => exact (p.emitted_prefix_next M y).trans (ih _)

/-- What holds of a parse at every symbol: a table closed under beginnings, with one learned entry per emission up to
the cap, in which every code stands for its match (R126, R129, R133, R136). -/
structure Parse.Ok (M : Nat) (p : Parse) : Prop where
  table : DictOk M p.table
  codes : ∀ q ∈ p.emissions, lookupCode p.table q.2.toNat = some q.1
  size  : dictCount p.table = min M (256 + p.emitted.length)

theorem Parse.mem_emissions {p : Parse} {q : List Symbol × Code} :
    q ∈ p.emissions ↔ q ∈ p.emitted ∨ q = p.pending := by
  simp [Parse.emissions]

theorem Parse.pending_mem (p : Parse) : p.pending ∈ p.emissions := Parse.mem_emissions.2 (.inr rfl)

theorem Parse.length_emissions (p : Parse) : p.emissions.length = p.emitted.length + 1 := by simp [Parse.emissions]

theorem Parse.Ok.start (hM : 256 ≤ M) (x : Symbol) : (Parse.start x).Ok M where
  table := dictOk_init hM
  codes q hq := by
    obtain rfl : q = ([x], codeOf [] [x]) := List.mem_singleton.1 hq
    rw [codeOf_singleton]
    exact lookupCode_symbol _ x
  size := (Nat.min_eq_right hM).symm

theorem Parse.Ok.next (h : p.Ok M) (hM : M ≤ 4096) (y : Symbol) : (p.next M y).Ok M := by
  by_cases hknown : p.cur ++ [y] ∈ p.table.learned
  · rw [Parse.next_of_known hknown]
    refine ⟨h.table, fun q hq => ?_, h.size⟩
    rcases Parse.mem_emissions.1 hq with hq | rfl
    · exact h.codes q (Parse.mem_emissions.2 (.inl hq))
    · exact h.table.lookupCode_codeOf hM hknown
  · rw [Parse.next_of_new hknown]
    refine ⟨h.table.insert (h.codes _ p.pending_mem) y, fun q hq => ?_, ?_⟩
    · rcases Parse.mem_emissions.1 hq with hq | rfl
      · exact lookupCode_insert_of_some (h.codes q hq) _ _
      · rw [Parse.pending, codeOf_singleton]
        exact lookupCode_symbol _ y
    · have hsize := h.size
      show dictCount (dictInsert M p.table (p.cur ++ [y])) = min M (256 + p.emissions.length)
      rw [Parse.length_emissions]
      by_cases hroom : dictCount p.table < M
      · rw [dictInsert_of_room hroom, dictCount_append]
        omega
      · rw [dictInsert_of_full hroom]
        omega

theorem Parse.Ok.run (h : p.Ok M) (hM : M ≤ 4096) (ys : List Symbol) : (p.run M ys).Ok M := by
  induction ys generalizing p with
  | nil => exact h
  | cons y ys ih => exact ih (h.next hM y)

theorem Parse.Ok.cur_ne_nil (h : p.Ok M) : p.cur ≠ [] := by
  intro hnil
  have hcode := h.codes _ p.pending_mem
  rw [Parse.pending, hnil] at hcode
  exact h.table.lookupCode_ne_nil hcode

/-- The model's lookup finds no code where the parse emits (R124, R142). -/
theorem Parse.Ok.lookupSeq_next (h : p.Ok M) (hnew : p.cur ++ [y] ∉ p.table.learned) :
    lookupSeq p.table (p.cur ++ [y]) = none := by
  by_contra hsome
  obtain ⟨k, hk⟩ := Option.ne_none_iff_exists'.1 hsome
  have hpos := List.length_pos_iff.2 h.cur_ne_nil
  have hknown := known_of_lookupCode (lookupCode_of_lookupSeq hk)
  rw [List.length_append, List.length_singleton] at hknown
  exact hnew (hknown.resolve_left (by omega))

/-! ### The reference is the parse -/

/-- Where the table does not know the current match with the next symbol, no longer beginning of the rest is known. -/
theorem Parse.Ok.longestPrefix_cur (h : p.Ok M) {r : List Symbol}
    (hnew : ∀ y ys, r = y :: ys → p.cur ++ [y] ∉ p.table.learned) :
    longestPrefix p.table.learned (p.cur ++ r) (p.cur ++ r).length = p.cur.length := by
  have hpos := List.length_pos_iff.2 h.cur_ne_nil
  refine longestPrefix_eq hpos (by simp) ?_ fun j hj hjn hmem => ?_
  · rw [List.take_left]
    exact known_of_lookupCode (h.codes _ p.pending_mem)
  · rw [List.length_append] at hjn
    cases r with
    | nil => rw [List.length_nil] at hjn; omega
    | cons y ys =>
      obtain ⟨i, rfl⟩ := Nat.exists_eq_add_of_lt hj
      rw [Nat.add_assoc, List.take_length_add_append, List.take_succ_cons, List.append_cons] at hmem
      refine hnew y ys rfl (h.table.mem_of_append ?_ hmem)
      rw [List.length_append, List.length_singleton]
      omega

/-- The parse emits what the reference goes on with from the current match. -/
theorem Parse.Ok.emissions_run (h : p.Ok M) (hM : M ≤ 4096) {fuel : Nat} {ys : List Symbol}
    (hfuel : (p.cur ++ ys).length ≤ fuel) :
    (p.run M ys).emissions = p.emitted ++ greedyFrom M fuel p.table.learned (p.cur ++ ys) := by
  have hcur := h.cur_ne_nil
  have hpos := List.length_pos_iff.2 hcur
  induction ys generalizing p fuel with
  | nil =>
    have hlong := h.longestPrefix_cur (r := []) nofun
    rw [List.append_nil] at hfuel hlong ⊢
    obtain ⟨f, rfl⟩ := Nat.exists_eq_add_of_le' (hpos.trans_le hfuel)
    rw [greedyFrom_last f hcur hlong]
    rfl
  | cons y ys ih =>
    have hnext := h.next hM y
    have hnext' := hnext.cur_ne_nil
    rw [Parse.run_cons]
    by_cases hknown : p.cur ++ [y] ∈ p.table.learned
    · rw [Parse.next_of_known hknown] at hnext hnext' ⊢
      rw [List.append_cons p.cur y ys] at hfuel ⊢
      exact ih hnext hfuel hnext' (List.length_pos_iff.2 hnext')
    · rw [List.length_append, List.length_cons] at hfuel
      obtain ⟨f, rfl⟩ := Nat.exists_eq_add_of_le' (show 1 ≤ fuel by omega)
      have hlong : longestPrefix p.table.learned (p.cur ++ y :: ys) (p.cur ++ y :: ys).length = p.cur.length :=
        h.longestPrefix_cur fun _ _ hr => (List.cons.inj hr).1 ▸ hknown
      rw [greedyFrom_cons f hcur hlong]
      rw [Parse.next_of_new hknown] at hnext hnext' ⊢
      rw [ih hnext (fuel := f) (by simp only [List.singleton_append, List.length_cons]; omega) hnext' Nat.one_pos,
        Parse.emissions, List.append_assoc]
      rfl

/-- The parse of an input with first symbol `x`. -/
def parseOf (M : Nat) (x : Symbol) (xs : List Symbol) : Parse := (Parse.start x).run M xs

theorem parseOf_ok (hM : 256 ≤ M ∧ M ≤ 4096) (x : Symbol) (xs : List Symbol) : (parseOf M x xs).Ok M :=
  (Parse.Ok.start hM.1 x).run hM.2 xs

/-- The parse covers the input (R133). -/
theorem text_parseOf (M : Nat) (x : Symbol) (xs : List Symbol) : (parseOf M x xs).text = x :: xs := by
  rw [parseOf, Parse.text_run]
  rfl

/-- The reference's matches of an input are those of its parse. -/
theorem greedy_cons (hM : 256 ≤ M ∧ M ≤ 4096) (x : Symbol) (xs : List Symbol) :
    greedy M (x :: xs) = (parseOf M x xs).emissions :=
  ((Parse.Ok.start hM.1 x).emissions_run hM.2 le_rfl).symm

theorem greedyCodes_cons (hM : 256 ≤ M ∧ M ≤ 4096) (x : Symbol) (xs : List Symbol) :
    greedyCodes M (x :: xs) = (parseOf M x xs).emissions.map (·.2) := by rw [greedyCodes, greedy_cons hM]

/-- The first matches of the reference, as many as a parse has, cover the symbols of that parse if they are its own. -/
theorem coveredBy_of_prefix (hM : 256 ≤ M ∧ M ≤ 4096) {x : Symbol} {xs : List Symbol} {q : Parse}
    (hq : q.emissions <+: (parseOf M x xs).emissions) :
    coveredBy M (x :: xs) q.emissions.length = q.text.length := by
  rw [coveredBy, greedy_cons hM, ← List.prefix_iff_eq_take.1 hq, Parse.text, List.length_flatten, List.map_map]
  rfl

end Sys2Proof.Reference
end

section
/-! ENCODE is the parse of its source region, up to the emission that does not fit (R141 to R145). -/

namespace Sys2Proof.Machine

open Sys2Proof.Reference

variable {c : Config} {sn : Snapshot} {p : Parse} {y : Symbol} {ys : List Symbol}

/-! ### One symbol -/

/-- A symbol that makes a longer match the table knows (R142). -/
theorem encodeWalk_of_known {d : Dict} {k : Code} {m : List Symbol} {k' : Nat} {x : Work 12} (hd : x.eng.dict = some d)
    (hcur : x.eng.cur = some k) (hm : lookupCode d k.toNat = some m) (hk' : lookupSeq d (m ++ [y]) = some k') :
    encodeWalk c y x = .ok ({ x with eng := { x.eng with cur := some (BitVec.ofNat 12 k') } }.advance 1) := by
  simp only [encodeWalk, hd, hcur, hm, hk']

/-- A symbol that makes none: the match is put, the longer one inserted, and a new match begins (R142). -/
theorem encodeWalk_of_new {d : Dict} {k : Code} {m : List Symbol} {x : Work 12} (hd : x.eng.dict = some d)
    (hcur : x.eng.cur = some k) (hm : lookupCode d k.toNat = some m) (hnew : lookupSeq d (m ++ [y]) = none) :
    encodeWalk c y x = (put k x.eng.i x).andThen fun x =>
      .ok ({ x with eng := { x.eng with
        dict := some (dictInsert c.maxEntries d (m ++ [y]))
        cur := some (y.setWidth 12) } }.advance 1) := by
  simp only [encodeWalk, hd, hcur, hm, hnew]

/-- ENCODE when it has read the symbols of the parse `p`, all matches behind it written. -/
def parsed (sn : Snapshot) (p : Parse) : Work 12 :=
  { eng := { Engine.fresh .encode sn with
      i := p.text.length, o := p.emitted.length, dict := some p.table, cur := some p.pending.2 }
    out := p.emitted.map (·.2)
    hdr := none }

/-- The same with the current match written too. -/
def parsedOut (sn : Snapshot) (p : Parse) : Work 12 :=
  { parsed sn p with
    eng := { (parsed sn p).eng with o := p.emissions.length }
    out := p.emissions.map (·.2) }

theorem put_parsed (hroom : p.emitted.length < sn.dc.toNat) (idx : Nat) :
    put p.pending.2 idx (parsed sn p) = .ok (parsedOut sn p) := by
  rw [put_eq_ok.2 ⟨hroom, rfl⟩, parsedOut, Parse.length_emissions, Parse.emissions, List.map_append]
  rfl

theorem put_parsed_full (hfull : sn.dc.toNat ≤ p.emitted.length) (idx : Nat) :
    put p.pending.2 idx (parsed sn p) = .err .dstOverflow idx (parsed sn p) :=
  put_eq_err.2 ⟨hfull, rfl, rfl, rfl⟩

variable {M : Nat}

/-- A symbol behind the current match moves ENCODE on as it moves the parse, where no emission overflows. -/
theorem encodeWalk_parsed (h : p.Ok c.maxEntries)
    (hroom : (p.next c.maxEntries y).emitted.length ≤ sn.dc.toNat) :
    encodeWalk c y (parsed sn p) = .ok (parsed sn (p.next c.maxEntries y)) := by
  have hcode := h.codes _ p.pending_mem
  have htext := congrArg List.length (Parse.text_next c.maxEntries p y)
  rw [List.length_append, List.length_singleton] at htext
  by_cases hknown : p.cur ++ [y] ∈ p.table.learned
  · obtain ⟨k, hk, hcodeOf⟩ := h.table.lookupSeq_of_mem hknown
    rw [Parse.next_of_known hknown] at htext ⊢
    rw [encodeWalk_of_known rfl rfl hcode hk, ← hcodeOf, parsed, parsed, htext]
    rfl
  · rw [Parse.next_of_new hknown] at htext hroom ⊢
    have hput : put p.pending.2 (parsed sn p).eng.i (parsed sn p) = .ok (parsedOut sn p) :=
      put_parsed (by rwa [Parse.length_emissions] at hroom) _
    have hwalk := encodeWalk_of_new (c := c) (x := parsed sn p) rfl rfl hcode (h.lookupSeq_next hknown)
    rw [hwalk, hput, Res.andThen_ok, parsed, htext,
      ← codeOf_singleton (dictInsert c.maxEntries p.table (p.cur ++ [y])).learned]
    rfl

/-- The emission that does not fit (R145). -/
theorem encodeWalk_parsed_full (h : p.Ok M) (hnew : p.cur ++ [y] ∉ p.table.learned)
    (hfull : sn.dc.toNat ≤ p.emitted.length) :
    encodeWalk c y (parsed sn p) = .err .dstOverflow p.text.length (parsed sn p) := by
  have hwalk := encodeWalk_of_new (c := c) (x := parsed sn p) rfl rfl (h.codes _ p.pending_mem) (h.lookupSeq_next hnew)
  rw [hwalk, put_parsed_full hfull, Res.andThen_err]
  rfl

/-! ### The walk and the final emission -/

/-- ENCODE over further symbols, none of whose emissions overflows. -/
theorem encodeLoop_parsed (hM : c.maxEntries ≤ 4096) (h : p.Ok c.maxEntries)
    (hroom : (p.run c.maxEntries ys).emitted.length ≤ sn.dc.toNat) :
    encodeLoop c (ys.map some) (parsed sn p) = .ok (parsed sn (p.run c.maxEntries ys)) := by
  induction ys generalizing p with
  | nil => rfl
  | cons y ys ih =>
    rw [Parse.run_cons] at hroom ⊢
    have hnext := ((p.next c.maxEntries y).emitted_prefix_run c.maxEntries ys).length_le.trans hroom
    rw [List.map_cons, encodeLoop, encodeWalk_parsed h hnext, Res.andThen_ok, ih (h.next hM y) hroom]

/-- The rest of ENCODE's body over the symbols `ys`, the last of the source region (R141, R143). -/
def encodeRest (c : Config) (ys : List Symbol) (x : Work 12) : Res (Work 12) :=
  (encodeLoop c (ys.map some) x).andThen encodeClose

theorem encodeRest_cons (c : Config) (y : Symbol) (ys : List Symbol) (x : Work 12) :
    encodeRest c (y :: ys) x = (encodeWalk c y x).andThen (encodeRest c ys) := Res.andThen_assoc _ _ _

theorem encodeRest_parsed (hM : c.maxEntries ≤ 4096) (h : p.Ok c.maxEntries)
    (hroom : (p.run c.maxEntries ys).emissions.length ≤ sn.dc.toNat) :
    encodeRest c ys (parsed sn p) = .ok (parsedOut sn (p.run c.maxEntries ys)) := by
  rw [Parse.length_emissions] at hroom
  rw [encodeRest, encodeLoop_parsed hM h (by omega), Res.andThen_ok]
  exact put_parsed hroom _

/-- Where the matches are more than the capacity, ENCODE stops at a parse `q` of a beginning of the input that has
filled the capacity; the current match of `q` is the next match of the whole input (R145). -/
theorem encodeRest_overflows (hM : c.maxEntries ≤ 4096) (h : p.Ok c.maxEntries)
    (hlen : sn.sl.toNat = p.text.length + ys.length) (hroom : p.emitted.length ≤ sn.dc.toNat)
    (hover : sn.dc.toNat < (p.run c.maxEntries ys).emissions.length) :
    ∃ q : Parse, q.Ok c.maxEntries ∧ q.emitted.length = sn.dc.toNat ∧
      q.emissions <+: (p.run c.maxEntries ys).emissions ∧
      encodeRest c ys (parsed sn p) = .err .dstOverflow q.text.length (parsed sn q) := by
  induction ys generalizing p with
  | nil =>
    rw [Parse.run_nil, Parse.length_emissions] at hover
    refine ⟨p, h, by omega, List.prefix_rfl, ?_⟩
    have hclose : encodeClose (parsed sn p) = .err .dstOverflow sn.sl.toNat (parsed sn p) :=
      put_parsed_full (by omega) _
    rw [show sn.sl.toNat = p.text.length from hlen] at hclose
    exact hclose
  | cons y ys ih =>
    rw [Parse.run_cons] at hover ⊢
    rw [encodeRest_cons]
    by_cases hnext : (p.next c.maxEntries y).emitted.length ≤ sn.dc.toNat
    · rw [encodeWalk_parsed h hnext, Res.andThen_ok]
      refine ih (h.next hM y) ?_ hnext hover
      rw [hlen, Parse.text_next, List.length_append, List.length_cons, List.length_singleton]
      omega
    · have hnew : p.cur ++ [y] ∉ p.table.learned := fun hknown =>
        hnext (by rwa [Parse.next_of_known hknown])
      have hemitted : (p.next c.maxEntries y).emitted = p.emissions := by rw [Parse.next_of_new hnew]
      rw [hemitted, Parse.length_emissions] at hnext
      refine ⟨p, h, by omega, ?_, ?_⟩
      · rw [← hemitted]
        exact (Parse.emitted_prefix_run _ _ ys).trans (List.prefix_append _ _)
      · rw [encodeWalk_parsed_full h hnew (by omega), Res.andThen_err]

end Sys2Proof.Machine
end

section
/-! ENCODE as a whole command: success and DST_OVERFLOW (R141 to R145). -/

namespace Sys2Proof.Machine

open Sys2Proof.Reference

variable {s : State} {sn : Snapshot} {x : Symbol} {xs : List Symbol} {M : Nat} {p : Parse}

/-- ENCODE from its start, where its checks pass, goes on from the parse of the first symbol (R141). -/
theorem encodeBody_of_input (hfit : Fits s.cfg .encode sn) (hlen : (x :: xs).length = sn.sl.toNat)
    (hsrc : ramRange s.sym sn.sb.toNat (x :: xs).length = (x :: xs).map some) :
    encodeBody s (Engine.fresh .encode sn) = encodeRest s.cfg xs (parsed sn (Parse.start x)) := by
  have hpos : 0 < sn.sl.toNat := hlen ▸ Nat.succ_pos _
  have hopen : codecOpen s.cfg.symDepth s.cfg.codeDepth (Work.start 12 (Engine.fresh .encode sn)) = .ok _ :=
    codecOpen_fresh hfit hpos
  have hrange : min sn.sl.toNat (sn.sl.toNat - 0) = sn.sl.toNat := Nat.min_self _
  have hwalk : encodeBody s (Engine.fresh .encode sn) =
      (encodeLoop s.cfg (ramRange s.sym (sn.sb.toNat + 0) (min sn.sl.toNat (sn.sl.toNat - 0)))
        (Work.start 12 { Engine.fresh .encode sn with dict := some dictInit })).andThen encodeClose := by
    rw [encodeBody, encodePart_eq, codecPart_of_open hopen]
    rfl
  rw [hwalk, hrange, ← hlen, Nat.add_zero, hsrc, encodeRest, parsed, Parse.pending, Parse.start, codeOf_singleton]
  rfl

/-- ENCODE where a command can start, as the end of its body (R109). -/
theorem exec_encode_of_starts (hstarts : Starts .encode s sn) :
    exec .encode s = (s.issued .encode).finish .encode storeCode (Engine.fresh .encode sn)
      (encodeBody s (Engine.fresh .encode sn)) := by
  obtain ⟨hcfg, hsym, -⟩ := State.issued_kept .encode s
  rw [← encodeBody_congr (s := s.issued .encode) hcfg fun _ _ _ => by rw [hsym]]
  exact runCommand_of_starts hstarts

/-- DICT_SIZE of an end of ENCODE at the parse `p` (R35, R136). -/
theorem endDictSize_parsed (hM : M ≤ 4096) (h : p.Ok M) (sn : Snapshot) :
    (endDictSize (parsed sn p).eng).toNat = min M (256 + p.emitted.length) := by
  show (BitVec.ofNat 13 (dictCount p.table)).toNat = _
  rw [h.size, BitVec.toNat_ofNat]
  omega

/-- Settles O34: the walk is the parse, which is the reference's, and the final emission is the parse's last match. -/
theorem encodeWritesGreedyCodes : Obligations.EncodeWritesGreedyCodes := by
  unfold Obligations.EncodeWritesGreedyCodes
  intro s sn input hs hstarts hfit hne hlen hsrc hroom
  obtain ⟨x, xs, rfl⟩ := List.exists_cons_of_ne_nil hne
  rw [greedyCodes_cons hs.cap, List.length_map] at hroom ⊢
  have hbody : encodeBody s (Engine.fresh .encode sn) = .ok (parsedOut sn (parseOf s.cfg.maxEntries x xs)) := by
    rw [encodeBody_of_input hfit hlen hsrc]
    exact encodeRest_parsed hs.cap.2 (Parse.Ok.start hs.cap.1 x) hroom
  have hrun := exec_encode_of_starts hstarts
  rw [hbody, finish_ok, (storesInto_storeCode.recordClear (hs.recordClear_issued .encode) _ _).complete_eq] at hrun
  refine ⟨_, hrun, ⟨rfl, rfl, rfl, rfl, rfl, rfl⟩, ?codes, ?size⟩
  case codes =>
    rw [← List.length_map (as := (parseOf s.cfg.maxEntries x xs).emissions) (·.2)]
    exact ramRange_ramWriteSeq _ _ _
  case size =>
    rw [Parse.length_emissions, entriesAfter]
    exact endDictSize_parsed hs.cap.2 (parseOf_ok hs.cap x xs) sn

/-- Settles O35: ENCODE stops at the parse that has filled the capacity, whose current match is the next one. -/
theorem encodeOverflowsAtEmission : Obligations.EncodeOverflowsAtEmission := by
  unfold Obligations.EncodeOverflowsAtEmission
  intro s sn input hs hstarts hfit hne hlen hsrc hover
  obtain ⟨x, xs, rfl⟩ := List.exists_cons_of_ne_nil hne
  rw [greedyCodes_cons hs.cap] at hover ⊢
  rw [List.length_map] at hover
  have hstart := Parse.Ok.start hs.cap.1 x
  obtain ⟨q, hq, hfull, hprefix, hrest⟩ := encodeRest_overflows (sn := sn) hs.cap.2 hstart
    (by rw [← hlen]; exact Nat.add_comm _ _) (Nat.zero_le _) hover
  have hrun := exec_encode_of_starts hstarts
  rw [encodeBody_of_input hfit hlen hsrc, hrest, finish_err,
    (storesInto_storeCode.recordClear (hs.recordClear_issued .encode) _ _).raiseErr_eq] at hrun
  have hcovered := coveredBy_of_prefix hs.cap hprefix
  rw [Parse.length_emissions] at hcovered
  have hemitted : q.emitted <+: (parseOf s.cfg.maxEntries x xs).emissions := (List.prefix_append _ _).trans hprefix
  have hwritten : ((parseOf s.cfg.maxEntries x xs).emissions.map (·.2)).take q.emitted.length =
      q.emitted.map (·.2) := by
    rw [← List.map_take, ← List.prefix_iff_eq_take.1 hemitted]
  rw [← hfull, hcovered, hwritten]
  refine ⟨_, hrun, ⟨rfl, rfl, rfl, rfl, rfl, rfl⟩, ?codes, endDictSize_parsed hs.cap.2 hq sn⟩
  case codes =>
    rw [← List.length_map (as := q.emitted) (·.2)]
    exact ramRange_ramWriteSeq _ _ _

end Sys2Proof.Machine
end

section
/-! What the codes of an ENCODE are: at most one per symbol, all in the table, covering the input (R146), and the
symbols themselves where no pair repeats (R147). -/

namespace Sys2Proof.Reference

open Sys2Proof.Machine

variable {M : Nat} {p : Parse} {x : Symbol} {xs : List Symbol}

/-- Every match has a symbol, so there are at most as many as symbols. -/
theorem Parse.Ok.length_emissions_le (h : p.Ok M) : p.emissions.length ≤ p.text.length := by
  have hpos : ∀ n ∈ p.emissions.map (·.1.length), 1 ≤ n := by
    intro n hn
    obtain ⟨q, hq, rfl⟩ := List.mem_map.1 hn
    refine List.length_pos_iff.2 fun hnil => ?_
    exact h.table.lookupCode_ne_nil (hnil ▸ h.codes q hq)
  have hsum := List.length_le_sum_of_one_le _ hpos
  rw [List.length_map] at hsum
  rw [Parse.text, List.length_flatten, List.map_map]
  exact hsum

theorem Parse.Ok.code_lt (h : p.Ok M) {k : Code} (hk : k ∈ p.emissions.map (·.2)) : k.toNat < dictCount p.table := by
  obtain ⟨q, hq, rfl⟩ := List.mem_map.1 hk
  exact lookupCode_lt (h.codes q hq)

/-- The entries under the emitted codes are the matches, which cover the text (R133). -/
theorem Parse.Ok.flatten_lookups (h : p.Ok M) :
    ((p.emissions.map (·.2)).map fun k => (lookupCode p.table k.toNat).getD []).flatten = p.text := by
  rw [Parse.text, List.map_map]
  congr 1
  refine List.map_congr_left fun q hq => ?_
  rw [Function.comp_apply, h.codes q hq, Option.getD_some]

theorem length_greedyCodes_le (hM : 256 ≤ M ∧ M ≤ 4096) (x : Symbol) (xs : List Symbol) :
    (greedyCodes M (x :: xs)).length ≤ (x :: xs).length := by
  rw [greedyCodes_cons hM, List.length_map, ← text_parseOf M]
  exact (parseOf_ok hM x xs).length_emissions_le

theorem length_greedyCodes_pos (hM : 256 ≤ M ∧ M ≤ 4096) (x : Symbol) (xs : List Symbol) :
    1 ≤ (greedyCodes M (x :: xs)).length := by
  rw [greedyCodes_cons hM, List.length_map, Parse.length_emissions]
  exact Nat.le_add_left _ _

theorem greedyCodes_lt (hM : 256 ≤ M ∧ M ≤ 4096) {k : Code} (hk : k ∈ greedyCodes M (x :: xs)) :
    k.toNat < entriesAfter M (greedyCodes M (x :: xs)).length := by
  have hok := parseOf_ok hM x xs
  rw [greedyCodes_cons hM] at hk ⊢
  rw [List.length_map, Parse.length_emissions]
  exact (hok.code_lt hk).trans_eq hok.size

theorem mem_learned_insert {d : Dict} {q t : List Symbol} (h : t ∈ (dictInsert M d q).learned) :
    t ∈ d.learned ∨ t = q := by
  by_cases hroom : dictCount d < M
  · rw [dictInsert_of_room hroom] at h
    simpa using h
  · rw [dictInsert_of_full hroom] at h
    exact .inl h

/-- A parse at a match of one symbol goes on with one match per symbol, where no pair of adjacent symbols to come is
learned or comes twice (R147). -/
theorem codes_run_of_nodup {ys : List Symbol} (hcur : p.cur = [x]) (hpairs : ((x :: ys).zip ys).Nodup)
    (hnew : ∀ a b, (a, b) ∈ (x :: ys).zip ys → [a, b] ∉ p.table.learned) :
    (p.run M ys).emissions.map (·.2) = p.emitted.map (·.2) ++ (x :: ys).map fun z => BitVec.ofNat 12 z.toNat := by
  induction ys generalizing p x with
  | nil =>
    rw [Parse.run_nil, Parse.emissions, List.map_append, Parse.pending, hcur]
    rfl
  | cons y ys ih =>
    rw [List.zip_cons_cons] at hpairs hnew
    obtain ⟨hfirst, hrest⟩ := List.nodup_cons.1 hpairs
    have hunknown : p.cur ++ [y] ∉ p.table.learned := hcur ▸ hnew x y List.mem_cons_self
    rw [Parse.run_cons, Parse.next_of_new hunknown, ih rfl hrest fun a b hab hmem => ?_]
    · rw [Parse.emissions, List.map_append, List.append_assoc, Parse.pending, hcur]
      rfl
    · rcases mem_learned_insert hmem with hold | hpair
      · exact hnew a b (List.mem_cons_of_mem _ hab) hold
      · rw [hcur] at hpair
        cases hpair
        exact hfirst hab

theorem greedyCodes_of_nodup (hM : 256 ≤ M ∧ M ≤ 4096) (hpairs : ((x :: xs).zip xs).Nodup) :
    greedyCodes M (x :: xs) = (x :: xs).map fun z => BitVec.ofNat 12 z.toNat := by
  rw [greedyCodes_cons hM, parseOf, codes_run_of_nodup rfl hpairs fun _ _ _ => List.not_mem_nil]
  rfl

end Sys2Proof.Reference

namespace Sys2Proof.Machine

open Sys2Proof.Reference

/-- Settles O36: the codes are those of the parse, whose matches are not empty and whose codes its table has. -/
theorem encodeOutputBounds : Obligations.EncodeOutputBounds := by
  unfold Obligations.EncodeOutputBounds
  intro s sn input hs hstarts hfit hne hlen hsrc hroom
  obtain ⟨x, xs, rfl⟩ := List.exists_cons_of_ne_nil hne
  have hle := hlen ▸ length_greedyCodes_le hs.cap x xs
  obtain ⟨t, ht, ⟨-, hdone, -, -, hresult, -⟩, hcodes, hsize⟩ :=
    encodeWritesGreedyCodes s sn _ hs hstarts hfit hne hlen hsrc (hle.trans hroom)
  have hcount : t.resultLen.toNat = (greedyCodes s.cfg.maxEntries (x :: xs)).length := by
    rw [hresult, BitVec.toNat_ofNat, Nat.mod_eq_of_lt (hle.trans_lt sn.sl.isLt)]
  refine ⟨t, ht, hdone, ?_⟩
  rw [hcount, hsize]
  refine ⟨length_greedyCodes_pos hs.cap x xs, hle, Nat.min_le_left _ _, fun j hj => ?_⟩
  have hread := ramRange_getElem t.code sn.db.toNat _ j hj
  simp only [hcodes, List.getElem_map] at hread
  exact ⟨_, hread.symm, greedyCodes_lt hs.cap (List.getElem_mem hj)⟩

/-- Settles O38: where no pair repeats the reference's codes are the symbols. -/
theorem noRepeatedPairEncodesLiterally : Obligations.NoRepeatedPairEncodesLiterally := by
  unfold Obligations.NoRepeatedPairEncodesLiterally
  intro s sn input hs hstarts hfit hne hlen hsrc hroom hpairs
  obtain ⟨x, xs, rfl⟩ := List.exists_cons_of_ne_nil hne
  have hliteral := greedyCodes_of_nodup hs.cap hpairs
  have hcount := congrArg List.length hliteral
  rw [List.length_map] at hcount
  obtain ⟨t, ht, hend, hcodes, -⟩ := encodeWritesGreedyCodes s sn _ hs hstarts hfit hne hlen hsrc
    (hcount.trans hlen ▸ hroom)
  rw [hcount] at hend hcodes
  rw [hliteral, List.map_map] at hcodes
  exact ⟨t, ht, hend, hcodes⟩

variable {s : State} {sn : Snapshot}

/-- An ENCODE that succeeds from its start has passed its checks (R105, R145). -/
theorem checks_of_encodeBody_ok {y : Work 12} (h : encodeBody s (Engine.fresh .encode sn) = .ok y) :
    Fits s.cfg .encode sn ∧ sn.sl.toNat ≠ 0 := by
  have hfit : Fits s.cfg .encode sn := by
    by_contra hfit
    cases (body_of_not_fits checksRegionsFirst_encodeBody hfit).symm.trans h
  exact ⟨hfit, fun hempty => by cases (encodeBody_of_empty hfit hempty).symm.trans h⟩

/-- Settles O37: an ENCODE that succeeds has written the matches of the whole parse, which cover the input. -/
theorem encodeCoversInput : Obligations.EncodeCoversInput := by
  unfold Obligations.EncodeCoversInput
  intro s sn input y hs hlen hsrc hy
  obtain ⟨hfit, hpos⟩ := checks_of_encodeBody_ok hy
  obtain ⟨x, xs, rfl⟩ := List.exists_cons_of_length_pos (Nat.pos_of_ne_zero (hlen ▸ hpos))
  have hstart := Parse.Ok.start hs.cap.1 x
  have hok := parseOf_ok hs.cap x xs
  rw [encodeBody_of_input hfit hlen hsrc] at hy
  rcases Nat.lt_or_ge sn.dc.toNat (parseOf s.cfg.maxEntries x xs).emissions.length with hover | hroom
  · obtain ⟨q, -, -, -, hrest⟩ := encodeRest_overflows hs.cap.2 hstart
      (by rw [← hlen]; exact Nat.add_comm _ _) (Nat.zero_le _) hover
    cases hrest.symm.trans hy
  · cases (encodeRest_parsed hs.cap.2 hstart hroom).symm.trans hy
    refine ⟨_, rfl, ?_, fun k => hok.code_lt⟩
    rw [← text_parseOf s.cfg.maxEntries]
    exact hok.flatten_lookups

end Sys2Proof.Machine
end

section
/-! What an ENCODE leaves unchanged (R25, R51, R102, R144, R205). -/

namespace Sys2Proof.Machine

open Sys2Proof.Reference

variable {w : Nat} {s : State}

/-- What a body appended is written inside the RESULT_LEN elements from the destination base (R102, R106). -/
theorem outsideKept_of_grows {m : List (Nat × BitVec w)} {e : Engine} {x : Work w} (h : Grows (Work.start w e) x) :
    OutsideKept m (ramWriteSeq m (e.db + e.o) x.out) e.db (BitVec.ofNat 32 x.eng.o).toNat := by
  intro a ha
  by_cases hout : x.out = []
  · rw [hout]
    rfl
  · obtain ⟨hlen, -⟩ := h.resultLen hout
    obtain ⟨-, -, l, hl, ho, -⟩ := h
    rw [Work.start_out, List.nil_append] at hl
    rw [Work.start_eng] at ho
    subst hl
    exact ramRead_ramWriteSeq_out _ _ _ (by omega)

/-- ENCODE reads no header. -/
theorem encodeBody_hdr {e : Engine} {x : Work 12} (h : Reaches (encodeBody s e) x) : x.hdr = none := by
  rw [encodeBody, encodePart_eq, codecPart, Res.andThen_assoc] at h
  rcases h.andThen_inv with ⟨E, i, hopen⟩ | ⟨z, hopen, hrest⟩
  · rw [codecOpen_err hopen]
    rfl
  · have hwalk := oblivious_walkRange (oblivious_encodeLoop s.cfg) s.sym z.eng.sl e.sl
    rw [(hwalk.andThen oblivious_encodeClose).hdr_eq hrest, codecOpen_hdr hopen]
    rfl

/-- Settles O39: however ENCODE ends, its body has only appended codes, and its end settles registers of its own. -/
theorem encodeFrame : Obligations.EncodeFrame := by
  unfold Obligations.EncodeFrame
  intro s t ht
  obtain ⟨x, hx, ht⟩ := runCommand_next ht
  have hwritten := outsideKept_of_grows (m := (s.issued .encode).code) (grows_encodeBody _ _ x hx)
  have hhdr := encodeBody_hdr hx
  obtain ⟨hcfg, hsym, hcode, hstream, hsb, hsl, hdb, hdc, hrow, -, hcount, hprog, hpos, hdata, hturns, hcmd⟩ :=
    State.issued_kept .encode s
  rw [hcode] at hwritten
  rcases ht with rfl | ⟨E, i, rfl⟩
  all_goals
    refine ⟨?_, ?_, ?_, ?_, ?_, ?_⟩
    · simp [CommonKept, hcfg, hsb, hsl, hdb, hdc, hcmd, hprog, hpos, hdata, hturns]
    · simp [hhdr, hrow]
    · simp [hhdr, hcount]
    · simp [hsym]
    · simp [hstream]
    · simpa [hcode] using hwritten

end Sys2Proof.Machine
end

section
/-! DECODE over the acceptable codes at the head of its source region: the whole region (R156 to R162), or up to the
first code it does not accept (R157, R158, R163). -/

namespace Sys2Proof.Machine

open Sys2Proof.Reference

variable {w : Nat} {M : Nat} {c : Config} {s : State} {sn : Snapshot} {cs : List Code} {i n : Nat}

/-! ### The source region -/

theorem take_ramRange {m : List (Nat × BitVec w)} {a k : Nat} (hn : n ≤ k) :
    (ramRange m a k).take n = ramRange m a n := by
  obtain ⟨r, rfl⟩ := Nat.exists_eq_add_of_le hn
  rw [ramRange_append]
  exact List.take_left' (ramRange_length m a n)

theorem ramRead_of_ramRange {m : List (Nat × BitVec w)} {a : Nat} {l : List (BitVec w)} {v : BitVec w}
    (h : ramRange m a l.length = l.map some) (hi : i < l.length) : ramRead m (a + i) = some (l.getD i v) := by
  have hread := ramRange_getElem m a l.length i hi
  simp only [h, List.getElem_map] at hread
  rw [← hread, List.getD_eq_getElem _ _ hi]

/-- DECODE behind the first `n` codes of the stream, all accepted and with translations that fit, goes on over the rest
of the region from the table of those codes. -/
theorem decodeBody_of_accepted (hM : 256 ≤ s.cfg.maxEntries) (hfit : Fits s.cfg .decode sn) (hpos : 0 < sn.sl.toNat)
    (hlen : cs.length ≤ sn.sl.toNat) (hsrc : ramRange s.code sn.sb.toNat cs.length = cs.map some) (hn : n ≤ cs.length)
    (h : ∀ j, j < n → Accepted s.cfg.maxEntries cs j) (hroom : (transAll cs n).length ≤ sn.dc.toNat) :
    decodeBody s (Engine.fresh .decode sn) =
      decodeLoop s.cfg (ramRange s.code (sn.sb.toNat + n) (sn.sl.toNat - n)) (decodedTo s.cfg.maxEntries sn cs n) := by
  have hsplit : sn.sl.toNat = n + (sn.sl.toNat - n) := by omega
  have hfirst : ramRange s.code sn.sb.toNat n = (cs.take n).map some := by
    rw [← take_ramRange hn, hsrc, List.map_take]
  rw [decodeBody_of_fits hfit hpos cs]
  conv_lhs => rw [hsplit]
  rw [ramRange_append, hfirst, decodeLoop_append, decodeLoop_decodedTo hM h hn hroom, Res.andThen_ok]

/-- DECODE where a command can start, as the end of its body (R109). -/
theorem exec_decode_of_starts (hstarts : Starts .decode s sn) :
    exec .decode s = (s.issued .decode).finish .decode storeSym (Engine.fresh .decode sn)
      (decodeBody s (Engine.fresh .decode sn)) := by
  obtain ⟨hcfg, -, hcode, -⟩ := State.issued_kept .decode s
  rw [← decodeBody_congr (s := s.issued .decode) hcfg fun _ _ _ => by rw [hcode]]
  exact runCommand_of_starts hstarts

/-! ### Every code accepted -/

theorem entriesAt_of_ne_zero (hn : n ≠ 0) : entriesAt M n = entriesAfter M n := if_neg hn

/-- Settles O40: the walk comes to the end of the region with all translations written. -/
theorem decodeWritesTranslations : Obligations.DecodeWritesTranslations := by
  unfold Obligations.DecodeWritesTranslations
  intro s sn cs hs hstarts hfit hne hlen hsrc haccepted hroom
  have hpos := List.length_pos_iff.2 hne
  have hbody : decodeBody s (Engine.fresh .decode sn) = .ok (decodedTo s.cfg.maxEntries sn cs cs.length) := by
    rw [decodeBody_of_accepted hs.cap.1 hfit (hlen ▸ hpos) hlen.le hsrc le_rfl haccepted hroom, hlen, Nat.sub_self]
    rfl
  have hrun := exec_decode_of_starts hstarts
  rw [hbody, finish_ok, (storesInto_storeSym.recordClear (hs.recordClear_issued .decode) _ _).complete_eq] at hrun
  refine ⟨_, hrun, ⟨rfl, rfl, rfl, rfl, rfl, rfl⟩, ramRange_ramWriteSeq _ _ _, ?_⟩
  rw [← entriesAt_of_ne_zero hpos.ne']
  exact endDictSize_decodedTo hs.cap sn cs cs.length

/-! ### The first code that is not accepted -/

/-- A code behind code `n` that is not accepted has no translation: it lies above the table, or at the end of a full
one (R158). -/
theorem translate_of_not_accepted (hM : 256 ≤ M) (h : ¬ Accepted M cs (n + 1)) (m : List Symbol) :
    translate M (tableAt M cs (n + 1)) m (cs.getD (n + 1) 0#12).toNat = none := by
  have hcount := dictCount_tableAt hM cs (n + 1)
  rw [entriesAt, if_neg (Nat.succ_ne_zero n)] at hcount
  rw [Accepted] at h
  rw [translate, if_neg (by omega), if_neg (by omega)]

theorem decodeFirst_of_unknown {d : Dict} {k : Code} (hk : dictCount d ≤ k.toNat) (x : Work 8) :
    decodeFirst d k x = .err .invalidCode x.eng.i x := if_pos hk

theorem decodeWalk_of_untranslated {k p : Code} {d : Dict} {m : List Symbol} {x : Work 8} (hd : x.eng.dict = some d)
    (hprev : x.eng.prev = some p) (hm : lookupCode d p.toNat = some m)
    (ht : translate c.maxEntries d m k.toNat = none) : decodeWalk c k x = .err .invalidCode x.eng.i x := by
  simp only [decodeWalk, hd, hprev, hm, decodeLater, ht]

/-- The first code that is not accepted ends DECODE before it writes or inserts anything for it (R157, R158). -/
theorem decodeWalk_rejects (hM : 256 ≤ c.maxEntries) (hbefore : ∀ j, j < n → Accepted c.maxEntries cs j)
    (hn : n ≤ cs.length) (h : ¬ Accepted c.maxEntries cs n) :
    decodeWalk c (cs.getD n 0#12) (decodedTo c.maxEntries sn cs n) =
      .err .invalidCode n (decodedTo c.maxEntries sn cs n) := by
  cases n with
  | zero =>
    have hcount : dictCount (tableAt c.maxEntries cs 0) = 256 := dictCount_tableAt hM cs 0
    rw [Accepted] at h
    exact decodeFirst_of_unknown (d := tableAt c.maxEntries cs 0) (by omega) (decodedTo c.maxEntries sn cs 0)
  | succ n =>
    have hto : AcceptedTo c.maxEntries cs n := fun j hj => hbefore j (Nat.lt_succ_of_le hj)
    have hprev := lookupCode_tableAt (n := n + 1) hM hto (by omega) (hto n le_rfl)
    exact decodeWalk_of_untranslated (x := decodedTo c.maxEntries sn cs (n + 1)) rfl rfl hprev
      (translate_of_not_accepted hM h _)

/-- Settles O41: the walk comes to code `i` with the translations before it written, and code `i` has none. -/
theorem decodeStopsAtInvalidCode : Obligations.DecodeStopsAtInvalidCode := by
  unfold Obligations.DecodeStopsAtInvalidCode
  intro s sn cs i hs hstarts hfit hlen hi hsrc hbefore hnot hroom
  obtain ⟨r, hr⟩ := Nat.exists_eq_add_of_lt hi
  have hrest : sn.sl.toNat - i = r + 1 := by omega
  have hbody : decodeBody s (Engine.fresh .decode sn) = .err .invalidCode i (decodedTo s.cfg.maxEntries sn cs i) := by
    rw [decodeBody_of_accepted hs.cap.1 hfit (by omega) (by omega) hsrc (by omega) hbefore hroom, hrest, ramRange,
      ramRead_of_ramRange hsrc (by omega) (v := 0#12), decodeLoop, decodeWalk_rejects hs.cap.1 hbefore (by omega) hnot,
      Res.andThen_err]
  have hrun := exec_decode_of_starts hstarts
  rw [hbody, finish_err, (storesInto_storeSym.recordClear (hs.recordClear_issued .decode) _ _).raiseErr_eq] at hrun
  exact ⟨_, hrun, ⟨rfl, rfl, rfl, rfl, rfl, rfl⟩, ramRange_ramWriteSeq _ _ _, endDictSize_decodedTo hs.cap sn cs i⟩

end Sys2Proof.Machine
end

section
/-! What a DECODE leaves unchanged (R25, R51, R102, R162, R205). -/

namespace Sys2Proof.Machine

open Sys2Proof.Reference

variable {w : Nat} {op : Instr} {s t u : State}

theorem commonKept_issued (op : Instr) (s : State) : CommonKept op s (s.issued op) := by
  obtain ⟨hcfg, -, -, -, hsb, hsl, hdb, hdc, -, -, -, hprog, hpos, hdata, hturns, hcmd⟩ := State.issued_kept op s
  exact ⟨hcfg, hsb, hsl, hdb, hdc, hcmd, hprog, hpos, hdata, hturns⟩

/-- Either end of a command settles registers of its own on the state `u` in which its elements are written (R108,
R203): it keeps the RAMs, and the header registers where the command has read no header. -/
theorem end_keeps {x : Work w} (h : t = u.complete op x ∨ ∃ E i, t = u.raiseErr op E i x) :
    (CommonKept op s u → CommonKept op s t) ∧ (x.hdr = none → t.rowWidth = u.rowWidth ∧ t.hdrCount = u.hdrCount) ∧
      t.sym = u.sym ∧ t.code = u.code ∧ t.stream = u.stream ∧ t.resultLen = BitVec.ofNat 32 x.eng.o := by
  rcases h with rfl | ⟨E, i, rfl⟩
  · exact ⟨id, fun hhdr => by simp [hhdr], rfl, rfl, rfl, rfl⟩
  · exact ⟨id, fun hhdr => by simp [hhdr], rfl, rfl, rfl, rfl⟩

/-- DECODE reads no header. -/
theorem decodeBody_hdr {e : Engine} {x : Work 8} (h : Reaches (decodeBody s e) x) : x.hdr = none := by
  rw [decodeBody, decodePart_eq] at h
  rcases h.andThen_inv with ⟨E, i, hopen⟩ | ⟨z, hopen, hwalk⟩
  · rw [codecOpen_err hopen]
    rfl
  · rw [(oblivious_walkRange (oblivious_decodeLoop s.cfg) s.code z.eng.sl e.sl).hdr_eq hwalk, codecOpen_hdr hopen]
    rfl

/-- Settles O43: however DECODE ends, its body has only appended symbols, and its end settles registers of its own. -/
theorem decodeFrame : Obligations.DecodeFrame := by
  unfold Obligations.DecodeFrame
  intro s t ht
  obtain ⟨x, hx, hend⟩ := runCommand_next ht
  obtain ⟨hcommon, hheaders, hsym, hcode, hstream, hlen⟩ := end_keeps hend
  obtain ⟨hrow, hcount⟩ := hheaders (decodeBody_hdr hx)
  obtain ⟨-, hsym', hcode', hstream', -, -, -, -, hrow', -, hcount', -⟩ := State.issued_kept .decode s
  refine ⟨hcommon (commonKept_issued .decode s), hrow.trans hrow', hcount.trans hcount', hcode.trans hcode',
    hstream.trans hstream', ?_⟩
  rw [hsym, hlen, ← hsym']
  exact outsideKept_of_grows (grows_decodeBody _ _ x hx)

end Sys2Proof.Machine
end

section
/-! The translation of ENCODE's codes (R136, R166): every code stands for the match it was emitted for, also by the
translation without a table. -/

namespace Sys2Proof.Reference

open Sys2Proof.Machine

variable {M : Nat} {ms es : List (List Symbol)} {m : List Symbol} {k : Code} {E : List (List Symbol × Code)}
  {p : Parse} {y : Symbol} {i j : Nat} {q : List Symbol × Code}

/-! ### Codes by the matches before them -/

/-- What ENCODE learns behind match `j`: the match and the first symbol of the next one (R142). -/
def entryBehind (ms : List (List Symbol)) (j : Nat) : List Symbol := ms.getD j [] ++ (ms.getD (j + 1) []).head?.toList

/-- Match and code number `i` of a parse with the matches `ms`: a symbol as its own seed, or what was learned behind an
earlier match. -/
inductive Spelled (M : Nat) (ms : List (List Symbol)) (i : Nat) (q : List Symbol × Code) : Prop
  | seed (hk : q.2.toNat < 256) (hm : q.1 = [BitVec.ofNat 8 q.2.toNat])
  | learned (j : Nat) (hj : j < i) (hroom : 256 + j < M) (hk : q.2.toNat = 256 + j) (hm : q.1 = entryBehind ms j)

/-- Every match and code of the list is spelled by the matches before it. -/
def SpelledAll (M : Nat) (E : List (List Symbol × Code)) : Prop :=
  ∀ i q, E[i]? = some q → Spelled M (E.map (·.1)) i q

theorem Spelled.congr {ms' : List (List Symbol)} (h : Spelled M ms i q)
    (hentry : ∀ j, j < i → entryBehind ms' j = entryBehind ms j) : Spelled M ms' i q := by
  cases h with
  | seed hk hm => exact .seed hk hm
  | learned j hj hroom hk hm => exact .learned j hj hroom hk (hm.trans (hentry j hj).symm)

/-- An entry behind a match whose next match has begun does not depend on how that one and the input go on. -/
theorem entryBehind_append (hj : j < es.length) (hm : m ≠ []) (r : List Symbol) (rest : List (List Symbol)) :
    entryBehind (es ++ (m ++ r) :: rest) j = entryBehind (es ++ [m]) j := by
  rw [entryBehind, entryBehind, List.getD_append _ _ _ _ hj, List.getD_append _ _ _ _ hj]
  rcases Nat.lt_or_ge (j + 1) es.length with hlt | hge
  · rw [List.getD_append _ _ _ _ hlt, List.getD_append _ _ _ _ hlt]
  · obtain ⟨x, xs, rfl⟩ := List.exists_cons_of_ne_nil hm
    rw [List.getD_append_right _ _ _ _ hge, List.getD_append_right _ _ _ _ hge, Nat.sub_eq_zero_of_le hj]
    rfl

/-- The entry behind the last match but one, when a match has just begun. -/
theorem entryBehind_length (es : List (List Symbol)) (m : List Symbol) (y : Symbol) :
    entryBehind (es ++ [m, [y]]) es.length = m ++ [y] := by simp [entryBehind]

theorem entryBehind_map {q' : List Symbol × Code} (hq : E[j]? = some q) (hq' : E[j + 1]? = some q') :
    entryBehind (E.map (·.1)) j = q.1 ++ q'.1.head?.toList := by simp [entryBehind, hq, hq']

theorem getD_codes (hq : E[i]? = some q) : (E.map (·.2)).getD i 0#12 = q.2 := by simp [hq]

/-- An element of a list with one more at its end is an old one, or the new one. -/
theorem getElem?_concat_cases {α : Type} {l : List α} {a b : α} (h : (l ++ [a])[i]? = some b) :
    l[i]? = some b ∨ i = l.length ∧ b = a := by
  rcases Nat.lt_or_ge i l.length with hlt | hge
  · exact .inl (by rwa [List.getElem?_append_left hlt] at h)
  · have hi := (List.getElem?_eq_some_iff.1 h).1
    rw [List.length_append, List.length_singleton] at hi
    obtain rfl : i = l.length := by omega
    rw [List.getElem?_concat_length, Option.some_inj] at h
    exact .inr ⟨rfl, h.symm⟩

/-! ### The parse -/

/-- A parse whose table holds what its matches have left behind, and whose codes are spelled by them. -/
structure Parse.Traced (M : Nat) (p : Parse) : Prop where
  learned : ∀ j t, p.table.learned[j]? = some t → t = entryBehind (p.emissions.map (·.1)) j
  spelled : SpelledAll M p.emissions

/-- A code of the parse's table is spelled by the matches of the parse. -/
theorem Parse.Ok.spelled_of_lookup (h : p.Ok M)
    (hlearned : ∀ j t, p.table.learned[j]? = some t → t = entryBehind (p.emissions.map (·.1)) j)
    (hk : lookupCode p.table k.toNat = some m) : Spelled M (p.emissions.map (·.1)) p.emitted.length (m, k) := by
  have hlt := lookupCode_lt hk
  rw [h.size] at hlt
  rcases Nat.lt_or_ge k.toNat 256 with hseed | hge
  · rw [lookupCode_of_seed hseed] at hk
    exact .seed hseed (Option.some_inj.1 hk).symm
  · rw [lookupCode_of_learned hge] at hk
    exact .learned (k.toNat - 256) (by omega) (by omega) (Nat.add_sub_cancel' hge).symm (hlearned _ _ hk)

/-- Behind its emitted matches a parse has only the current one, with a code of its table. -/
theorem Parse.Ok.traced (h : p.Ok M)
    (hlearned : ∀ j t, p.table.learned[j]? = some t → t = entryBehind (p.emissions.map (·.1)) j)
    (hemitted : ∀ i q, p.emitted[i]? = some q → Spelled M (p.emissions.map (·.1)) i q) : p.Traced M := by
  refine ⟨hlearned, fun i q hq => ?_⟩
  rcases getElem?_concat_cases hq with hold | ⟨rfl, rfl⟩
  · exact hemitted i q hold
  · exact h.spelled_of_lookup hlearned (h.codes _ p.pending_mem)

/-- A further symbol leaves the entries behind all complete matches as they are. -/
theorem Parse.entryBehind_next (h : p.Ok M) (hj : j < p.emitted.length) :
    entryBehind ((p.next M y).emissions.map (·.1)) j = entryBehind (p.emissions.map (·.1)) j := by
  have hkeep := entryBehind_append (es := p.emitted.map (·.1)) (by simpa using hj) h.cur_ne_nil
  by_cases hknown : p.cur ++ [y] ∈ p.table.learned
  · simpa [Parse.next_of_known hknown, Parse.emissions, Parse.pending] using hkeep [y] []
  · simpa [Parse.next_of_new hknown, Parse.emissions, Parse.pending] using hkeep [] [[y]]

/-- A further symbol adds at most one entry, which is what the complete match has left behind (R142). -/
theorem Parse.Traced.learned_next (h : p.Traced M) (hok : p.Ok M) {t : List Symbol}
    (ht : (p.next M y).table.learned[j]? = some t) : t = entryBehind ((p.next M y).emissions.map (·.1)) j := by
  have hsize := hok.size
  rw [dictCount, Config.literals] at hsize
  have hold (hj : p.table.learned[j]? = some t) : t = entryBehind ((p.next M y).emissions.map (·.1)) j := by
    have hlt := (List.getElem?_eq_some_iff.1 hj).1
    rw [Parse.entryBehind_next hok (by omega)]
    exact h.learned j t hj
  by_cases hknown : p.cur ++ [y] ∈ p.table.learned
  · exact hold (by rwa [Parse.next_of_known hknown] at ht)
  rw [Parse.next_of_new hknown] at ht
  by_cases hroom : dictCount p.table < M
  · rw [dictInsert_of_room hroom] at ht
    rcases getElem?_concat_cases ht with hj | ⟨rfl, rfl⟩
    · exact hold hj
    · rw [dictCount, Config.literals] at hroom
      have hlast : p.table.learned.length = p.emitted.length := by omega
      rw [hlast, Parse.next_of_new hknown]
      simpa [Parse.emissions, Parse.pending] using (entryBehind_length (p.emitted.map (·.1)) p.cur y).symm
  · rw [dictInsert_of_full hroom] at ht
    exact hold ht

/-- The emissions behind a further symbol are emissions before it and the new current match. -/
theorem Parse.emitted_next_prefix (M : Nat) (p : Parse) (y : Symbol) : (p.next M y).emitted <+: p.emissions := by
  by_cases hknown : p.cur ++ [y] ∈ p.table.learned
  · rw [Parse.next_of_known hknown]
    exact List.prefix_append _ _
  · rw [Parse.next_of_new hknown]

theorem Parse.Traced.start (hM : 256 ≤ M) (x : Symbol) : (Parse.start x).Traced M :=
  (Parse.Ok.start hM x).traced nofun nofun

theorem Parse.Traced.next (h : p.Traced M) (hok : p.Ok M) (hM : M ≤ 4096) (y : Symbol) : (p.next M y).Traced M := by
  refine (hok.next hM y).traced (fun j t => h.learned_next hok) fun i q hq => ?_
  obtain ⟨r, hr⟩ := p.emitted_next_prefix M y
  have hi := (List.getElem?_eq_some_iff.1 hq).1
  have hlen := congrArg List.length hr
  rw [List.length_append, Parse.length_emissions] at hlen
  have hold : p.emissions[i]? = some q := by rwa [← hr, List.getElem?_append_left hi]
  exact (h.spelled i q hold).congr fun j hj => Parse.entryBehind_next hok (by omega)

theorem Parse.Traced.run (h : p.Traced M) (hok : p.Ok M) (hM : M ≤ 4096) (ys : List Symbol) :
    (p.run M ys).Traced M := by
  induction ys generalizing p with
  | nil => exact h
  | cons y ys ih => exact ih (h.next hok hM y) (hok.next hM y)

theorem traced_parseOf (hM : 256 ≤ M ∧ M ≤ 4096) (x : Symbol) (xs : List Symbol) : (parseOf M x xs).Traced M :=
  (Parse.Traced.start hM.1 x).run (Parse.Ok.start hM.1 x) hM.2 xs

/-! ### Translating the codes -/

/-- Every code is one DECODE accepts at its place (R146, R158). -/
theorem SpelledAll.accepted (h : SpelledAll M E) (hM : 256 ≤ M) (hq : E[i]? = some q) : Accepted M (E.map (·.2)) i := by
  rw [Accepted, getD_codes hq]
  cases h i q hq with
  | seed hk => omega
  | learned j hj hroom hk => omega

theorem SpelledAll.acceptedTo (h : SpelledAll M E) (hM : 256 ≤ M) (hi : i < E.length) :
    AcceptedTo M (E.map (·.2)) i :=
  fun _ hj => h.accepted hM (List.getElem?_eq_getElem (hj.trans_lt hi))

theorem SpelledAll.head? (h : SpelledAll M E) (hM : 256 ≤ M) (hq : E[i]? = some q) :
    q.1.head? = some (headSymbol (E.map (·.2)) i) := by
  induction i using Nat.strong_induction_on generalizing q with
  | _ i ih =>
    have hi := (List.getElem?_eq_some_iff.1 hq).1
    rw [headSymbol_eq (h.acceptedTo hM hi) (by simpa using hi.le), getD_codes hq]
    cases h i q hq with
    | seed hk hm =>
      rw [if_pos hk, hm]
      rfl
    | learned j hj hroom hk hm =>
      have hj' := List.getElem?_eq_getElem (hj.trans hi)
      have hnext := List.getElem?_eq_getElem (show j + 1 < E.length by omega)
      rw [hm, entryBehind_map hj' hnext, if_neg (by omega), hk, Nat.add_sub_cancel_left, List.head?_append, ih j hj hj']
      rfl

/-- The translation without a table gives every match back (R166). -/
theorem SpelledAll.trans (h : SpelledAll M E) (hM : 256 ≤ M) (hq : E[i]? = some q) : trans (E.map (·.2)) i = q.1 := by
  induction i using Nat.strong_induction_on generalizing q with
  | _ i ih =>
    have hi := (List.getElem?_eq_some_iff.1 hq).1
    rw [trans_eq (h.acceptedTo hM hi) (by simpa using hi.le), getD_codes hq]
    cases h i q hq with
    | seed hk hm => rw [if_pos hk, hm]
    | learned j hj hroom hk hm =>
      have hj' := List.getElem?_eq_getElem (hj.trans hi)
      have hnext := List.getElem?_eq_getElem (show j + 1 < E.length by omega)
      rw [hm, entryBehind_map hj' hnext, if_neg (by omega), hk, Nat.add_sub_cancel_left, learnedEntry, ih j hj hj',
        h.head? hM hnext]
      rfl

theorem SpelledAll.transAll (h : SpelledAll M E) (hM : 256 ≤ M) :
    transAll (E.map (·.2)) E.length = (E.map (·.1)).flatten := by
  rw [Reference.transAll]
  congr 1
  refine List.ext_getElem (by simp) fun i hi hi' => ?_
  rw [List.getElem_map, List.getElem_range, List.getElem_map]
  exact h.trans hM (List.getElem?_eq_getElem (by simpa using hi'))

/-! ### The codes of an input -/

variable {x : Symbol} {xs : List Symbol}

theorem accepted_greedyCodes (hM : 256 ≤ M ∧ M ≤ 4096) (hi : i < (greedyCodes M (x :: xs)).length) :
    Accepted M (greedyCodes M (x :: xs)) i := by
  rw [greedyCodes_cons hM] at hi ⊢
  rw [List.length_map] at hi
  exact (traced_parseOf hM x xs).spelled.accepted hM.1 (List.getElem?_eq_getElem hi)

/-- The codes of an input translate to the input (R166). -/
theorem transAll_greedyCodes (hM : 256 ≤ M ∧ M ≤ 4096) (x : Symbol) (xs : List Symbol) :
    transAll (greedyCodes M (x :: xs)) (greedyCodes M (x :: xs)).length = x :: xs := by
  rw [greedyCodes_cons hM, List.length_map]
  exact ((traced_parseOf hM x xs).spelled.transAll hM.1).trans (text_parseOf M x xs)

end Sys2Proof.Reference
end

section
/-! DECODE of what ENCODE wrote (R166). -/

namespace Sys2Proof.Machine

open Sys2Proof.Reference

variable {s t : State} {sn : Snapshot} {xs : List Symbol}

theorem exec_encode_issued (s : State) : exec .encode (s.issued .encode) = exec .encode s :=
  runCommand_issued .encode storeCode encodeBody s

theorem issued_engine_of_starts {op : Instr} (h : Starts op s sn) :
    (s.issued op).engine = some (Engine.fresh op sn) := (s.issued_engine op).trans (congrArg some h)

/-- ENCODE from its start keeps the invariant, also where it has to be issued first. -/
theorem inv_of_encode (hs : Inv s) (hstarts : Starts .encode s sn) (ht : exec .encode s = .next t) : Inv t :=
  inv_exec (hs.issued .encode) (issued_engine_of_starts hstarts) ((exec_encode_issued s).trans ht)

/-- A command that has ended with DONE has no end in error. -/
theorem not_endsErr_of_done {op : Instr} {t' : State} {code : BitVec 4} {idx n : Nat} (ht : exec op s = .next t)
    (hdone : t.done = true) (ht' : exec op s = .next t') : ¬ EndsErr t' code idx n := by
  rintro ⟨-, hnot, -⟩
  cases ht.symm.trans ht'
  cases hdone.symm.trans hnot

/-- An ENCODE that ends with DONE has none of the reasons for an error (R145): its regions are in range, it has an
input, and room for the codes. -/
theorem checks_of_encode_done (hs : Inv s) (hstarts : Starts .encode s sn) (hlen : xs.length = sn.sl.toNat)
    (hsrc : ramRange s.sym sn.sb.toNat xs.length = xs.map some) (ht : exec .encode s = .next t)
    (hdone : t.done = true) :
    Fits s.cfg .encode sn ∧ xs ≠ [] ∧ (greedyCodes s.cfg.maxEntries xs).length ≤ sn.dc.toNat := by
  have hfit : Fits s.cfg .encode sn := by
    by_contra hfit
    rw [← (State.issued_kept .encode s).1] at hfit
    obtain ⟨t', ht', hend, -⟩ :=
      rangeEndsEveryCommand _ _ sn (hs.issued .encode) (issued_engine_of_starts hstarts) hfit
    exact not_endsErr_of_done ht hdone ((exec_encode_issued s).symm.trans ht') hend
  have hne : xs ≠ [] := by
    rintro rfl
    obtain ⟨t', ht', hend, -⟩ := emptyInputEndsCodecCommands s .encode sn hs (.inl rfl) hstarts hfit
      (BitVec.eq_of_toNat_eq hlen.symm)
    exact not_endsErr_of_done ht hdone ht' hend
  refine ⟨hfit, hne, Nat.le_of_not_lt fun hover => ?_⟩
  obtain ⟨t', ht', hend, -⟩ := encodeOverflowsAtEmission s sn xs hs hstarts hfit hne hlen hsrc hover
  exact not_endsErr_of_done ht hdone ht' hend

/-- Settles O44: ENCODE has written the reference's codes, which are accepted and translate to the input. -/
theorem lzwRoundTrip : Obligations.LzwRoundTrip := by
  unfold Obligations.LzwRoundTrip
  intro s t sn input db2 dc2 hs hstarts hlen hsrc ht hdone hregion hroom
  obtain ⟨hfit, hne, hfits⟩ := checks_of_encode_done hs hstarts hlen hsrc ht hdone
  obtain ⟨⟨hcfg, -⟩, -⟩ := encodeFrame s t ht
  have hinv := inv_of_encode hs hstarts ht
  obtain ⟨t', ht', ⟨hidle, -, -, -, hresult, -⟩, hcodes, hsize⟩ :=
    encodeWritesGreedyCodes s sn input hs hstarts hfit hne hlen hsrc hfits
  cases ht.symm.trans ht'
  obtain ⟨x, xs, rfl⟩ := List.exists_cons_of_ne_nil hne
  have hcount : t.resultLen.toNat = (greedyCodes s.cfg.maxEntries (x :: xs)).length := by
    rw [hresult, BitVec.toNat_ofNat, Nat.mod_eq_of_lt (hfits.trans_lt sn.dc.isLt)]
  have hpos := length_greedyCodes_pos hs.cap x xs
  have htrans := transAll_greedyCodes hs.cap x xs
  rw [← hcfg] at hcount hregion hcodes hsize hfits hpos htrans hfit
  have hsource : sn.db.toNat + t.resultLen.toNat ≤ t.cfg.codeDepth :=
    (Nat.add_le_add_left (hcount.trans_le hfits) _).trans hfit.2
  obtain ⟨v, hv, hend, hsym, hsize'⟩ := decodeWritesTranslations
    { t with srcBase := sn.db, srcLen := t.resultLen, dstBase := db2, dstCap := dc2 }
    ⟨sn.db, t.resultLen, db2, dc2, t.rowWidth⟩ (greedyCodes t.cfg.maxEntries (x :: xs))
    (hinv.withOperands hidle sn.db t.resultLen db2 dc2 t.rowWidth t.draws) (State.engineFor_of_none .decode hidle)
    ⟨hsource, hregion⟩ (List.length_pos_iff.1 hpos) hcount.symm hcodes (fun i => accepted_greedyCodes hinv.cap)
    (htrans.symm ▸ hroom)
  rw [htrans] at hend hsym
  exact ⟨v, hv, hend, hsym, BitVec.eq_of_toNat_eq (hsize'.trans hsize.symm)⟩

end Sys2Proof.Machine
end

section
/-! The BitFramer primitives by their values (R175 to R178): the bytes of a CodePack and of a header word are the digits
of one number. -/

namespace Sys2Proof.Machine

open Sys2Proof.Reference

/-! ### Fields side by side -/

/-- A field shifted above another one is added to it. -/
theorem toNat_or_shiftLeft {n m : Nat} {x y : BitVec n} (hx : x.toNat < 2 ^ m) (hy : y.toNat * 2 ^ m < 2 ^ n) :
    (x ||| y <<< m).toNat = x.toNat + y.toNat * 2 ^ m := by
  rw [BitVec.toNat_or, BitVec.toNat_shiftLeft, Nat.shiftLeft_eq, Nat.mod_eq_of_lt hy, Nat.or_comm, ← Nat.shiftLeft_eq,
    ← Nat.shiftLeft_add_eq_or_of_lt hx, Nat.add_comm, Nat.shiftLeft_eq]

theorem toNat_append_nibbles (x y : BitVec 4) : (x ++ y).toNat = y.toNat + x.toNat * 2 ^ 4 := by
  rw [BitVec.toNat_append, ← Nat.shiftLeft_add_eq_or_of_lt y.isLt, Nat.shiftLeft_eq, Nat.add_comm]

theorem toNat_extractLsb'_eq {n : Nat} (start len : Nat) (x : BitVec n) :
    (x.extractLsb' start len).toNat = x.toNat / 2 ^ start % 2 ^ len := by
  rw [BitVec.extractLsb'_toNat, Nat.shiftRight_eq_div_pow]

/-! ### CodePacks -/

theorem toNat_packValue (c1 c2 : Code) : (packValue c1 c2).toNat = c1.toNat + c2.toNat * 2 ^ 12 := by
  have h1 : (c1.setWidth 24).toNat = c1.toNat := BitVec.toNat_setWidth_of_le (by decide)
  have h2 : (c2.setWidth 24).toNat = c2.toNat := BitVec.toNat_setWidth_of_le (by decide)
  rw [packValue, toNat_or_shiftLeft (by omega) (by omega), h1, h2]

theorem toNat_unpackFirst (b0 b1 : Byte) : (unpackFirst b0 b1).toNat = b0.toNat + b1.toNat % 16 * 2 ^ 8 := by
  have h0 : (b0.setWidth 12).toNat = b0.toNat := BitVec.toNat_setWidth_of_le (by decide)
  have h1 : ((b1 &&& 0x0F#8).setWidth 12).toNat = b1.toNat % 16 := by
    rw [BitVec.toNat_setWidth_of_le (by decide), BitVec.toNat_and]
    exact Nat.and_two_pow_sub_one_eq_mod _ 4
  rw [unpackFirst, toNat_or_shiftLeft (by omega) (by omega), h0, h1]

theorem toNat_unpackSecond (b1 b2 : Byte) : (unpackSecond b1 b2).toNat = b1.toNat / 16 + b2.toNat * 2 ^ 4 := by
  have h1 : ((b1 >>> 4).setWidth 12).toNat = b1.toNat / 16 := by
    rw [BitVec.toNat_setWidth_of_le (by decide), BitVec.toNat_ushiftRight, Nat.shiftRight_eq_div_pow]
  have h2 : (b2.setWidth 12).toNat = b2.toNat := BitVec.toNat_setWidth_of_le (by decide)
  rw [unpackSecond, toNat_or_shiftLeft (by omega) (by omega), h1, h2]

/-- Three bytes are the CodePack of two codes exactly when they are the digits of its value (R82, R175). -/
theorem pack_eq_iff {c1 c2 : Code} {b0 b1 b2 : Byte} :
    pack c1 c2 = [b0, b1, b2] ↔
      c1.toNat + c2.toNat * 2 ^ 12 = b0.toNat + b1.toNat * 2 ^ 8 + b2.toNat * 2 ^ 16 := by
  simp only [pack, List.cons.injEq, and_true, ← BitVec.toNat_inj, toNat_extractLsb'_eq, toNat_packValue]
  omega

/-- Settles O4: the nibbles spell the value of the CodePack. -/
theorem packBitLayout : Obligations.PackBitLayout := by
  unfold Obligations.PackBitLayout
  intro c1 c2
  rw [pack_eq_iff]
  simp only [toNat_append_nibbles, toNat_extractLsb'_eq]
  omega

/-- The bytes of a CodePack give its two codes back (R177). -/
theorem unpack_of_pack {c1 c2 : Code} {b0 b1 b2 : Byte} (h : pack c1 c2 = [b0, b1, b2]) :
    unpackFirst b0 b1 = c1 ∧ unpackSecond b1 b2 = c2 := by
  rw [pack_eq_iff] at h
  rw [← BitVec.toNat_inj, ← BitVec.toNat_inj, toNat_unpackFirst, toNat_unpackSecond]
  omega

/-- Settles O5: either way the two codes and the three bytes spell one value. -/
theorem packUnpackInverse : Obligations.PackUnpackInverse := by
  unfold Obligations.PackUnpackInverse
  refine ⟨fun c1 c2 => ⟨_, _, _, rfl, unpack_of_pack rfl⟩, fun b0 b1 b2 => ?_⟩
  rw [pack_eq_iff, toNat_unpackFirst, toNat_unpackSecond]
  omega

/-! ### Header words -/

theorem toNat_le32Word (b0 b1 b2 b3 : Byte) :
    (le32Word b0 b1 b2 b3).toNat = b0.toNat + b1.toNat * 2 ^ 8 + b2.toNat * 2 ^ 16 + b3.toNat * 2 ^ 24 := by
  have hbyte (b : Byte) : (b.setWidth 32).toNat = b.toNat := BitVec.toNat_setWidth_of_le (by decide)
  have h0 := hbyte b0
  have h1 := hbyte b1
  have h2 := hbyte b2
  have h3 := hbyte b3
  have h01 : (b0.setWidth 32 ||| b1.setWidth 32 <<< 8).toNat = b0.toNat + b1.toNat * 2 ^ 8 := by
    rw [toNat_or_shiftLeft (by omega) (by omega), h0, h1]
  have h012 : (b0.setWidth 32 ||| b1.setWidth 32 <<< 8 ||| b2.setWidth 32 <<< 16).toNat =
      b0.toNat + b1.toNat * 2 ^ 8 + b2.toNat * 2 ^ 16 := by
    rw [toNat_or_shiftLeft (by omega) (by omega), h01, h2]
  rw [le32Word, toNat_or_shiftLeft (by omega) (by omega), h012, h3]

/-- Four bytes are those of a header word exactly when they are the digits of its value (R178). -/
theorem le32Bytes_eq_iff {v : Word} {b0 b1 b2 b3 : Byte} :
    le32Bytes v = [b0, b1, b2, b3] ↔
      v.toNat = b0.toNat + b1.toNat * 2 ^ 8 + b2.toNat * 2 ^ 16 + b3.toNat * 2 ^ 24 := by
  simp only [le32Bytes, List.cons.injEq, and_true, ← BitVec.toNat_inj, toNat_extractLsb'_eq]
  omega

/-- The word of a header word's bytes is that word. -/
theorem le32Word_of_le32Bytes {v : Word} {b0 b1 b2 b3 : Byte} (h : le32Bytes v = [b0, b1, b2, b3]) :
    le32Word b0 b1 b2 b3 = v := by
  rw [← BitVec.toNat_inj, toNat_le32Word, le32Bytes_eq_iff.1 h]

theorem le32Bytes_eq_wordBytes (v : Word) : le32Bytes v = wordBytes v := by
  rw [wordBytes, le32Bytes_eq_iff]
  simp only [BitVec.toNat_ofNat]
  omega

theorem streamByte_of_read {op : Instr} {m : List (Nat × BitVec 8)} {a : Nat} {b : Byte} (h : ramRead m a = some b) :
    streamByte op m a = .ok b := by rw [streamByte, h]

/-- The bytes of a header word in STREAM are read as that word (R178). -/
theorem le32Read_of_le32Bytes {op : Instr} {m : List (Nat × BitVec 8)} {a : Nat} {v : Word}
    (h : ramRange m a 4 = (le32Bytes v).map some) : le32Read op m a = .ok v := by
  obtain ⟨b0, b1, b2, b3, hbytes⟩ : ∃ b0 b1 b2 b3, le32Bytes v = [b0, b1, b2, b3] := ⟨_, _, _, _, rfl⟩
  rw [hbytes] at h
  obtain ⟨h0, h1, h2, h3⟩ : ramRead m a = some b0 ∧ ramRead m (a + 1) = some b1 ∧ ramRead m (a + 2) = some b2 ∧
      ramRead m (a + 3) = some b3 := by
    simpa only [ramRange, List.map_cons, List.map_nil, List.cons.injEq, and_true, Nat.add_assoc, Nat.reduceAdd] using h
  rw [le32Read, streamByte_of_read h0, streamByte_of_read h1, streamByte_of_read h2, streamByte_of_read h3]
  exact congrArg Except.ok (le32Word_of_le32Bytes hbytes)

/-- Settles O6: bytes and word are the digits and the value of one number. -/
theorem headerWordBytes : Obligations.HeaderWordBytes := by
  unfold Obligations.HeaderWordBytes
  exact fun v op m a => ⟨le32Bytes_eq_wordBytes v, le32Read_of_le32Bytes⟩

end Sys2Proof.Machine
end

section
/-! The CodePack bytes and codes of the reference (R82, R83) as the primitives make them. -/

namespace Sys2Proof.Reference

open Sys2Proof.Machine

variable {cs : List Code}

theorem packedBytes_singleton (a : Code) : packedBytes [a] = pack a 0#12 := by
  refine Eq.symm (pack_eq_iff.2 ?_)
  simp only [BitVec.toNat_ofNat]
  omega

theorem packedBytes_cons_cons (a b : Code) (rest : List Code) :
    packedBytes (a :: b :: rest) = pack a b ++ packedBytes rest := by
  refine congrArg (· ++ packedBytes rest) (Eq.symm (pack_eq_iff.2 ?_))
  simp only [BitVec.toNat_ofNat]
  omega

theorem unpackedCodes_cons (b0 b1 b2 : Byte) (rest : List Byte) :
    unpackedCodes (b0 :: b1 :: b2 :: rest) = [unpackFirst b0 b1, unpackSecond b1 b2] ++ unpackedCodes rest := by
  have hfirst : BitVec.ofNat 12 (b0.toNat + 256 * (b1.toNat % 16)) = unpackFirst b0 b1 := by
    rw [← BitVec.toNat_inj, toNat_unpackFirst, BitVec.toNat_ofNat]
    omega
  have hsecond : BitVec.ofNat 12 (b1.toNat / 16 + 16 * b2.toNat) = unpackSecond b1 b2 := by
    rw [← BitVec.toNat_inj, toNat_unpackSecond, BitVec.toNat_ofNat]
    omega
  rw [unpackedCodes, hfirst, hsecond]
  rfl

theorem length_packedBytes : ∀ cs : List Code, (packedBytes cs).length = 3 * packCount cs.length
  | [] | [_] => by simp [packedBytes, packCount]
  | a :: b :: rest => by
    simp only [packedBytes, List.length_cons, length_packedBytes rest, packCount]
    omega

theorem length_unpackedCodes : ∀ bs : List Byte, (unpackedCodes bs).length = 2 * (bs.length / 3)
  | [] | [_] | [_, _] => by simp [unpackedCodes]
  | b0 :: b1 :: b2 :: rest => by
    simp only [unpackedCodes, List.length_cons, length_unpackedCodes rest]
    omega

/-- The packs of a code list hold its codes, with at most one code of padding behind them (R83, R177). -/
theorem take_unpackedCodes_packedBytes : ∀ cs : List Code, (unpackedCodes (packedBytes cs)).take cs.length = cs
  | [] => rfl
  | [a] => by
    obtain ⟨b0, b1, b2, hpack⟩ : ∃ b0 b1 b2, pack a 0#12 = [b0, b1, b2] := ⟨_, _, _, rfl⟩
    obtain ⟨hfirst, -⟩ := unpack_of_pack hpack
    rw [packedBytes_singleton, hpack, unpackedCodes_cons, hfirst]
    rfl
  | a :: b :: rest => by
    obtain ⟨b0, b1, b2, hpack⟩ : ∃ b0 b1 b2, pack a b = [b0, b1, b2] := ⟨_, _, _, rfl⟩
    obtain ⟨hfirst, hsecond⟩ := unpack_of_pack hpack
    rw [packedBytes_cons_cons, hpack]
    show (unpackedCodes (b0 :: b1 :: b2 :: packedBytes rest)).take _ = _
    rw [unpackedCodes_cons, hfirst, hsecond]
    exact congrArg (a :: b :: ·) (take_unpackedCodes_packedBytes rest)

end Sys2Proof.Reference
end

section
/-! The framing commands' walks over written elements, where there is room: each is one piece of output. -/

namespace Sys2Proof.Machine

open Sys2Proof.Reference

variable {w n idx : Nat} {op : Instr} {x : Work w} {vs : List (BitVec w)}

/-! ### A piece of output -/

/-- The work behind `n` further source elements, for which the elements `vs` have been written. -/
def Work.wrote (n : Nat) (vs : List (BitVec w)) (x : Work w) : Work w :=
  { x with eng := { x.eng with i := x.eng.i + n, o := x.eng.o + vs.length }, out := x.out ++ vs }

@[simp] theorem Work.wrote_dc (n : Nat) (vs : List (BitVec w)) (x : Work w) : (x.wrote n vs).eng.dc = x.eng.dc := rfl
@[simp] theorem Work.wrote_i (n : Nat) (vs : List (BitVec w)) (x : Work w) : (x.wrote n vs).eng.i = x.eng.i + n := rfl
@[simp] theorem Work.wrote_o (n : Nat) (vs : List (BitVec w)) (x : Work w) :
    (x.wrote n vs).eng.o = x.eng.o + vs.length := rfl

@[simp] theorem Work.wrote_nothing (x : Work w) : x.wrote 0 [] = x := by simp [Work.wrote]

theorem Work.wrote_wrote (n k : Nat) (us vs : List (BitVec w)) (x : Work w) :
    (x.wrote n us).wrote k vs = x.wrote (n + k) (us ++ vs) := by simp [Work.wrote, Nat.add_assoc]

theorem putAll_of_room (h : x.eng.o + vs.length ≤ x.eng.dc) : putAll vs idx x = .ok (x.wrote 0 vs) :=
  putAll_ok vs idx x h

theorem putAll_advance_of_room (h : x.eng.o + vs.length ≤ x.eng.dc) :
    ((putAll vs idx x).andThen fun y => .ok (y.advance n)) = .ok (x.wrote n vs) := by
  rw [putAll_ok vs idx x h]
  rfl

/-! ### PACK and CWRITE -/

/-- The packs of written codes (R83, R180). -/
theorem packLoop_of_room : ∀ (cs : List Code) {x : Work 8}, x.eng.o + (packedBytes cs).length ≤ x.eng.dc →
    packLoop op (cs.map some) x = .ok (x.wrote cs.length (packedBytes cs))
  | [], x, _ => congrArg Res.ok x.wrote_nothing.symm
  | [a], x, h => by
    rw [packedBytes_singleton] at h ⊢
    exact putAll_advance_of_room h
  | a :: b :: rest, x, h => by
    rw [packedBytes_cons_cons, List.length_append] at h
    have hgroup : ((putAll (pack a b) x.eng.i x).andThen fun y => .ok (y.advance 2)) = .ok (x.wrote 2 (pack a b)) :=
      putAll_advance_of_room (by omega)
    simp only [List.map_cons, packLoop]
    rw [hgroup, Res.andThen_ok, packLoop_of_room rest (by rw [Work.wrote_o, Work.wrote_dc]; omega), Work.wrote_wrote,
      packedBytes_cons_cons, List.length_cons, List.length_cons, Nat.add_comm 2]

/-! ### UNPACK and CREAD -/

/-- The codes a walk over whole groups writes for the bytes from stream offset `i` on. -/
def groupCodes (codes : Nat → Byte → Byte → Byte → List Code) (i : Nat) : List Byte → List Code
  | b0 :: b1 :: b2 :: rest => codes i b0 b1 b2 ++ groupCodes codes (i + 3) rest
  | _ => []

theorem groupCodes_unpackedPair (i : Nat) : ∀ bs : List Byte, groupCodes unpackedPair i bs = unpackedCodes bs
  | [] | [_] | [_, _] => rfl
  | b0 :: b1 :: b2 :: rest => by
    rw [unpackedCodes_cons, groupCodes, groupCodes_unpackedPair (i + 3) rest]
    rfl

/-- CREAD makes of its groups the declared codes: of the last one only the first code where the count is odd (R192). -/
theorem groupCodes_declaredCodes (j : Nat) : ∀ (bs : List Byte) (r : Nat), bs.length = 3 * packCount r →
    groupCodes (declaredCodes (2 * j + r)) (8 + 3 * j) bs = (unpackedCodes bs).take r
  | [], 0, _ => rfl
  | b0 :: b1 :: b2 :: rest, 0, h => by cases h
  | b0 :: b1 :: b2 :: rest, 1, h => by
    obtain rfl : rest = [] := by simpa [packCount] using h
    have hodd : ¬ 2 * ((8 + 3 * j - 8) / 3) + 1 < 2 * j + 1 := by omega
    rw [unpackedCodes_cons, groupCodes, declaredCodes, if_neg hodd]
    rfl
  | b0 :: b1 :: b2 :: rest, r + 2, h => by
    have hrest : rest.length = 3 * packCount r := by
      simp only [List.length_cons, packCount] at h ⊢
      omega
    have hpair : 2 * ((8 + 3 * j - 8) / 3) + 1 < 2 * j + (r + 2) := by omega
    have hgroups := groupCodes_declaredCodes (j + 1) rest r hrest
    rw [show 2 * (j + 1) + r = 2 * j + (r + 2) by omega, show 8 + 3 * (j + 1) = 8 + 3 * j + 3 by omega] at hgroups
    rw [unpackedCodes_cons, groupCodes, declaredCodes, if_pos hpair, hgroups]
    rfl
  | [], r + 1, h | [_], r, h | [_, _], r, h => by
    simp only [List.length_cons, List.length_nil, packCount] at h
    omega

/-- The groups of written bytes (R184, R192). -/
theorem groupLoop_of_room (codes : Nat → Byte → Byte → Byte → List Code) : ∀ (bs : List Byte) {x : Work 12},
    x.eng.o + (groupCodes codes x.eng.i bs).length ≤ x.eng.dc →
    groupLoop op codes (bs.map some) x = .ok (x.wrote (3 * (bs.length / 3)) (groupCodes codes x.eng.i bs))
  | [], x, _ | [_], x, _ | [_, _], x, _ => by simp [groupLoop, groupCodes]
  | b0 :: b1 :: b2 :: rest, x, h => by
    rw [groupCodes, List.length_append] at h
    have hgroup : readGroup op codes (some b0) (some b1) (some b2) x = .ok (x.wrote 3 (codes x.eng.i b0 b1 b2)) :=
      putAll_advance_of_room (by omega)
    have hlen : 3 + 3 * (rest.length / 3) = 3 * ((rest.length + 3) / 3) := by omega
    simp only [List.map_cons, groupLoop]
    rw [hgroup, Res.andThen_ok,
      groupLoop_of_room codes rest (by rw [Work.wrote_o, Work.wrote_dc, Work.wrote_i]; omega), Work.wrote_wrote,
      Work.wrote_i, hlen]
    rfl

end Sys2Proof.Machine
end

section
/-! PACK and UNPACK as whole commands (R180, R184). -/

namespace Sys2Proof.Machine

open Sys2Proof.Reference

variable {w n i : Nat} {c : Config} {s : State} {op : Instr} {sn : Snapshot} {cs : List Code} {bs : List Byte}

/-! ### The end of a running command by its body -/

section
variable {store : Store w} {body : State → Engine → Res (Work w)} {m : RamId} {x : Work w} {E : ErrCode}

theorem completes_of_body (hs : Inv s) (he : s.engine = some (Engine.fresh op sn)) (hstore : StoresInto m store)
    (hbody : body s (Engine.fresh op sn) = .ok x) (hn : x.eng.o = n) :
    runCommand op store body s = .next
      { (store sn.db.toNat x.out s).settle op x with
        resultLen := BitVec.ofNat 32 n, done := true, error := false, errCode := 0#4, errIndex := 0#32 } := by
  rw [runCommand_of_running he, hbody, finish_ok, (hstore.recordClear (hs.recordClear he) _ _).complete_eq, ← hn]
  rfl

/-- The error of a body that has written nothing (R203). -/
theorem raises_of_body (hs : Inv s) (he : s.engine = some (Engine.fresh op sn)) (hstore : ∀ a s, store a [] s = s)
    (hbody : body s (Engine.fresh op sn) = .err E i x) (hout : x.out = []) :
    runCommand op store body s = .next
      { s.settle op x with done := false, error := true, errCode := E.code, errIndex := BitVec.ofNat 32 i } := by
  rw [runCommand_of_running he, hbody, finish_err, hout, hstore, (hs.recordClear he).raiseErr_eq]

end

/-- A written sequence is read back, and every element outside it as before. -/
theorem written_and_kept (m : List (Nat × BitVec w)) (a : Nat) {vs : List (BitVec w)} (hn : vs.length = n) :
    ramRange (ramWriteSeq m a vs) a n = vs.map some ∧ OutsideKept m (ramWriteSeq m a vs) a n := by
  subst hn
  exact ⟨ramRange_ramWriteSeq _ _ _, fun _ hb => ramRead_ramWriteSeq_out _ _ _ hb⟩

/-- A body whose regions fit goes on behind the region checks (R105). -/
theorem checkRegions_andThen_of_fits (hfit : Fits c op sn) (k : Work w → Res (Work w)) :
    (checkRegions (ramDepth c (sourceRam op)) (ramDepth c (destRam op)) (Work.start w (Engine.fresh op sn))).andThen k =
      k (Work.start w (Engine.fresh op sn)) := by
  have hchecks : checkRegions (ramDepth c (sourceRam op)) (ramDepth c (destRam op))
      (Work.start w (Engine.fresh op sn)) = .ok _ := checkRegions_of_fits hfit
  rw [hchecks, Res.andThen_ok]

/-! ### PACK -/

theorem packOpen_of_fits (hfit : Fits c .pack sn) :
    packOpen c (Work.start 8 (Engine.fresh .pack sn)) =
      if 3 * packCount sn.sl.toNat > sn.dc.toNat then .err .dstOverflow 0 (Work.start 8 (Engine.fresh .pack sn))
      else .ok (Work.start 8 (Engine.fresh .pack sn)) := checkRegions_andThen_of_fits hfit _

theorem packBody_overflows (hfit : Fits s.cfg .pack sn) (hover : sn.dc.toNat < 3 * packCount sn.sl.toNat) :
    packBody s (Engine.fresh .pack sn) = .err .dstOverflow 0 (Work.start 8 (Engine.fresh .pack sn)) := by
  rw [packBody, packPart, packOpen_of_fits hfit, if_pos hover, Res.andThen_err]

/-- The walk of PACK and CWRITE over a source region that is written, with room for all packs. -/
theorem packCodes_of_room {x : Work 8} (hi : x.eng.i = 0) (hlen : cs.length = x.eng.sl)
    (hsrc : ramRange s.code x.eng.sb cs.length = cs.map some) (hroom : x.eng.o + 3 * packCount x.eng.sl ≤ x.eng.dc) :
    packCodes op x.eng.sl s x = .ok (x.wrote cs.length (packedBytes cs)) := by
  rw [packCodes, hi, Nat.sub_zero, Nat.min_self, Nat.add_zero, ← hlen, hsrc]
  exact packLoop_of_room cs (by rwa [length_packedBytes, hlen])

theorem packBody_of_room (hfit : Fits s.cfg .pack sn) (hroom : 3 * packCount sn.sl.toNat ≤ sn.dc.toNat)
    (hlen : cs.length = sn.sl.toNat) (hsrc : ramRange s.code sn.sb.toNat cs.length = cs.map some) :
    packBody s (Engine.fresh .pack sn) =
      .ok ((Work.start 8 (Engine.fresh .pack sn)).wrote cs.length (packedBytes cs)) := by
  rw [packBody, packPart, packOpen_of_fits hfit, if_neg (Nat.not_lt.2 hroom), Res.andThen_ok]
  exact packCodes_of_room (x := Work.start 8 (Engine.fresh .pack sn)) rfl hlen hsrc ((Nat.zero_add _).trans_le hroom)

/-- Settles O49: PACK's checks decide between its ends, and its walk writes the packs. -/
theorem packWritesCodePacks : Obligations.PackWritesCodePacks := by
  unfold Obligations.PackWritesCodePacks
  intro s sn hs he
  refine ⟨fun hfit => ?range, fun hfit hover => ?overflow, fun hfit hroom cs hlen hsrc => ?packs⟩
  case range =>
    obtain ⟨t, ht, hend, -, -, -, -, -, hstream⟩ := endsUntouched_range hs he hfit
    exact ⟨t, ht, hend, hstream⟩
  case overflow =>
    exact ⟨_, raises_of_body hs he (fun _ _ => rfl) (packBody_overflows hfit hover) rfl,
      ⟨rfl, rfl, rfl, rfl, rfl, rfl⟩, rfl⟩
  case packs =>
    have hcount : (packedBytes cs).length = 3 * ((sn.sl.toNat + 1) / 2) := by rw [length_packedBytes, hlen, packCount]
    exact ⟨_, _, completes_of_body hs he storesInto_storeStream (packBody_of_room hfit hroom hlen hsrc)
      ((Nat.zero_add _).trans hcount), written_and_kept _ _ hcount⟩

/-! ### UNPACK -/

theorem unpackOpen_of_fits (hfit : Fits c .unpack sn) :
    unpackOpen c (Work.start 12 (Engine.fresh .unpack sn)) =
      if sn.sl.toNat % 3 ≠ 0 then
        .err .truncatedFrame (sn.sl.toNat - sn.sl.toNat % 3) (Work.start 12 (Engine.fresh .unpack sn))
      else if 2 * (sn.sl.toNat / 3) > sn.dc.toNat then
        .err .dstOverflow 0 (Work.start 12 (Engine.fresh .unpack sn))
      else .ok (Work.start 12 (Engine.fresh .unpack sn)) := checkRegions_andThen_of_fits hfit _

theorem unpackBody_truncated (hfit : Fits s.cfg .unpack sn) (hpart : sn.sl.toNat % 3 ≠ 0) :
    unpackBody s (Engine.fresh .unpack sn) =
      .err .truncatedFrame (sn.sl.toNat - sn.sl.toNat % 3) (Work.start 12 (Engine.fresh .unpack sn)) := by
  rw [unpackBody, unpackPart, unpackOpen_of_fits hfit, if_pos hpart, Res.andThen_err]

theorem unpackBody_overflows (hfit : Fits s.cfg .unpack sn) (hwhole : sn.sl.toNat % 3 = 0)
    (hover : sn.dc.toNat < 2 * (sn.sl.toNat / 3)) :
    unpackBody s (Engine.fresh .unpack sn) = .err .dstOverflow 0 (Work.start 12 (Engine.fresh .unpack sn)) := by
  rw [unpackBody, unpackPart, unpackOpen_of_fits hfit, if_neg (not_not.2 hwhole), if_pos hover, Res.andThen_err]

theorem unpackBody_of_room (hfit : Fits s.cfg .unpack sn) (hwhole : sn.sl.toNat % 3 = 0)
    (hroom : 2 * (sn.sl.toNat / 3) ≤ sn.dc.toNat) (hlen : bs.length = sn.sl.toNat)
    (hsrc : ramRange s.stream sn.sb.toNat bs.length = bs.map some) :
    unpackBody s (Engine.fresh .unpack sn) =
      .ok ((Work.start 12 (Engine.fresh .unpack sn)).wrote (3 * (bs.length / 3)) (unpackedCodes bs)) := by
  have hrange : min sn.sl.toNat (sn.sl.toNat - 0) = bs.length := by omega
  have hwritten : 0 + (groupCodes unpackedPair 0 bs).length ≤ sn.dc.toNat := by
    rwa [groupCodes_unpackedPair, length_unpackedCodes, hlen, Nat.zero_add]
  rw [unpackBody, unpackPart, unpackOpen_of_fits hfit, if_neg (not_not.2 hwhole), if_neg (Nat.not_lt.2 hroom),
    Res.andThen_ok, unpackLoop_eq]
  show groupLoop .unpack unpackedPair (ramRange s.stream (sn.sb.toNat + 0) (min sn.sl.toNat (sn.sl.toNat - 0))) _ = _
  rw [hrange, Nat.add_zero, hsrc, ← groupCodes_unpackedPair 0 bs]
  exact groupLoop_of_room unpackedPair bs hwritten

/-- Settles O50: UNPACK's checks decide between its ends, and its walk writes the codes of the groups. -/
theorem unpackWritesCodes : Obligations.UnpackWritesCodes := by
  unfold Obligations.UnpackWritesCodes
  intro s sn hs he
  refine ⟨fun hfit => ?range, fun hfit hpart => ?truncated, fun hfit hwhole hover => ?overflow,
    fun hfit hwhole hroom bs hlen hsrc => ?codes⟩
  case range =>
    obtain ⟨t, ht, hend, -, -, -, -, hcode, -⟩ := endsUntouched_range hs he hfit
    exact ⟨t, ht, hend, hcode⟩
  case truncated =>
    exact ⟨_, raises_of_body hs he (fun _ _ => rfl) (unpackBody_truncated hfit hpart) rfl,
      ⟨rfl, rfl, rfl, rfl, rfl, rfl⟩, rfl⟩
  case overflow =>
    exact ⟨_, raises_of_body hs he (fun _ _ => rfl) (unpackBody_overflows hfit hwhole hover) rfl,
      ⟨rfl, rfl, rfl, rfl, rfl, rfl⟩, rfl⟩
  case codes =>
    have hcount : (unpackedCodes bs).length = 2 * (sn.sl.toNat / 3) := by rw [length_unpackedCodes, hlen]
    exact ⟨_, _, completes_of_body hs he storesInto_storeCode (unpackBody_of_room hfit hwhole hroom hlen hsrc)
      ((Nat.zero_add _).trans hcount), written_and_kept _ _ hcount⟩

end Sys2Proof.Machine
end

section
/-! CWRITE as a whole command (R188). -/

namespace Sys2Proof.Machine

open Sys2Proof.Reference

variable {c : Config} {s : State} {sn : Snapshot} {cs : List Code}

theorem cwriteChecks_of_fits (hfit : Fits c .cwrite sn) :
    cwriteChecks c (Work.start 8 (Engine.fresh .cwrite sn)) =
      if 8 + 3 * packCount sn.sl.toNat > sn.dc.toNat then .err .dstOverflow 0 (Work.start 8 (Engine.fresh .cwrite sn))
      else .ok (Work.start 8 (Engine.fresh .cwrite sn)) := checkRegions_andThen_of_fits hfit _

theorem cwriteBody_overflows (hfit : Fits s.cfg .cwrite sn) (hover : sn.dc.toNat < 8 + 3 * packCount sn.sl.toNat) :
    cwriteBody s (Engine.fresh .cwrite sn) = .err .dstOverflow 0 (Work.start 8 (Engine.fresh .cwrite sn)) := by
  rw [cwriteBody, cwritePart_eq, cwriteChecks_of_fits hfit, if_pos hover, Res.andThen_err, Res.andThen_err]

/-- The header of the Container (R84): the source length and the row width of the snapshot. -/
theorem cwriteHeader_of_room (hroom : 8 ≤ sn.dc.toNat) :
    cwriteHeader (Work.start 8 (Engine.fresh .cwrite sn)) =
      .ok ((Work.start 8 (Engine.fresh .cwrite sn)).wrote 0 (wordBytes sn.sl ++ wordBytes sn.rw)) := by
  rw [← le32Bytes_eq_wordBytes, ← le32Bytes_eq_wordBytes]
  exact putAll_of_room (x := Work.start 8 (Engine.fresh .cwrite sn)) hroom

theorem length_containerBytes (cs : List Code) (rw : Word) :
    (containerBytes cs rw).length = 8 + 3 * packCount cs.length := by
  rw [containerBytes, List.length_append, length_packedBytes]
  rfl

theorem cwriteBody_of_room (hfit : Fits s.cfg .cwrite sn) (hroom : 8 + 3 * packCount sn.sl.toNat ≤ sn.dc.toNat)
    (hlen : cs.length = sn.sl.toNat) (hsrc : ramRange s.code sn.sb.toNat cs.length = cs.map some) :
    cwriteBody s (Engine.fresh .cwrite sn) =
      .ok ((Work.start 8 (Engine.fresh .cwrite sn)).wrote cs.length (containerBytes cs sn.rw)) := by
  have hcount : BitVec.ofNat 32 cs.length = sn.sl := by rw [hlen, BitVec.ofNat_toNat, BitVec.setWidth_eq]
  rw [cwriteBody, cwritePart_eq, cwriteChecks_of_fits hfit, if_neg (Nat.not_lt.2 hroom), Res.andThen_ok,
    cwriteHeader_of_room (by omega), Res.andThen_ok, containerBytes, hcount, ← Nat.zero_add cs.length,
    ← Work.wrote_wrote]
  exact packCodes_of_room (x := (Work.start 8 (Engine.fresh .cwrite sn)).wrote 0 (wordBytes sn.sl ++ wordBytes sn.rw))
    rfl hlen hsrc hroom

/-- Settles O51: CWRITE's checks decide between its ends, and behind its header its walk writes the packs. -/
theorem cwriteWritesContainer : Obligations.CwriteWritesContainer := by
  unfold Obligations.CwriteWritesContainer
  intro s sn hs he
  refine ⟨fun hfit => ?range, fun hfit hover => ?overflow, fun hfit hroom cs hlen hsrc => ?container⟩
  case range =>
    obtain ⟨t, ht, hend, -, -, -, -, -, hstream⟩ := endsUntouched_range hs he hfit
    exact ⟨t, ht, hend, hstream⟩
  case overflow =>
    exact ⟨_, raises_of_body hs he (fun _ _ => rfl) (cwriteBody_overflows hfit hover) rfl,
      ⟨rfl, rfl, rfl, rfl, rfl, rfl⟩, rfl⟩
  case container =>
    have hcount : (containerBytes cs sn.rw).length = 8 + 3 * ((sn.sl.toNat + 1) / 2) := by
      rw [length_containerBytes, hlen, packCount]
    exact ⟨_, _, completes_of_body hs he storesInto_storeStream (cwriteBody_of_room hfit hroom hlen hsrc)
      ((Nat.zero_add _).trans hcount), written_and_kept _ _ hcount⟩

end Sys2Proof.Machine
end

section
/-! CREAD as a whole command: its success and its errors (R192 to R194). -/

namespace Sys2Proof.Machine

open Sys2Proof.Reference

variable {c : Config} {s : State} {sn : Snapshot} {cw rwd : Word} {bs : List Byte} {x : Work 12}

/-! ### The checks on the operands, and the header -/

theorem creadChecks_of_fits (hfit : Fits c .cread sn) :
    creadChecks c (Work.start 12 (Engine.fresh .cread sn)) =
      if sn.sl.toNat < 8 then .err .truncatedFrame 0 (Work.start 12 (Engine.fresh .cread sn))
      else .ok (Work.start 12 (Engine.fresh .cread sn)) := checkRegions_andThen_of_fits hfit _

theorem creadBody_truncated (hfit : Fits s.cfg .cread sn) (hshort : sn.sl.toNat < 8) :
    creadBody s (Engine.fresh .cread sn) = .err .truncatedFrame 0 (Work.start 12 (Engine.fresh .cread sn)) := by
  rw [creadBody, creadPart_eq_checks, creadChecks_of_fits hfit, if_pos hshort, Res.andThen_err, Res.andThen_err]

/-- A range that holds two sequences one behind the other holds each. -/
theorem ramRange_eq_append {w : Nat} {m : List (Nat × BitVec w)} {a : Nat} {us vs : List (BitVec w)}
    (h : ramRange m a (us.length + vs.length) = (us ++ vs).map some) :
    ramRange m a us.length = us.map some ∧ ramRange m (a + us.length) vs.length = vs.map some := by
  rw [ramRange_append, List.map_append] at h
  exact List.append_inj h (by rw [ramRange_length, List.length_map])

/-- A written header is read as its two words (R84, R192). -/
theorem creadWords_of_header {m : List (Nat × BitVec 8)}
    (h : ramRange m x.eng.sb 8 = (wordBytes cw ++ wordBytes rwd).map some) : creadWords m x = creadCheck cw rwd x := by
  rw [← le32Bytes_eq_wordBytes, ← le32Bytes_eq_wordBytes] at h
  obtain ⟨hcw, hrwd⟩ := ramRange_eq_append (us := le32Bytes cw) (vs := le32Bytes rwd) h
  have hsecond : le32Read .cread m (x.eng.sb + 4) = .ok rwd := le32Read_of_le32Bytes hrwd
  rw [creadWords, le32Read_of_le32Bytes hcw, hsecond]

/-- CREAD behind its checks on the operands: the header's checks, then the declared groups (R192). -/
theorem creadBody_of_header (hfit : Fits s.cfg .cread sn) (hlong : 8 ≤ sn.sl.toNat)
    (h : ramRange s.stream sn.sb.toNat 8 = (wordBytes cw ++ wordBytes rwd).map some) :
    creadBody s (Engine.fresh .cread sn) =
      (creadCheck cw rwd (Work.start 12 (Engine.fresh .cread sn))).andThen (creadGroups sn.sl.toNat s) := by
  rw [creadBody, creadPart_eq_checks, creadChecks_of_fits hfit, if_neg (Nat.not_lt.2 hlong), Res.andThen_ok,
    creadWords_of_header h]
  rfl

/-! ### The checks on the header -/

theorem sint32_of_lt (h : cw.toNat < 2 ^ 31) : sint32 cw = cw.toNat := BitVec.toInt_eq_toNat_of_lt (by omega)

theorem sint32_neg (h : 2 ^ 31 ≤ cw.toNat) : sint32 cw < 0 := BitVec.toInt_neg_iff.2 (by omega)

theorem creadCheck_mismatch (h : 2 ^ 31 ≤ cw.toNat ∨ 2 * ((x.eng.sl - 8) / 3) < cw.toNat) :
    creadCheck cw rwd x = .err .codeCountMismatch 0 (x.headed (cw, rwd)) := by
  refine if_pos (?_ : sint32 cw < 0 ∨ sint32 cw > 2 * (((x.eng.sl - 8) / 3 : Nat) : Int))
  rcases Nat.lt_or_ge cw.toNat (2 ^ 31) with hlt | hge
  · rw [sint32_of_lt hlt]
    omega
  · exact .inl (sint32_neg hge)

/-- A count that is not negative and fits the whole groups is compared with the capacity alone (R192). -/
theorem creadCheck_of_count (hcount : cw.toNat < 2 ^ 31) (hgroups : cw.toNat ≤ 2 * ((x.eng.sl - 8) / 3)) :
    creadCheck cw rwd x =
      if cw.toNat > x.eng.dc then .err .dstOverflow 0 (x.headed (cw, rwd)) else .ok (x.headed (cw, rwd)) := by
  have hrange : ¬ (sint32 cw < 0 ∨ sint32 cw > 2 * (((x.eng.sl - 8) / 3 : Nat) : Int)) := by
    rw [sint32_of_lt hcount]
    omega
  refine (if_neg hrange).trans ?_
  simp only [sint32_of_lt hcount, gt_iff_lt, Int.ofNat_lt]
  rfl

/-- The work of a CREAD that has read the header words and nothing else. -/
def headerRead (sn : Snapshot) (cw rwd : Word) : Work 12 := (Work.start 12 (Engine.fresh .cread sn)).headed (cw, rwd)

theorem creadBody_mismatch (hfit : Fits s.cfg .cread sn) (hlong : 8 ≤ sn.sl.toNat)
    (h : ramRange s.stream sn.sb.toNat 8 = (wordBytes cw ++ wordBytes rwd).map some)
    (hcount : 2 ^ 31 ≤ cw.toNat ∨ 2 * ((sn.sl.toNat - 8) / 3) < cw.toNat) :
    creadBody s (Engine.fresh .cread sn) = .err .codeCountMismatch 0 (headerRead sn cw rwd) := by
  rw [creadBody_of_header hfit hlong h, creadCheck_mismatch (x := Work.start 12 (Engine.fresh .cread sn)) hcount]
  rfl

theorem creadBody_of_count (hfit : Fits s.cfg .cread sn) (hlong : 8 ≤ sn.sl.toNat)
    (h : ramRange s.stream sn.sb.toNat 8 = (wordBytes cw ++ wordBytes rwd).map some) (hcount : cw.toNat < 2 ^ 31)
    (hgroups : cw.toNat ≤ 2 * ((sn.sl.toNat - 8) / 3)) :
    creadBody s (Engine.fresh .cread sn) =
      if sn.dc.toNat < cw.toNat then .err .dstOverflow 0 (headerRead sn cw rwd)
      else creadGroups sn.sl.toNat s (headerRead sn cw rwd) := by
  rw [creadBody_of_header hfit hlong h,
    creadCheck_of_count (x := Work.start 12 (Engine.fresh .cread sn)) hcount hgroups]
  exact apply_ite (Res.andThen · _) _ _ _

/-- Settles O53: CREAD's checks in their order. -/
theorem creadErrors : Obligations.CreadErrors := by
  unfold Obligations.CreadErrors
  intro s sn cw rwd hs he
  refine ⟨fun hfit => ?range, fun hfit hshort => ?truncated, fun hfit hlong hhdr =>
    ⟨fun hcount => ?mismatch, fun hcount hgroups hover => ?overflow⟩⟩
  case range =>
    obtain ⟨t, ht, hend, -, hhdr, hrow, -, hcode, -⟩ := endsUntouched_range hs he hfit
    exact ⟨t, ht, hend, hhdr, hrow, hcode⟩
  case truncated =>
    exact ⟨_, raises_of_body hs he (fun _ _ => rfl) (creadBody_truncated hfit hshort) rfl,
      ⟨rfl, rfl, rfl, rfl, rfl, rfl⟩, rfl, rfl, rfl⟩
  case mismatch =>
    exact ⟨_, raises_of_body hs he (fun _ _ => rfl) (creadBody_mismatch hfit hlong hhdr hcount) rfl,
      ⟨rfl, rfl, rfl, rfl, rfl, rfl⟩, rfl, rfl, rfl⟩
  case overflow =>
    have hbody := (creadBody_of_count hfit hlong hhdr hcount hgroups).trans (if_pos hover)
    exact ⟨_, raises_of_body hs he (fun _ _ => rfl) hbody rfl, ⟨rfl, rfl, rfl, rfl, rfl, rfl⟩, rfl, rfl, rfl⟩

/-! ### The declared codes -/

theorem declaredCount_headerRead (hcount : cw.toNat < 2 ^ 31) : declaredCount (headerRead sn cw rwd) = cw.toNat := by
  show (sint32 cw).toNat = _
  rw [sint32_of_lt hcount, Int.toNat_natCast]

/-- The declared groups behind a header, where they are written and there is room for their codes (R192). -/
theorem creadGroups_of_room (hcount : cw.toNat < 2 ^ 31) (hgroups : cw.toNat ≤ 2 * ((sn.sl.toNat - 8) / 3))
    (hroom : cw.toNat ≤ sn.dc.toNat) (hlen : bs.length = 3 * packCount cw.toNat)
    (hsrc : ramRange s.stream (sn.sb.toNat + 8) bs.length = bs.map some) :
    creadGroups sn.sl.toNat s (headerRead sn cw rwd) =
      .ok ((headerRead sn cw rwd).wrote (3 * (bs.length / 3)) ((unpackedCodes bs).take cw.toNat)) := by
  have hcodes : groupCodes (declaredCodes cw.toNat) 8 bs = (unpackedCodes bs).take cw.toNat := by
    simpa using groupCodes_declaredCodes 0 bs cw.toNat hlen
  have hrange : min sn.sl.toNat (8 + 3 * packCount cw.toNat - 8) = bs.length := by
    rw [packCount] at hlen ⊢
    omega
  rw [creadGroups, creadLoop_eq, declaredCount_headerRead hcount]
  show groupLoop .cread _ (ramRange s.stream (sn.sb.toNat + 8) (min sn.sl.toNat (8 + 3 * packCount cw.toNat - 8))) _ = _
  rw [hrange, hsrc, ← hcodes]
  refine groupLoop_of_room (declaredCodes cw.toNat) bs ?_
  show 0 + (groupCodes (declaredCodes cw.toNat) 8 bs).length ≤ sn.dc.toNat
  rw [hcodes, List.length_take]
  omega

/-- Settles O52: behind a header that passes its checks, CREAD's walk writes the declared codes. -/
theorem creadWritesDeclaredCodes : Obligations.CreadWritesDeclaredCodes := by
  unfold Obligations.CreadWritesDeclaredCodes
  intro s sn cw rwd bs hs he hfit hlong hcount hgroups hroom hlen hsrc
  obtain ⟨hhdr, hbytes⟩ := ramRange_eq_append (us := wordBytes cw ++ wordBytes rwd) hsrc
  have hbody := creadBody_of_count hfit hlong hhdr hcount hgroups
  rw [if_neg (Nat.not_lt.2 hroom), creadGroups_of_room hcount hgroups hroom hlen hbytes] at hbody
  have hwritten : ((unpackedCodes bs).take cw.toNat).length = cw.toNat := by
    rw [List.length_take, length_unpackedCodes]
    omega
  have hrun := completes_of_body hs he storesInto_storeCode hbody ((Nat.zero_add _).trans hwritten)
  rw [BitVec.ofNat_toNat, BitVec.setWidth_eq] at hrun
  exact ⟨_, _, hrun, written_and_kept _ _ hwritten⟩

end Sys2Proof.Machine
end

section
/-! What the framing commands leave unchanged, however they end (R25, R51, R102, R205). -/

namespace Sys2Proof.Machine

open Sys2Proof.Reference

variable {w : Nat} {s t u : State} {e : Engine} {op : Instr}

/-! ### PACK, UNPACK and CWRITE read no header -/

/-- A check of the engine's record in front of a step. -/
theorem Oblivious.ite {k : Work w → Res (Work w)} (hk : Oblivious k) (P : Engine → Prop) [DecidablePred P] (E : ErrCode)
    (i : Engine → Nat) : Oblivious fun x => if P x.eng then .err E (i x.eng) x else k x := by
  intro l h x
  show (if P x.eng then Res.err E (i x.eng) (x.behind l h) else k (x.behind l h)) =
    (if P x.eng then Res.err E (i x.eng) x else k x).behind l h
  split
  · rfl
  · exact hk l h x

theorem oblivious_checkRegions (a b : Nat) : Oblivious (checkRegions (w := w) a b) :=
  (oblivious_ok.ite (fun e => e.db + e.dc > b) .range fun _ => 0).ite (fun e => e.sb + e.sl > a) .range fun _ => 0

theorem oblivious_packOpen (c : Config) : Oblivious (packOpen c) :=
  (oblivious_checkRegions _ _).andThen (oblivious_ok.ite (fun e => 3 * packCount e.sl > e.dc) .dstOverflow fun _ => 0)

theorem oblivious_unpackOpen (c : Config) : Oblivious (unpackOpen c) :=
  (oblivious_checkRegions _ _).andThen
    ((oblivious_ok.ite (fun e => 2 * (e.sl / 3) > e.dc) .dstOverflow fun _ => 0).ite (fun e => e.sl % 3 ≠ 0)
      .truncatedFrame fun e => e.sl - e.sl % 3)

theorem oblivious_cwriteChecks (c : Config) : Oblivious (cwriteChecks c) :=
  (oblivious_checkRegions _ _).andThen
    (oblivious_ok.ite (fun e => 8 + 3 * packCount e.sl > e.dc) .dstOverflow fun _ => 0)

theorem oblivious_cwriteHeader : Oblivious cwriteHeader := by
  intro l h x
  unfold cwriteHeader
  rw [Work.behind_eng]
  split
  · exact oblivious_putAll _ 0 l h x
  · rfl

theorem oblivious_packCodes (op : Instr) (n : Nat) (s : State) : Oblivious (packCodes op n s) :=
  fun l h x => oblivious_packLoop op _ l h x

theorem packBody_hdr {x : Work 8} (h : Reaches (packBody s e) x) : x.hdr = none :=
  ((oblivious_packOpen s.cfg).andThen (oblivious_packCodes .pack e.sl s)).hdr_eq h

theorem cwriteBody_hdr {x : Work 8} (h : Reaches (cwriteBody s e) x) : x.hdr = none := by
  rw [cwriteBody, cwritePart_eq] at h
  exact (((oblivious_cwriteChecks s.cfg).andThen oblivious_cwriteHeader).andThen
    (oblivious_packCodes .cwrite e.sl s)).hdr_eq h

theorem unpackBody_hdr {x : Work 12} (h : Reaches (unpackBody s e) x) : x.hdr = none := by
  have hwalk : Oblivious fun z : Work 12 => walkRange (groupLoop .unpack unpackedPair) s.stream z.eng.sl e.sl z :=
    fun l h z => oblivious_groupLoop _ _ _ l h z
  rw [unpackBody, unpackPart_eq] at h
  exact ((oblivious_unpackOpen s.cfg).andThen hwalk).hdr_eq h

/-! ### The frames -/

/-- An end of a command without a dictionary leaves DICT_SIZE (R35). -/
theorem end_keeps_dictSize {x : Work w} (hop : usesDictionary op = false)
    (h : t = u.complete op x ∨ ∃ E i, t = u.raiseErr op E i x) : t.dictSize = u.dictSize := by
  rcases h with rfl | ⟨E, i, rfl⟩
  · simp [hop]
  · simp [hop]

/-- The frame of a command that writes STREAM, has no dictionary and reads no header. -/
theorem streamFrame_of_body {body : State → Engine → Res (Work 8)} (hop : usesDictionary op = false)
    (hgrows : ∀ s e x, Reaches (body s e) x → Grows (Work.start 8 e) x)
    (hhdr : ∀ s e x, Reaches (body s e) x → x.hdr = none) (ht : runCommand op storeStream body s = .next t) :
    CommonKept op s t ∧ t.rowWidth = s.rowWidth ∧ t.hdrCount = s.hdrCount ∧ t.dictSize = s.dictSize ∧
      t.sym = s.sym ∧ t.code = s.code ∧ OutsideKept s.stream t.stream (s.engineFor op).db t.resultLen.toNat := by
  obtain ⟨x, hx, hend⟩ := runCommand_next ht
  obtain ⟨hcommon, hheaders, hsym, hcode, hstream, hlen⟩ := end_keeps hend
  obtain ⟨hrow, hcount⟩ := hheaders (hhdr _ _ x hx)
  obtain ⟨-, hsym', hcode', hstream', -, -, -, -, hrow', hsize', hcount', -⟩ := State.issued_kept op s
  refine ⟨hcommon (commonKept_issued op s), hrow.trans hrow', hcount.trans hcount',
    (end_keeps_dictSize hop hend).trans hsize', hsym.trans hsym', hcode.trans hcode', ?_⟩
  rw [hstream, hlen, ← hstream']
  exact outsideKept_of_grows (hgrows _ _ x hx)

/-- Settles O54: both commands write STREAM alone. -/
theorem packAndCwriteFrame : Obligations.PackAndCwriteFrame := by
  unfold Obligations.PackAndCwriteFrame
  intro s t op hop ht
  rcases hop with rfl | rfl
  · exact streamFrame_of_body rfl grows_packBody (fun _ _ _ => packBody_hdr) ht
  · exact streamFrame_of_body rfl grows_cwriteBody (fun _ _ _ => cwriteBody_hdr) ht

/-- The frame of a command that writes CODE and has no dictionary; the header registers where it reads no header. -/
theorem codeFrame_of_body {body : State → Engine → Res (Work 12)} (hop : usesDictionary op = false)
    (hgrows : ∀ s e x, Reaches (body s e) x → Grows (Work.start 12 e) x)
    (hhdr : op = .unpack → ∀ s e x, Reaches (body s e) x → x.hdr = none)
    (ht : runCommand op storeCode body s = .next t) :
    CommonKept op s t ∧ t.dictSize = s.dictSize ∧ t.sym = s.sym ∧ t.stream = s.stream ∧
      (op = .unpack → t.rowWidth = s.rowWidth ∧ t.hdrCount = s.hdrCount) ∧
      OutsideKept s.code t.code (s.engineFor op).db t.resultLen.toNat := by
  obtain ⟨x, hx, hend⟩ := runCommand_next ht
  obtain ⟨hcommon, hheaders, hsym, hcode, hstream, hlen⟩ := end_keeps hend
  obtain ⟨-, hsym', hcode', hstream', -, -, -, -, hrow', hsize', hcount', -⟩ := State.issued_kept op s
  refine ⟨hcommon (commonKept_issued op s), (end_keeps_dictSize hop hend).trans hsize', hsym.trans hsym',
    hstream.trans hstream', fun hunpack => ?headers, ?written⟩
  case headers =>
    obtain ⟨hrow, hcount⟩ := hheaders (hhdr hunpack _ _ x hx)
    exact ⟨hrow.trans hrow', hcount.trans hcount'⟩
  case written =>
    rw [hcode, hlen, ← hcode']
    exact outsideKept_of_grows (hgrows _ _ x hx)

/-- Settles O55: both commands write CODE alone, and UNPACK reads no header. -/
theorem unpackAndCreadFrame : Obligations.UnpackAndCreadFrame := by
  unfold Obligations.UnpackAndCreadFrame
  intro s t op hop ht
  rcases hop with rfl | rfl
  · exact codeFrame_of_body rfl grows_unpackBody (fun _ _ _ _ => unpackBody_hdr) ht
  · exact codeFrame_of_body rfl grows_creadBody nofun ht

end Sys2Proof.Machine
end

section
/-! CREAD of what CWRITE wrote (R195). -/

namespace Sys2Proof.Machine

open Sys2Proof.Reference

variable {s t u : State} {sn : Snapshot} {cs : List Code} {rw : Word}

/-- A CWRITE that ends with DONE has none of the reasons for an error (R188). -/
theorem checks_of_cwrite_done (hs : Inv s) (he : s.engine = some (Engine.fresh .cwrite sn))
    (ht : exec .cwrite s = .next t) (hdone : t.done = true) :
    Fits s.cfg .cwrite sn ∧ 8 + 3 * ((sn.sl.toNat + 1) / 2) ≤ sn.dc.toNat := by
  obtain ⟨hrange, hoverflow, -⟩ := cwriteWritesContainer s sn hs he
  have hfit : Fits s.cfg .cwrite sn := by
    by_contra hfit
    obtain ⟨t', ht', hend, -⟩ := hrange hfit
    exact not_endsErr_of_done ht hdone ht' hend
  refine ⟨hfit, Nat.le_of_not_lt fun hover => ?_⟩
  obtain ⟨t', ht', hend, -⟩ := hoverflow hfit hover
  exact not_endsErr_of_done ht hdone ht' hend

/-- What such a CWRITE leaves: the block idle, the Container in STREAM and its length in RESULT_LEN. -/
theorem container_of_cwrite_done (hs : Inv s) (he : s.engine = some (Engine.fresh .cwrite sn))
    (hlen : cs.length = sn.sl.toNat) (hsrc : ramRange s.code sn.sb.toNat cs.length = cs.map some)
    (ht : exec .cwrite s = .next t) (hdone : t.done = true) :
    t.engine = none ∧ t.cfg = s.cfg ∧ t.resultLen.toNat = 8 + 3 * packCount cs.length ∧
      ramRange t.stream sn.db.toNat (8 + 3 * packCount cs.length) = (containerBytes cs sn.rw).map some := by
  obtain ⟨hfit, hroom⟩ := checks_of_cwrite_done hs he ht hdone
  obtain ⟨-, -, hcontainer⟩ := cwriteWritesContainer s sn hs he
  obtain ⟨m, n, hrun, hstream, -⟩ := hcontainer hfit hroom cs hlen hsrc
  cases ht.symm.trans hrun
  rw [packCount, hlen]
  exact ⟨rfl, rfl, (BitVec.toNat_ofNat _ _).trans (Nat.mod_eq_of_lt (hroom.trans_lt sn.dc.isLt)), hstream⟩

theorem Inv.codeDepth_le (h : Inv s) : s.cfg.codeDepth ≤ Config.maxDepth := by
  have hpart := h.part
  simp only [Config.wellFormed, Config.depthOk, Bool.and_eq_true, decide_eq_true_eq] at hpart
  exact hpart.1.2.2

theorem exec_cread_issued (u : State) : exec .cread (u.issued .cread) = exec .cread u :=
  runCommand_issued .cread storeCode creadBody u

/-- CREAD of a Container, issued with exactly its length and room for its codes (R84, R192). -/
theorem cread_of_container (hu : Inv u) (hidle : u.engine = none) (hfit : Fits u.cfg .cread u.operands)
    (hlen : u.srcLen.toNat = 8 + 3 * packCount cs.length) (hcount : cs.length < 2 ^ 31)
    (hroom : cs.length ≤ u.dstCap.toNat)
    (hsrc : ramRange u.stream u.srcBase.toNat (8 + 3 * packCount cs.length) = (containerBytes cs rw).map some) :
    ∃ v, exec .cread u = .next v ∧ EndsOk v cs.length ∧ ramRange v.code u.dstBase.toNat cs.length = cs.map some ∧
      v.rowWidth = rw ∧ v.hdrCount = BitVec.ofNat 32 cs.length := by
  obtain ⟨hcfg, -, -, hstream, -⟩ := State.issued_kept .cread u
  have hrunning : (u.issued .cread).engine = some (Engine.fresh .cread u.operands) :=
    issued_engine_of_starts (State.engineFor_of_none .cread hidle)
  have hcw : (BitVec.ofNat 32 cs.length).toNat = cs.length := by
    rw [BitVec.toNat_ofNat, Nat.mod_eq_of_lt (by omega)]
  have hgroups : cs.length ≤ 2 * ((u.srcLen.toNat - 8) / 3) := by
    rw [hlen, packCount]
    omega
  rw [← length_packedBytes, ← hstream] at hsrc
  obtain ⟨m, n, hrun, hcodes, -⟩ := creadWritesDeclaredCodes (u.issued .cread) u.operands (BitVec.ofNat 32 cs.length) rw
    (packedBytes cs) (hu.issued .cread) hrunning (hcfg ▸ hfit) (hlen ▸ Nat.le_add_right _ _) (hcw.symm ▸ hcount)
    (hcw.symm ▸ hgroups) (hcw.symm ▸ hroom) (hcw.symm ▸ length_packedBytes cs) hsrc
  rw [hcw, take_unpackedCodes_packedBytes] at hcodes
  exact ⟨_, (exec_cread_issued u).symm.trans hrun, ⟨rfl, rfl, rfl, rfl, rfl, rfl⟩, hcodes, rfl, rfl⟩

/-- Settles O56: CWRITE has written a Container, whose packs give the codes back. -/
theorem containerRoundTrip : Obligations.ContainerRoundTrip := by
  unfold Obligations.ContainerRoundTrip
  intro s t sn cs db2 dc2 rw2 hs hstarts hlen hsrc ht hdone hregion hroom
  obtain ⟨hcfg, -, hcode, -⟩ := State.issued_kept .cwrite s
  have hinv := hs.issued .cwrite
  have hrunning := issued_engine_of_starts hstarts
  have hissued : exec .cwrite (s.issued .cwrite) = .next t :=
    (runCommand_issued .cwrite storeStream cwriteBody s).trans ht
  obtain ⟨⟨hsource, hdest⟩, hcap⟩ := checks_of_cwrite_done hinv hrunning hissued hdone
  obtain ⟨hidle, hcfg', hresult, hstream⟩ :=
    container_of_cwrite_done hinv hrunning hlen (hcode ▸ hsrc) hissued hdone
  have hsmall : cs.length < 2 ^ 31 := by
    have hdepth : sn.sb.toNat + sn.sl.toNat ≤ 4194304 := le_trans hsource hinv.codeDepth_le
    omega
  have hregions : Fits t.cfg .cread ⟨sn.db, t.resultLen, db2, dc2, rw2⟩ := by
    have hbytes : sn.db.toNat + t.resultLen.toNat ≤ sn.db.toNat + sn.dc.toNat := by
      rw [hresult, packCount, hlen]
      omega
    rw [hcfg']
    exact ⟨hbytes.trans hdest, hcfg.symm ▸ hregion⟩
  exact cread_of_container
    (u := { t with srcBase := sn.db, srcLen := t.resultLen, dstBase := db2, dstCap := dc2, rowWidth := rw2 })
    ((inv_exec hinv hrunning hissued).withOperands hidle _ _ _ _ _ _) hidle hregions hresult hsmall hroom hstream

end Sys2Proof.Machine
end

section
/-! The numbers of the error codes (R200), and the whole STATUS word BAD_COMMAND leaves (R33, R101). -/

namespace Sys2Proof.Machine

variable {s : State} {v : Word}

/-- STATUS after a rejected CMD write is BAD_COMMAND's number and ERROR beside SATURATED, which the write leaves. -/
theorem statusWord_writeCmd_of_error {r : CmdReject} (h : decodeCmd v = .error r) (hidle : s.busy = false) :
    (s.writeCmd v).statusWord =
      0#20 ++ ErrCode.badCommand.code ++ 0#4 ++ BitVec.ofBool s.saturated ++ 1#1 ++ 0#1 ++ 0#1 := by
  have hbusy : (s.writeCmd v).busy = false := by rw [writeCmd_of_error h]; exact hidle
  rw [State.statusWord, hbusy, writeCmd_of_error h]
  rfl

/-- Settles O30: the numbers by their table, and the rejected write's STATUS with the dictionary empty. -/
theorem errorCodeNumbers : Obligations.ErrorCodeNumbers := by
  unfold Obligations.ErrorCodeNumbers
  refine ⟨rfl, rfl, rfl, rfl, rfl, rfl, rfl, ?_⟩
  have hwrite : hostWrite 0x004#32 0x00000007#32 State.reset = State.reset.writeCmd 0x00000007#32 :=
    hostWrite_of_reg (decodeAddr_regAddr .cmd) rfl _
  have hreject : decodeCmd 0x00000007#32 = .error (.reservedOpcode 7) := rfl
  have hsaturated : State.reset.saturated = false := rfl
  calc (hostRead 0x008#32 (hostWrite 0x004#32 0x00000007#32 State.reset)).1
      = (State.reset.writeCmd 0x00000007#32).statusWord := by
        rw [hwrite]; exact congrArg Prod.fst (hostRead_regAddr .status _)
    _ = 0#20 ++ 1#4 ++ 0#4 ++ BitVec.ofBool State.reset.saturated ++ 1#1 ++ 0#1 ++ 0#1 :=
        statusWord_writeCmd_of_error hreject rfl
    _ = 0x104#32 := by rw [hsaturated]; rfl

end Sys2Proof.Machine
end

section
/-! Host and engine beside each other (R238 to R240): what the host does while a command runs does not reach the
command, and how far the command has got does not reach the host. -/

namespace Sys2Proof.Machine

variable {w : Nat} {s t : State} {e : Engine} {op : Instr}

/-- Settles O9: the port itself ignores the write. -/
theorem busyWritesIgnored : Obligations.BusyWritesIgnored := by
  unfold Obligations.BusyWritesIgnored
  exact fun s a d hbusy => hostWrite_of_busy hbusy a d

/-! ### The host beside a running command -/

/-- The state with the host's position and datum and the draw counter replaced. -/
def State.withHost (p : Nat) (d : Word) (n : Nat) (s : State) : State := { s with pos := p, hostData := d, draws := n }

/-- While a command runs no statement of the host reaches the block (R240); a read takes at most a new draw (R64). -/
theorem hostStatement_of_busy (hbusy : s.busy = true) (st : HostStmt) :
    ∃ p d n, hostStatement st s = s.withHost p d n := by
  cases st with
  | wr a v => exact ⟨s.pos + 1, s.hostData, s.draws, by rw [hostStatement, hostWrite_of_busy hbusy]; rfl⟩
  | rd a =>
    obtain ⟨n, hn⟩ := hostRead_state a s
    exact ⟨s.pos + 1, (hostRead a s).1, n, by rw [hostStatement, hn]; rfl⟩
  | bnz mask target => exact ⟨_, s.hostData, s.draws, rfl⟩
  | halt => exact ⟨s.pos, s.hostData, s.draws, rfl⟩

theorem hostTurn_of_busy (hbusy : s.busy = true) : ∃ p d n, hostTurn s = s.withHost p d n := by
  cases hst : s.prog[s.pos]? with
  | none => exact ⟨s.pos, s.hostData, s.draws, hostTurn_of_none hst⟩
  | some st => exact hostTurn_of_statement hst ▸ hostStatement_of_busy hbusy st

/-- A command whose body and store look at nothing of the host (R70). -/
structure BlindToHost (store : Store w) (body : State → Engine → Res (Work w)) : Prop where
  store : ∀ a l s p d n, store a l (s.withHost p d n) = (store a l s).withHost p d n
  body  : ∀ s e p d n, body (s.withHost p d n) e = body s e

theorem finish_withHost {store : Store w} {body : State → Engine → Res (Work w)} (hblind : BlindToHost store body)
    {r : Res (Work w)} (ht : s.finish op store e r = .next t) (p : Nat) (d : Word) (n : Nat) :
    (s.withHost p d n).finish op store e r = .next (t.withHost p d (n + 1)) := by
  cases r with
  | fault f => cases ht
  | ok x | err E i x =>
    cases ht
    rw [State.finish, hblind.store]
    rfl

theorem runCommand_withHost {store : Store w} {body : State → Engine → Res (Work w)} (hblind : BlindToHost store body)
    (he : s.engine = some e) (ht : runCommand op store body s = .next t) (p : Nat) (d : Word) (n : Nat) :
    runCommand op store body (s.withHost p d n) = .next (t.withHost p d (n + 1)) := by
  have he' : (s.withHost p d n).engine = some e := he
  rw [runCommand_of_running he] at ht
  rw [runCommand_of_running he', hblind.body]
  exact finish_withHost hblind ht p d n

/-- A running command ends as it does with the host elsewhere (R70). -/
theorem exec_withHost (he : s.engine = some e) (ht : exec op s = .next t) (p : Nat) (d : Word) (n : Nat) :
    exec op (s.withHost p d n) = .next (t.withHost p d (n + 1)) := by
  cases op <;> exact runCommand_withHost ⟨fun _ _ _ _ _ _ => rfl, fun _ _ _ _ _ => rfl⟩ he ht p d n

/-- Settles O28: the host's turn moves the host alone, and the command's end does not look at the host. -/
theorem hostCannotDisturbCommand : Obligations.HostCannotDisturbCommand := by
  unfold Obligations.HostCannotDisturbCommand
  intro s e he
  obtain ⟨p, d, n, hturn⟩ := hostTurn_of_busy ((State.busy_iff s).2 ⟨e, he⟩)
  refine ⟨p, d, n, hturn, fun t ht => ⟨n + 1, ?_⟩⟩
  rw [hturn]
  exact exec_withHost he ht p d n

/-! ### A running command beside the host -/

/-- State `u` is `s` but for the RAMs and the record of an engine that runs in it. -/
def DiffersInWork (s u : State) : Prop :=
  ∃ e sy co st, u = { s with engine := some e, sym := sy, code := co, stream := st }

/-- A store that changes RAMs alone. -/
def ChangesRamsOnly (store : Store w) : Prop :=
  ∀ a l s, ∃ sy co st, store a l s = { s with sym := sy, code := co, stream := st }

theorem changesRamsOnly_storeSym : ChangesRamsOnly storeSym := fun _ _ _ => ⟨_, _, _, rfl⟩

theorem changesRamsOnly_storeCode : ChangesRamsOnly storeCode := fun _ _ _ => ⟨_, _, _, rfl⟩

theorem changesRamsOnly_storeStream : ChangesRamsOnly storeStream := fun _ _ _ => ⟨_, _, _, rfl⟩

theorem differsInWork_workOn (he : s.engine = some e) {store : Store w} (hstore : ChangesRamsOnly store)
    (r : Res (Work w)) : DiffersInWork s (s.workOn store e r) := by
  cases r with
  | ok x =>
    obtain ⟨sy, co, st, hs⟩ := hstore (e.db + e.o) x.out s
    exact ⟨x.eng, sy, co, st, by rw [State.workOn, hs]⟩
  | err | fault => exact ⟨e, s.sym, s.code, s.stream, by rw [← he]; rfl⟩

/-- A piece of a command's work changes nothing but its engine's record and the RAMs (R109). -/
theorem differsInWork_advanceEngine (he : s.engine = some e) : DiffersInWork s (advanceEngine s) := by
  simp only [advanceEngine, he]
  cases e.op with
  | encode | unpack | cread => exact differsInWork_workOn he changesRamsOnly_storeCode _
  | decode => exact differsInWork_workOn he changesRamsOnly_storeSym _
  | pack | cwrite => exact differsInWork_workOn he changesRamsOnly_storeStream _

theorem DiffersInWork.kept {u : State} (h : DiffersInWork s u) :
    u.busy = true ∧ u.cfg = s.cfg ∧ u.draws = s.draws := by
  obtain ⟨e, sy, co, st, rfl⟩ := h
  exact ⟨rfl, rfl, rfl⟩

/-- No register shows the RAMs or the record of a running engine (R239). -/
theorem DiffersInWork.readReg_eq {u : State} (h : DiffersInWork s u) (hbusy : s.busy = true) (r : Reg) :
    u.readReg r = s.readReg r := by
  obtain ⟨e, sy, co, st, rfl⟩ := h
  cases r with
  | status => simp only [State.readReg, State.statusWord, hbusy]; rfl
  | _ => rfl

/-- While busy a read in a RAM window gives a free value, whatever the element holds (R59). -/
theorem hostRead_element_of_busy {a : Word} {m : RamId} {i : Nat} (hbusy : s.busy = true)
    (hm : decodeAddr a = .ram m i) (hi : i < ramDepth s.cfg m) : (hostRead a s).1 = drawElement m s.draws i := by
  rw [hostRead_of_ram hm hi, readElement_of_busy m i hbusy]

/-- While busy no host read tells the two states apart. -/
theorem DiffersInWork.hostRead_eq {u : State} (h : DiffersInWork s u) (hbusy : s.busy = true) (a : Word) :
    (hostRead a u).1 = (hostRead a s).1 := by
  obtain ⟨hbusy', hcfg, hdraws⟩ := h.kept
  rcases decodeAddr_cases s a with ⟨r, hr⟩ | ⟨m, i, hm, hi⟩ | hnothing
  · rw [hostRead_of_reg hr, hostRead_of_reg hr, h.readReg_eq hbusy]
  · rw [hostRead_element_of_busy hbusy' hm (hcfg ▸ hi), hostRead_element_of_busy hbusy hm hi, hdraws]
  · have hnothing' : ReachesNothing u a := by rwa [ReachesNothing, hcfg]
    rw [hostRead_of_reachesNothing hnothing, hostRead_of_reachesNothing hnothing']

/-- Settles O27: after a piece the block is as busy as before, and differs only in what no busy read shows. -/
theorem progressIsInvisible : Obligations.ProgressIsInvisible := by
  unfold Obligations.ProgressIsInvisible
  intro s a d hbusy
  obtain ⟨e, he⟩ := (State.busy_iff s).1 hbusy
  have hwork := differsInWork_advanceEngine he
  obtain ⟨hbusy', -, -⟩ := hwork.kept
  exact ⟨hwork.hostRead_eq hbusy a, hbusy', hostWrite_of_busy hbusy' a d⟩

end Sys2Proof.Machine
end

section
/-! The end of a command (R208, R209, R236, R247) and reset (R225, R229). -/

namespace Sys2Proof.Machine

variable {w : Nat} {s t : State} {e : Engine} {op : Instr}

/-! ### The end of a command -/

/-- A command has ended: the block is idle with exactly one of DONE and ERROR, and an error code exactly with ERROR. -/
structure State.Ended (t : State) : Prop where
  idle    : t.engine = none
  oneFlag : t.done = true ↔ t.error = false
  code    : t.errCode = 0#4 ↔ t.error = false

theorem ended_of_runCommand {m : RamId} {store : Store w} {body : State → Engine → Res (Work w)}
    (hstore : StoresInto m store) (hclear : (s.issued op).RecordClear) (ht : runCommand op store body s = .next t) :
    t.Ended := by
  obtain ⟨x, -, rfl | ⟨E, i, rfl⟩⟩ := runCommand_next ht
  · rw [(hstore.recordClear hclear _ _).complete_eq]
    exact ⟨rfl, iff_of_true rfl rfl, iff_of_true rfl rfl⟩
  · rw [(hstore.recordClear hclear _ _).raiseErr_eq]
    exact ⟨rfl, iff_of_false nofun nofun, iff_of_false E.code_ne_zero nofun⟩

/-- Every command that gives a next state has ended in it, whether it was running or issued first (log entry 9). -/
theorem ended_of_exec (hs : Inv s) (ht : exec op s = .next t) : t.Ended := by
  have hclear := hs.recordClear_issued op
  cases op with
  | encode | unpack | cread => exact ended_of_runCommand storesInto_storeCode hclear ht
  | decode => exact ended_of_runCommand storesInto_storeSym hclear ht
  | pack | cwrite => exact ended_of_runCommand storesInto_storeStream hclear ht

/-- A running command whose source region is all written neither stops nor is refused (R54). -/
theorem exists_next_of_written (hs : Inv s) (he : s.engine = some e)
    (hsrc : ∀ a, e.sb ≤ a → a < e.sb + e.sl → s.element (sourceRam e.op) a ≠ none) :
    ∃ t, exec e.op s = .next t := by
  cases ho : exec e.op s with
  | next t => exact ⟨t, rfl⟩
  | fault f =>
    obtain ⟨a, -, hlo, hhi, hnone⟩ := stopsOnlyUnwritten_exec hs he ho
    exact absurd hnone (hsrc a hlo hhi)
  | refused r => exact absurd ho (exec_ne_refused _ _ _)

/-- Settles O25: Complete gives a next state, and there the command has ended. -/
theorem runningCommandEnds : Obligations.RunningCommandEnds := by
  unfold Obligations.RunningCommandEnds
  intro s e hs he hsrc
  obtain ⟨t, ht⟩ := exists_next_of_written hs he hsrc
  have hend := ended_of_exec hs ht
  exact ⟨t, ht, hend.idle, hend.oneFlag, fun hturns => (step_of_default he hturns).trans ht⟩

/-- An idle CMD write of a command's word starts that command (R100, R103, R104). -/
theorem hostWrite_cmd_engine (hidle : t.engine = none) (op : Instr) :
    (hostWrite 0x004#32 (encode op) t).engine = some (Engine.fresh op t.operands) := by
  have hwrite : hostWrite 0x004#32 (encode op) t = t.writeCmd (encode op) :=
    hostWrite_of_reg (decodeAddr_regAddr .cmd) ((State.busy_false_iff t).2 hidle) _
  rw [hwrite, writeCmd_of_ok (decodeCmd_encode_of op)]

/-- Settles O33: the command has ended, and an idle block takes the next one. -/
theorem everyEndLeavesBlockReady : Obligations.EveryEndLeavesBlockReady := by
  unfold Obligations.EveryEndLeavesBlockReady
  intro s t op op' hs ht
  have hend := ended_of_exec hs ht
  exact ⟨hend.idle, hend.oneFlag, hend.code, hostWrite_cmd_engine hend.idle op'⟩

/-! ### Reset -/

@[simp] theorem takeTurn_reset (s : State) : takeTurn .reset s = .next (resetBlock s) := rfl

/-- Settles O18: the turn taken is the reset of the block. -/
theorem resetStepClearsBlock : Obligations.ResetStepClearsBlock := by
  unfold Obligations.ResetStepClearsBlock
  intro s ts hturns
  rw [step_of_turns_cons hturns, takeTurn_reset]
  rfl

/-- Settles O19: from the one reset state each of the six words gives one step, which is evaluated. -/
theorem commandsRightAfterReset : Obligations.CommandsRightAfterReset := by
  unfold Obligations.CommandsRightAfterReset
  intro p hp
  fin_cases hp <;> exact ⟨_, rfl, rfl, rfl, rfl, rfl, rfl⟩

end Sys2Proof.Machine
end
